-- ==== Sys2Proof/Word.lean ====
section
/-! DEFINITION. The widths of the block: 00_scope.md R9, R14 and 30_encoding.md R75, R78. -/

namespace Sys2Proof

/-- "an opaque 8-bit value" (00_scope.md R9). -/
abbrev Byte := BitVec 8

/-- The width of the countdown (`CW = 16`) and of the drop counters (`DCW = 16`), 00_scope.md R9. -/
abbrev Half := BitVec 16

/-- The 20-bit event word of 30_encoding.md R75. -/
abbrev EventWord := BitVec 20

/-- The 9-bit answer words of 30_encoding.md R78. -/
abbrev AnswerWord := BitVec 9

end Sys2Proof
end

