-- ==== Sys2Proof/Config.lean ====
section
/-! DEFINITION. The parameters of 00_scope.md R9. `N_RX` and `N_TX` are the slot counts of the two rings and
stand in the rings themselves (Machine/State.lean); `DCW` and `CW` are fixed at 16 by Word.lean, as the spec
fixes them. The model has no free value: the spec leaves none. -/

namespace Sys2Proof

/-- The overflow policy of one direction (00_scope.md R9, 92_eei_decisions.md D10). -/
inductive Overflow where
  | wrap
  | dropNewest
  deriving DecidableEq, Repr

/-- The reference host's drain policy (00_scope.md R9, 44_host_loop.md R167). -/
inductive DrainPolicy where
  | onePerPass
  | drainFully
  deriving DecidableEq, Repr

/-- The parameters that a model takes, other than the two slot counts. -/
structure Config where
  /-- `OVF_RX` -/
  ovfRx : Overflow
  /-- `OVF_TX` -/
  ovfTx : Overflow
  /-- `HAS_TICK` -/
  hasTick : Bool
  /-- `ATOMIC_FG` -/
  atomicFg : Bool
  /-- `PERIOD`, of the reference host only. -/
  period : Half
  /-- `DRAIN_POLICY`, of the reference host only. -/
  drain : DrainPolicy
  deriving DecidableEq, Repr

/-- Column "this hardware" of 00_scope.md R9. DESIGN CHOICE (log entry 3), unsafe: `PERIOD` is open there; 1000 is
the value of the source's scenario. -/
def Config.thisHardware : Config where
  ovfRx := .wrap
  ovfTx := .wrap
  hasTick := true
  atomicFg := true
  period := 1000
  drain := .onePerPass

/-- `N_RX` at `State.reset`. DESIGN CHOICE (log entry 1), unsafe: open in 00_scope.md R9; 10 is the source's RX scenario. -/
def Config.nRx : Nat := 10

/-- `N_TX` at `State.reset`. DESIGN CHOICE (log entry 1), unsafe: open in 00_scope.md R9; 8 is the source's TX scenario. -/
def Config.nTx : Nat := 8

end Sys2Proof
end

