-- ==== Sys2Proof/Syntax.lean ====
section
/-! DEFINITION. The operations of the block, one constructor per row of spec/opcode_table.json
(30_encoding.md R77), and the events of 00_scope.md R12. -/

namespace Sys2Proof

/-- The eight operations. `RESET` has no event word and so no constructor (30_encoding.md R75). -/
inductive Instr where
  /-- `IDLE`, 43_idle.md R160. -/
  | idle
  /-- `RXI byte`, 40_receive_path.md R100. -/
  | rxi (b : Byte)
  /-- `TAKE`, 40_receive_path.md R104. -/
  | take
  /-- `SEND byte`, 41_transmit_path.md R120. -/
  | send (b : Byte)
  /-- `TXC`, 41_transmit_path.md R124. -/
  | txc
  /-- `TICK`, 42_tick_countdown.md R140. -/
  | tick
  /-- `ELAPSED`, 42_tick_countdown.md R143. -/
  | elapsed
  /-- `LOADCD value`, 42_tick_countdown.md R146. -/
  | loadcd (v : Half)
  deriving DecidableEq, Repr

/-- The two execution contexts of 60_exceptions.md R190; `any` is `IDLE`'s entry in the opcode map. -/
inductive Context where
  | any
  | irq
  | fg
  deriving DecidableEq, Repr

/-- Column "context" of the opcode map, 30_encoding.md R77. -/
def Instr.context : Instr → Context
  | .idle => .any
  | .rxi _ => .irq
  | .take => .fg
  | .send _ => .fg
  | .txc => .irq
  | .tick => .irq
  | .elapsed => .fg
  | .loadcd _ => .fg

/-- The operations of the companion countdown, which exist only with `HAS_TICK` (00_scope.md R6). -/
def Instr.ofCountdown : Instr → Bool
  | .tick => true
  | .elapsed => true
  | .loadcd _ => true
  | .idle => false
  | .rxi _ => false
  | .take => false
  | .send _ => false
  | .txc => false

/-- The events of 00_scope.md R12: an operation, or `RESET`. -/
inductive Event where
  | op (i : Instr)
  | reset
  deriving DecidableEq, Repr

end Sys2Proof
end

