-- ==== Sys2Proof/WellFormed.lean ====
section
/-! DEFINITION. Which operations and slot counts exist under a configuration. Every operand value of an operation is
legal (40_receive_path.md R101 (c), 42_tick_countdown.md R147 (c)). -/

namespace Sys2Proof

/-- The operation exists: the countdown's three only with `HAS_TICK` (30_encoding.md R79, 00_scope.md R6). -/
def Instr.wellFormed (hasTick : Bool) (i : Instr) : Bool :=
  hasTick || !i.ofCountdown

/-- A slot count the spec accepts: at least 2 (00_scope.md R10; 93_implementation_defined.md U6 says refuse). -/
def Config.slotCountOk (n : Nat) : Bool :=
  decide (2 ≤ n)

end Sys2Proof
end

