-- ==== Sys2Proof/Decode.lean ====
section
/-! DEFINITION. The decoder of 30_encoding.md R80, total on 20-bit words and refusing by name, and the encoder after
it, with the opcode map of R77 as data. -/

namespace Sys2Proof

/-- Why a word is invalid: the cases (a), (b), (c) of 30_encoding.md R79 and its sentence on `HAS_TICK = false`. -/
inductive DecodeError where
  /-- (a) `op` in 8 .. 15. -/
  | unknownOp
  /-- (b) a format Z word with `arg != 0x0000`. -/
  | operandNotZero
  /-- (c) a format B word with `arg[15:8] != 0x00`. -/
  | highByteNotZero
  /-- `op` 5, 6 or 7 with `HAS_TICK = false`. -/
  | countdownAbsent
  deriving DecidableEq, Repr

/-- `w[19:16]`, 30_encoding.md R75. -/
def opField (w : EventWord) : BitVec 4 := w.extractLsb' 16 4

/-- `w[15:0]`, 30_encoding.md R75. -/
def argField (w : EventWord) : Half := w.extractLsb' 0 16

/-- `a[15:8]`, 30_encoding.md R75. -/
def argHigh (a : Half) : Byte := a.extractLsb' 8 8

/-- `a[7:0]`, 30_encoding.md R76: the byte operand as it stands. -/
def argByte (a : Half) : Byte := a.extractLsb' 0 8

/-- Format Z: no operand, `arg` must be 0 (30_encoding.md R75). -/
def decodeZ (a : Half) (i : Instr) : Except DecodeError Instr :=
  if a = 0 then .ok i else .error .operandNotZero

/-- Format B: `arg[15:8]` must be 0, the operand is `arg[7:0]` (30_encoding.md R75, R76). -/
def decodeB (a : Half) (f : Byte → Instr) : Except DecodeError Instr :=
  if argHigh a = 0 then .ok (f (argByte a)) else .error .highByteNotZero

/-- The rows that exist only with `HAS_TICK` (30_encoding.md R79, R80). -/
def decodeTick (hasTick : Bool) (r : Except DecodeError Instr) : Except DecodeError Instr :=
  if hasTick then r else .error .countdownAbsent

/-- `decode` of 30_encoding.md R80, with the reason where the spec's answers `invalid`. -/
def decode (hasTick : Bool) (w : EventWord) : Except DecodeError Instr :=
  let a := argField w
  match (opField w).toNat with
  | 0 => decodeZ a .idle
  | 1 => decodeB a .rxi
  | 2 => decodeZ a .take
  | 3 => decodeB a .send
  | 4 => decodeZ a .txc
  | 5 => decodeTick hasTick (decodeZ a .tick)
  | 6 => decodeTick hasTick (decodeZ a .elapsed)
  | 7 => decodeTick hasTick (.ok (.loadcd a))
  | _ => .error .unknownOp

/-- `encode` of 30_encoding.md R80. -/
def encode : Instr → EventWord
  | .idle => 0x00000
  | .rxi b => 0x10000 ||| b.setWidth 20
  | .take => 0x20000
  | .send b => 0x30000 ||| b.setWidth 20
  | .txc => 0x40000
  | .tick => 0x50000
  | .elapsed => 0x60000
  | .loadcd v => 0x70000 ||| v.setWidth 20

/-- One row of the opcode map, 30_encoding.md R77. -/
structure OpcodeRow where
  mnemonic : String
  pattern : EventWord
  mask : EventWord
  deriving DecidableEq, Repr

/-- "a word `w` is that operation exactly when `w & mask == match`" (30_encoding.md R77). -/
def OpcodeRow.matches (r : OpcodeRow) (w : EventWord) : Bool :=
  w &&& r.mask == r.pattern

/-- The opcode map of 30_encoding.md R77, row by row. -/
def opcodeTable : List OpcodeRow :=
  [⟨"IDLE", 0x00000, 0xFFFFF⟩, ⟨"RXI", 0x10000, 0xFFF00⟩, ⟨"TAKE", 0x20000, 0xFFFFF⟩, ⟨"SEND", 0x30000, 0xFFF00⟩,
   ⟨"TXC", 0x40000, 0xFFFFF⟩, ⟨"TICK", 0x50000, 0xFFFFF⟩, ⟨"ELAPSED", 0x60000, 0xFFFFF⟩, ⟨"LOADCD", 0x70000, 0xF0000⟩]

/-- The mnemonic of an operation, 30_encoding.md R77. -/
def Instr.mnemonic : Instr → String
  | .idle => "IDLE"
  | .rxi _ => "RXI"
  | .take => "TAKE"
  | .send _ => "SEND"
  | .txc => "TXC"
  | .tick => "TICK"
  | .elapsed => "ELAPSED"
  | .loadcd _ => "LOADCD"

/-- The operation of the number `w` of `nbits` bits, on this hardware (`HAS_TICK = true`). A number of more than 20
bits is no event word (30_encoding.md R75). DESIGN CHOICE (log entry 16), safe. -/
def decodeTableWord (nbits w : Nat) : Option Instr :=
  if w < 2 ^ nbits ∧ w < 2 ^ 20 then
    match decode Config.thisHardware.hasTick (BitVec.ofNat 20 w) with
    | .ok i => some i
    | .error _ => none
  else none

end Sys2Proof
end

