-- ==== Sys2Proof/Machine/State.lean ====
section
/-! DEFINITION. The state: the record of 10_state.md R20, the foreground's and the reference host's state of
70_reset_and_hazards.md R232 and 44_host_loop.md R166, and the model's own fields (parameters, outputs, schedule). -/

namespace Sys2Proof.Machine

/-- What stops the machine with a fault: nothing. "The block raises no exception of any kind ... The list of
exception causes is empty" (60_exceptions.md R180). -/
inductive Fault where
  deriving DecidableEq, Repr

/-- What the model does not accept (treatment `refuse` of 93_implementation_defined.md). All safe: the machine stops
where the spec gives no behaviour. -/
inductive Refusal where
  /-- Raised by `exec`'s arm of an operation that has no meaning yet. Safe. -/
  | notModelled (mnemonic : String)
  /-- Raised by a step whose event word is invalid: "a model refuses the run" (30_encoding.md R79). Safe. -/
  | invalidWord (reason : DecodeError)
  /-- Raised by `TICK`, `ELAPSED`, `LOADCD` with `HAS_TICK = false`: "the countdown operations do not exist"
  (95_test_vectors.md V40, 30_encoding.md R79). Safe. -/
  | countdownAbsent
  /-- Raised by a micro-step whose saved index is outside its ring, a state that "the spec gives ... no meaning"
  (10_state.md R34, 93_implementation_defined.md U7); no run reaches it. Log entry 22. Safe. -/
  | indexOutOfRange
  deriving DecidableEq, Repr

/-- The outcomes of a step of this machine. -/
abbrev Result (σ : Type) := Host.Outcome σ Fault Refusal

/-- A backing store: the slots that hold another byte than 0x00, by rising slot number. An unlisted slot reads 0x00:
"A read of a slot nothing has written since reset returns 0x00" (20_memory.md R51). -/
abbrev Memory := List Host.Cell

/-- The canonical form from slot `lo` on: slot numbers strictly rising and below `n`, no listed 0x00. -/
def Memory.wfFrom (n : Nat) : Nat → Memory → Bool
  | _, [] => true
  | lo, (a, b) :: m => decide (lo ≤ a) && decide (a < n) && (b != 0) && Memory.wfFrom n (a + 1) m

/-- The canonical form of the store of an `n`-slot ring (20_memory.md R50, R57). -/
def Memory.wf (n : Nat) (m : Memory) : Bool := Memory.wfFrom n 0 m

/-- One ring (10_state.md R20, R22 to R27): `N` slots, head "next slot to write", tail "next slot to read". The proof
fields make unrepresentable what the spec refuses: fewer than two slots (00_scope.md R10) and an index outside
`0 .. N-1` (10_state.md R34). Log entry 7. -/
structure RingBuf where
  cap : Nat
  buf : Memory
  head : Nat
  tail : Nat
  two_le_cap : 2 ≤ cap
  head_lt : head < cap
  tail_lt : tail < cap
  deriving DecidableEq, Repr

/-- The answer to the foreground, `resp` of 00_scope.md R12. -/
inductive Resp where
  | none
  | byte (b : Byte)
  | empty
  | flag (f : Bool)
  deriving DecidableEq, Repr

/-- `Output` of 00_scope.md R12; `txw = some b` is `write(b)`. -/
structure Output where
  resp : Resp
  txw : Option Byte
  deriving DecidableEq, Repr

/-- The path a split `SEND` chose at `SEND.a` (70_reset_and_hazards.md R234). -/
inductive SendPath where
  | fast
  | drop
  | buffered
  deriving DecidableEq, Repr

/-- The foreground's place in a split operation and its private temporaries (70_reset_and_hazards.md R232 to R234).
Always `idle` with `ATOMIC_FG = true`. -/
inductive Foreground where
  | idle
  /-- After `TAKE.a`; next is `TAKE.b`. -/
  | takeB (h t : Nat)
  /-- After `TAKE.b`; next is `TAKE.c`. -/
  | takeC (h t : Nat) (d : Byte)
  /-- After `SEND.a`; next is the micro-step of `path`. -/
  | sendPath (b : Byte) (h t : Nat) (q : Bool) (path : SendPath)
  /-- After `SEND.b`; next is `SEND.c`. -/
  | sendC (b : Byte) (h t : Nat) (q : Bool)
  deriving DecidableEq, Repr

/-- The two phases of the reference host (44_host_loop.md R166). -/
inductive Phase where
  | drainRx
  | checkTimeout
  deriving DecidableEq, Repr

/-- The foreground event the reference host issues next, or has issued and not finished (44_host_loop.md R167, R168). -/
inductive HostPos where
  /-- `TAKE` of `ECHO`. -/
  | take
  /-- `SEND b` of `ECHO`. -/
  | echo (b : Byte)
  /-- `ELAPSED` of `BEAT`. -/
  | elapsed
  /-- `LOADCD PERIOD` of `BEAT`, after which the status bit is toggled. -/
  | reload
  /-- `SEND 0x2D` of `HEARTBEAT`. -/
  | mark
  /-- `SEND 0x0A` of `HEARTBEAT`. -/
  | lineEnd
  deriving DecidableEq, Repr

/-- The reference host's own state (44_host_loop.md R166). -/
structure HostLoop where
  pos : HostPos
  status : Bool
  /-- The event of `pos` is issued and has micro-steps left (70_reset_and_hazards.md R232). Never with
  `ATOMIC_FG = true`. -/
  issued : Bool
  deriving DecidableEq, Repr

/-- The input ports sampled in one step (30_encoding.md R72). -/
structure PortIn where
  rst : Bool := false
  rxIrq : Bool := false
  rxData : Byte := 0
  txcIrq : Bool := false
  tickIrq : Bool := false
  takeReq : Bool := false
  sendReq : Bool := false
  sendData : Byte := 0
  elapsedReq : Bool := false
  loadReq : Bool := false
  loadValue : Half := 0
  deriving DecidableEq, Repr

/-- One thing the environment does: an entry of the schedule (10_state.md R40). Log entry 4. -/
inductive Input where
  /-- An agent raises the event that this event word names (30_encoding.md R75). -/
  | word (w : EventWord)
  /-- The `rst` input (70_reset_and_hazards.md R210). -/
  | rst
  /-- One step of the port view (30_encoding.md R71, R73). -/
  | ports (p : PortIn)
  /-- The foreground takes its next micro-step (70_reset_and_hazards.md R232). -/
  | micro
  /-- The reference host, as the foreground, goes on: with the micro-step in progress if there is one, else with its
  next event (44_host_loop.md R166, 70_reset_and_hazards.md R232; log entry 17). -/
  | hostLoop
  deriving DecidableEq, Repr

/-- The machine's state. -/
structure State where
  /-- The parameters of 00_scope.md R9, fixed for a run; `N_RX` is `rx.cap` and `N_TX` is `tx.cap`. Log entry 2. -/
  cfg : Config
  /-- `rx_buf`, `rx_head`, `rx_tail` (10_state.md R22 to R24). -/
  rx : RingBuf
  /-- `tx_buf`, `tx_head`, `tx_tail` (10_state.md R25 to R27). -/
  tx : RingBuf
  /-- `tx_busy` (10_state.md R28). -/
  txBusy : Bool
  /-- `countdown` (10_state.md R29). -/
  countdown : Half
  /-- `rx_drop_cnt` (10_state.md R30). -/
  rxDropCnt : Half
  /-- `tx_drop_cnt` (10_state.md R30). -/
  txDropCnt : Half
  /-- The foreground's temporaries (70_reset_and_hazards.md R232). -/
  fg : Foreground
  /-- The reference host (44_host_loop.md R166): surrounding software, not the block. -/
  host : HostLoop
  /-- The outputs of the events of the last step, oldest first (00_scope.md R12). Log entry 5. -/
  outs : List Output
  /-- What the environment does next, in order (10_state.md R40). Log entry 4. -/
  inputs : List Input
  deriving DecidableEq, Repr

/-- An empty ring of `n` slots, all 0x00 (10_state.md R39). -/
def RingBuf.empty (n : Nat) (h : 2 ≤ n) : RingBuf where
  cap := n
  buf := []
  head := 0
  tail := 0
  two_le_cap := h
  head_lt := by omega
  tail_lt := by omega

/-- The state after reset of a block with the given parameters (10_state.md R39), with nothing scheduled. -/
def State.init (nRx nTx : Nat) (hRx : 2 ≤ nRx) (hTx : 2 ≤ nTx) (c : Config) : State where
  cfg := c
  rx := RingBuf.empty nRx hRx
  tx := RingBuf.empty nTx hTx
  txBusy := false
  countdown := 0
  rxDropCnt := 0
  txDropCnt := 0
  fg := .idle
  host := ⟨.take, false, false⟩
  outs := []
  inputs := []

/-- The machine right after reset, with this hardware's parameters. -/
def State.reset : State :=
  State.init Config.nRx Config.nTx (by decide) (by decide) Config.thisHardware

end Sys2Proof.Machine
end

