-- ==== Sys2Proof/Machine/Flags.lean ====
section
/-! DEFINITION. The derived predicates of 10_state.md R32 and R33 and the counter arithmetic of 00_scope.md R16. The
one stored flag is `tx_busy`; "empty", "full" and "count" are computed and stored nowhere. -/

namespace Sys2Proof.Machine

/-- `inc_N(i) = if i == N - 1 then 0 else i + 1` (00_scope.md R15). -/
def inc (n i : Nat) : Nat :=
  if i = n - 1 then 0 else i + 1

/-- `empty(h, t) = (h == t)` (10_state.md R32). -/
def RingBuf.isEmpty (r : RingBuf) : Bool := r.head == r.tail

/-- `full(h, t) = (inc_N(h) == t)` (10_state.md R32). -/
def RingBuf.isFull (r : RingBuf) : Bool := inc r.cap r.head == r.tail

/-- `count(h, t) = (h - t) mod N`, a specification device (10_state.md R32). -/
def RingBuf.count (r : RingBuf) : Nat := (r.head + r.cap - r.tail) % r.cap

/-- Drop-counter increment, saturating at `2^DCW - 1` (00_scope.md R16 (d)). -/
def satInc (c : Half) : Half := if c = 0xFFFF then c else c + 1

/-- Countdown decrement, saturating at 0 (00_scope.md R16 (c)). -/
def satDec (c : Half) : Half := if c = 0 then c else c - 1

/-- `IW = max(1, ceil(log2(N)))`, the width of an index register (10_state.md R23, R26). -/
def indexWidth (n : Nat) : Nat := max 1 (Nat.log2 (n - 1) + 1)

end Sys2Proof.Machine
end

