-- ==== Sys2Proof/Machine/Operands.lean ====
section
/-! DEFINITION. The slot accesses of 20_memory.md R51 and the two implicit addressing modes of R56: head-indexed store
with post-advance and tail-indexed load with post-advance. The operand forms Z, B and W of an event word are taken out
in Decode.lean (30_encoding.md R76). -/

namespace Sys2Proof.Machine

/-- `inc_N` "maps `0 .. N-1` into itself" (10_state.md R34). -/
theorem inc_lt {n i : Nat} (h : i < n) : inc n i < n := by
  unfold inc
  split <;> omega

/-- `MemRead(_:i, 1)` (20_memory.md R51). -/
def Memory.read : Memory → Nat → Byte
  | [], _ => 0
  | (a, b) :: m, i => if a = i then b else Memory.read m i

/-- `MemWrite(_:i, 1, v)` (20_memory.md R51), keeping the canonical form: 0x00 is not listed. -/
def Memory.write : Memory → Nat → Byte → Memory
  | [], i, v => if v = 0 then [] else [(i, v)]
  | (a, b) :: m, i, v =>
    if i < a then (if v = 0 then (a, b) :: m else (i, v) :: (a, b) :: m)
    else if i = a then (if v = 0 then m else (i, v) :: m)
    else (a, b) :: Memory.write m i v

/-- The byte in slot `i`, `none` for a slot number that does not exist (20_memory.md R50, R57). For statements: no
operation names a slot (20_memory.md R50). -/
def RingBuf.slot (r : RingBuf) (i : Nat) : Option Byte :=
  if i < r.cap then some (Memory.read r.buf i) else none

/-- The walk of 10_state.md R33: `k` slots from `t` on, advancing with `inc_N`. -/
def Memory.walk (n : Nat) (m : Memory) : Nat → Nat → List Byte
  | _, 0 => []
  | t, k + 1 => Memory.read m t :: Memory.walk n m (inc n t) k

/-- `pending(buf, h, t)`, oldest first (10_state.md R33). -/
def RingBuf.pending (r : RingBuf) : List Byte := Memory.walk r.cap r.buf r.tail r.count

/-- Head-indexed store with post-advance (20_memory.md R56): store at `head`, then `head <- inc_N(head)`. -/
def RingBuf.store (r : RingBuf) (b : Byte) : RingBuf :=
  { r with
    buf := Memory.write r.buf r.head b
    head := inc r.cap r.head
    head_lt := inc_lt r.head_lt }

/-- The datum of a tail-indexed load: the byte at `tail` (20_memory.md R56). -/
def RingBuf.front (r : RingBuf) : Byte := Memory.read r.buf r.tail

/-- The post-advance of a tail-indexed load: `tail <- inc_N(tail)`; the slot keeps its byte (10_state.md R22). -/
def RingBuf.advance (r : RingBuf) : RingBuf :=
  { r with
    tail := inc r.cap r.tail
    tail_lt := inc_lt r.tail_lt }

/-- A store at a saved index, of a micro-step; `none` if there is no such slot (93_implementation_defined.md U7). -/
def RingBuf.writeAt (r : RingBuf) (i : Nat) (b : Byte) : Option RingBuf :=
  if i < r.cap then some { r with buf := Memory.write r.buf i b } else none

/-- `head <- inc_N(h)` for a saved `h`, of a micro-step; `none` if there is no such slot. -/
def RingBuf.headPast (r : RingBuf) (h : Nat) : Option RingBuf :=
  if hh : h < r.cap then some { r with head := inc r.cap h, head_lt := inc_lt hh } else none

/-- `tail <- inc_N(t)` for a saved `t`, of a micro-step; `none` if there is no such slot. -/
def RingBuf.tailPast (r : RingBuf) (t : Nat) : Option RingBuf :=
  if ht : t < r.cap then some { r with tail := inc r.cap t, tail_lt := inc_lt ht } else none

end Sys2Proof.Machine
end

