-- ==== Sys2Proof/Machine/Ops.lean ====
section
/-! DEFINITION. The operations the meanings share: outputs, the guards of operations, `RESET`, and the
words and ports that carry an output.

There is no exception to take and none to return from: "`raise` ... never used" (00_scope.md R15, 60_exceptions.md R180),
interrupt entry "is nothing but the strobe ... saves no state, changes no mode" (R191) and "There is no return
operation" (R192). -/

namespace Sys2Proof.Machine

/-- `{ resp = none, txw = none }`. -/
def Output.quiet : Output := ⟨.none, none⟩

/-- An answer to the foreground, `return x` (00_scope.md R15). -/
def Output.answer (r : Resp) : Output := ⟨r, none⟩

/-- `HwWrite(b)` (00_scope.md R15). -/
def Output.write (b : Byte) : Output := ⟨.none, some b⟩

/-- The step's one event had output `o`. -/
def State.emit (s : State) (o : Output) : State := { s with outs := [o] }

/-- A foreground operation is between its micro-steps (70_reset_and_hazards.md R232). Never with `ATOMIC_FG = true`. -/
def State.midOperation (s : State) : Bool := !s.cfg.atomicFg && (s.fg != .idle)

/-- A `TAKE` or `SEND` raised now is performed whole: with `ATOMIC_FG = true` always; with `ATOMIC_FG = false` while the
foreground is between micro-steps. The foreground raises none there ("it does not start another operation",
70_reset_and_hazards.md R232), so that one comes from inside an interrupt handler, which runs "to completion"
(60_exceptions.md R190), and "still does what its rule says" (R193). DEDUCED (log entry 9). -/
def State.runsWhole (s : State) : Bool := s.cfg.atomicFg || s.midOperation

/-- The countdown's operations exist only with `HAS_TICK` (30_encoding.md R79). -/
def State.asCountdown (s : State) (k : State → Result State) : Result State :=
  if s.cfg.hasTick then k s else .refused .countdownAbsent

/-- `RESET` (70_reset_and_hazards.md R210): the block as 10_state.md R39 has it, whatever it was. The foreground's
operation in progress is given up (log entry 11), so that the reference host has none issued; the parameters, the host's
place and status and the schedule are not the block's and stay. -/
def execReset (s : State) : Result State :=
  .next ({ s with
    rx := RingBuf.empty s.rx.cap s.rx.two_le_cap
    tx := RingBuf.empty s.tx.cap s.tx.two_le_cap
    txBusy := false
    countdown := 0
    rxDropCnt := 0
    txDropCnt := 0
    fg := .idle
    host := { s.host with issued := false } }.emit .quiet)

/-- `{ v, d[7:0] }` (30_encoding.md R78). -/
def answerWord (v : Bool) (d : Byte) : AnswerWord := BitVec.ofBool v ++ d

/-- `resp word` of 30_encoding.md R78. -/
def Resp.word : Resp → AnswerWord
  | .byte b => answerWord true b
  | .empty => answerWord false 0
  | .flag f => answerWord f 0
  | .none => answerWord false 0

/-- `txw word` of 30_encoding.md R78. -/
def txwWord : Option Byte → AnswerWord
  | some b => answerWord true b
  | none => answerWord false 0

/-- The output ports of 30_encoding.md R72; a drop counter is `none` where the port does not exist. -/
structure PortOut where
  takeValid : Bool
  takeData : Byte
  elapsedFlag : Bool
  txregWr : Bool
  txregData : Byte
  rxDropCnt : Option Half
  txDropCnt : Option Half
  deriving DecidableEq, Repr

/-- The byte a `TAKE` of the step returned. -/
def takenOf (os : List Output) : Option Byte :=
  os.findSome? fun o => match o.resp with
    | .byte b => some b
    | _ => none

/-- The byte some event of the step handed to the output register. -/
def writtenOf (os : List Output) : Option Byte := os.findSome? (·.txw)

/-- The output ports after a step (30_encoding.md R74); 0x00 is the filler of D14 and D15. -/
def State.ports (s : State) : PortOut where
  takeValid := (takenOf s.outs).isSome
  takeData := (takenOf s.outs).getD 0
  elapsedFlag := s.outs.any (·.resp == .flag true)
  txregWr := (writtenOf s.outs).isSome
  txregData := (writtenOf s.outs).getD 0
  rxDropCnt := if s.cfg.ovfRx = .dropNewest then some s.rxDropCnt else none
  txDropCnt := if s.cfg.ovfTx = .dropNewest then some s.txDropCnt else none

/-- The block as built with given parameters; refused where a slot count is not accepted (00_scope.md R10). -/
def State.build (nRx nTx : Nat) (c : Config) : Option State :=
  if h : 2 ≤ nRx ∧ 2 ≤ nTx then some (State.init nRx nTx h.1 h.2 c) else none

end Sys2Proof.Machine
end

