-- ==== Sys2Proof/Machine/Countdown.lean ====
section
/-! DEFINITION. The companion countdown: `TICK`, `ELAPSED`, `LOADCD` (42_tick_countdown.md). -/

namespace Sys2Proof.Machine

/-- `TICK` (42_tick_countdown.md R140). -/
def execTick (s : State) : Result State :=
  s.asCountdown fun s => .next ({ s with countdown := satDec s.countdown }.emit .quiet)

/-- `ELAPSED`, a pure read (42_tick_countdown.md R143, R144). -/
def execElapsed (s : State) : Result State :=
  s.asCountdown fun s => .next (s.emit (.answer (.flag (s.countdown == 0))))

/-- `LOADCD v` (42_tick_countdown.md R146). -/
def execLoadcd (v : Half) (s : State) : Result State :=
  s.asCountdown fun s => .next ({ s with countdown := v }.emit .quiet)

end Sys2Proof.Machine
end

