-- ==== Sys2Proof/Machine/Idle.lean ====
section
/-! DEFINITION. `IDLE`, the event of a step in which no input is high (43_idle.md). -/

namespace Sys2Proof.Machine

/-- `IDLE` (43_idle.md R160): "no register and no slot changes". -/
def execIdle (s : State) : Result State := .next (s.emit .quiet)

end Sys2Proof.Machine
end

