-- ==== Sys2Proof/Machine/Receive.lean ====
section
/-! DEFINITION. The receive path: `RXI` and `TAKE` (40_receive_path.md), and the micro-steps of a split `TAKE`
(70_reset_and_hazards.md R233). -/

namespace Sys2Proof.Machine

/-- `RXI b` (40_receive_path.md R100): under `WRAP` always store and advance; under `DROP_NEWEST` a full ring counts the
byte instead. -/
def execRxi (b : Byte) (s : State) : Result State :=
  if s.cfg.ovfRx = .dropNewest ∧ s.rx.isFull then
    .next ({ s with rxDropCnt := satInc s.rxDropCnt }.emit .quiet)
  else
    .next ({ s with rx := s.rx.store b }.emit .quiet)

/-- The atomic `TAKE` of 40_receive_path.md R104. -/
def takeAtomic (s : State) : Result State :=
  if s.rx.isEmpty then
    .next (s.emit (.answer .empty))
  else
    .next ({ s with rx := s.rx.advance }.emit (.answer (.byte s.rx.front)))

/-- `TAKE.a` (70_reset_and_hazards.md R233). -/
def takeA (s : State) : Result State :=
  if s.rx.isEmpty then
    .next (s.emit (.answer .empty))
  else
    .next ({ s with fg := .takeB s.rx.head s.rx.tail }.emit .quiet)

/-- `TAKE.b` (70_reset_and_hazards.md R233). -/
def takeB (h t : Nat) (s : State) : Result State :=
  match s.rx.slot t with
  | some d => .next ({ s with fg := .takeC h t d }.emit .quiet)
  | none => .refused .indexOutOfRange

/-- `TAKE.c` (70_reset_and_hazards.md R233). -/
def takeC (t : Nat) (d : Byte) (s : State) : Result State :=
  match s.rx.tailPast t with
  | some r => .next ({ s with rx := r, fg := .idle }.emit (.answer (.byte d)))
  | none => .refused .indexOutOfRange

/-- `TAKE` (40_receive_path.md R104): whole, or its first micro-step where the foreground starts a split one. -/
def execTake (s : State) : Result State :=
  if s.runsWhole then takeAtomic s else takeA s

end Sys2Proof.Machine
end

