-- ==== Sys2Proof/Machine/Transmit.lean ====
section
/-! DEFINITION. The transmit path: `SEND` and `TXC` (41_transmit_path.md), and the micro-steps of a split `SEND`
(70_reset_and_hazards.md R234). -/

namespace Sys2Proof.Machine

/-- The path of `SEND`: fast, dropped or buffered (41_transmit_path.md R120, 70_reset_and_hazards.md R234). -/
def State.sendPath (s : State) : SendPath :=
  if s.tx.isEmpty && !s.txBusy then .fast
  else if s.cfg.ovfTx = .dropNewest ∧ s.tx.isFull then .drop
  else .buffered

/-- The fast path (41_transmit_path.md R121), `SEND.f`. -/
def sendFast (b : Byte) (s : State) : State :=
  { s with txBusy := true, fg := .idle }.emit (.write b)

/-- The rejected byte (41_transmit_path.md R123), `SEND.d`. -/
def sendDrop (s : State) : State :=
  { s with txDropCnt := satInc s.txDropCnt, fg := .idle }.emit .quiet

/-- The atomic `SEND` of 41_transmit_path.md R120. -/
def sendAtomic (b : Byte) (s : State) : Result State :=
  match s.sendPath with
  | .fast => .next ({ s with txBusy := true }.emit (.write b))
  | .drop => .next ({ s with txDropCnt := satInc s.txDropCnt }.emit .quiet)
  | .buffered => .next ({ s with tx := s.tx.store b }.emit .quiet)

/-- `SEND.a` (70_reset_and_hazards.md R234). -/
def sendA (b : Byte) (s : State) : Result State :=
  .next ({ s with fg := .sendPath b s.tx.head s.tx.tail s.txBusy s.sendPath }.emit .quiet)

/-- `SEND.b` (70_reset_and_hazards.md R234). -/
def sendB (b : Byte) (h t : Nat) (q : Bool) (s : State) : Result State :=
  match s.tx.writeAt h b with
  | some r => .next ({ s with tx := r, fg := .sendC b h t q }.emit .quiet)
  | none => .refused .indexOutOfRange

/-- `SEND.c` (70_reset_and_hazards.md R234). -/
def sendC (h : Nat) (s : State) : Result State :=
  match s.tx.headPast h with
  | some r => .next ({ s with tx := r, fg := .idle }.emit .quiet)
  | none => .refused .indexOutOfRange

/-- `SEND b` (41_transmit_path.md R120): whole, or its first micro-step where the foreground starts a split one. -/
def execSend (b : Byte) (s : State) : Result State :=
  if s.runsWhole then sendAtomic b s else sendA b s

/-- `TXC` (41_transmit_path.md R124, R125): hand over the byte at the tail and stay busy, or go idle. -/
def execTxc (s : State) : Result State :=
  if s.tx.isEmpty then
    .next ({ s with txBusy := false }.emit .quiet)
  else
    .next ({ s with tx := s.tx.advance, txBusy := true }.emit (.write s.tx.front))

end Sys2Proof.Machine
end

