-- ==== Sys2Proof/Machine/Dispatch.lean ====
section
/-! DEFINITION. The meaning of each operation of the opcode map (30_encoding.md R77). -/

namespace Sys2Proof.Machine

def exec (i : Instr) (s : State) : Host.Outcome State Fault Refusal :=
  match i with
  | .idle => Sys2Proof.Machine.execIdle s
  | .rxi b => Sys2Proof.Machine.execRxi b s
  | .take => Sys2Proof.Machine.execTake s
  | .send b => Sys2Proof.Machine.execSend b s
  | .txc => Sys2Proof.Machine.execTxc s
  | .tick => Sys2Proof.Machine.execTick s
  | .elapsed => Sys2Proof.Machine.execElapsed s
  | .loadcd v => Sys2Proof.Machine.execLoadcd v s

end Sys2Proof.Machine
end

