-- ==== Sys2Proof/Machine/Split.lean ====
section
/-! DEFINITION. The foreground between its micro-steps (70_reset_and_hazards.md R232 to R236), and a whole operation
run without interruption. -/

namespace Sys2Proof.Machine

/-- The foreground's next micro-step: of a split `TAKE` (70_reset_and_hazards.md R233) or of a split `SEND` (R234). -/
def microOf (s : State) : Result State :=
  match s.fg with
  | .idle => execIdle s
  | .takeB h t => takeB h t s
  | .takeC _ t d => takeC t d s
  | .sendPath b h t q path =>
    match path with
    | .fast => .next (sendFast b s)
    | .drop => .next (sendDrop s)
    | .buffered => sendB b h t q s
  | .sendC _ h _ _ => sendC h s

/-- Micro-steps until the operation in progress is done; an operation has at most two after its first. -/
def finish : Nat → State → Result State
  | 0, s => .next s
  | k + 1, s =>
    if s.midOperation then
      match microOf s with
      | .next t => finish k t
      | .fault r => .fault r
      | .refused r => .refused r
    else .next s

/-- An operation from start to end with nothing in between: of one that the foreground starts here, every micro-step. -/
def execWhole (i : Instr) (s : State) : Result State :=
  match exec i s with
  | .next t => if s.midOperation then .next t else finish 2 t
  | .fault r => .fault r
  | .refused r => .refused r

end Sys2Proof.Machine
end

