-- ==== Sys2Proof/Machine/HostLoop.lean ====
section
/-! DEFINITION. The reference host program (44_host_loop.md) and the pseudo-instructions of 30_encoding.md R84. It is
software beside the block: it acts only where the schedule says so, and only through `exec`. -/

namespace Sys2Proof.Machine

/-- The phase of 44_host_loop.md R166 that a place in the loop belongs to. -/
def HostPos.phase : HostPos → Phase
  | .take => .drainRx
  | .echo _ => .drainRx
  | .elapsed => .checkTimeout
  | .reload => .checkTimeout
  | .mark => .checkTimeout
  | .lineEnd => .checkTimeout

/-- `phase` of 44_host_loop.md R166: it changes when the phase's last event is done, not when it is issued. -/
def HostLoop.phase (h : HostLoop) : Phase := h.pos.phase

/-- The heartbeat's marker byte (44_host_loop.md R168). -/
def heartbeatMark : Byte := 0x2D

/-- The heartbeat's line terminator (44_host_loop.md R168). -/
def heartbeatEnd : Byte := 0x0A

/-- The foreground event the host issues at a place of its loop (44_host_loop.md R167, R168). A host whose split operation
was given up by a `RESET` issues it again (log entry 17). -/
def HostPos.event (c : Config) : HostPos → Instr
  | .take => .take
  | .echo b => .send b
  | .elapsed => .elapsed
  | .reload => .loadcd c.period
  | .mark => .send heartbeatMark
  | .lineEnd => .send heartbeatEnd

/-- Where `ECHO` goes once `TAKE` is done: to `SEND b`, or to `CHECK_TIMEOUT` on `empty` (44_host_loop.md R167). `TAKE`
answers nothing else. -/
def HostPos.afterTake : Resp → HostPos
  | .byte b => .echo b
  | .empty => .elapsed
  | .flag _ => .take
  | .none => .take

/-- The host's next place, once the event it issued is done, from the answer to it (44_host_loop.md R166 to R168). -/
def HostPos.after (c : Config) (r : Resp) : HostPos → HostPos
  | .take => .afterTake r
  | .echo _ => if c.drain = .onePerPass then .elapsed else .take
  | .elapsed => if r = .flag true then .reload else .take
  | .reload => .mark
  | .mark => .lineEnd
  | .lineEnd => .take

/-- The host after an event it issued is done: its status bit is toggled right after the reload (44_host_loop.md R168). -/
def HostLoop.after (c : Config) (r : Resp) (h : HostLoop) : HostLoop :=
  ⟨h.pos.after c r, if h.pos = .reload then !h.status else h.status, false⟩

/-- The answer of the step's event. -/
def State.lastResp (s : State) : Resp :=
  match s.outs with
  | [] => .none
  | o :: _ => o.resp

/-- The host has issued the event of its place. -/
def State.hostIssues (s : State) : State := { s with host := { s.host with issued := true } }

/-- The host, with an event issued, goes on to its next place when the event's last micro-step is done, whose output
carries the answer; until then it stays, and its phase with it (44_host_loop.md R166, 70_reset_and_hazards.md R232). -/
def State.hostHears (s : State) : State :=
  if s.host.issued && !s.midOperation then { s with host := s.host.after s.cfg s.lastResp } else s

/-- The schedule's `micro`: the next micro-step if an operation is in progress, else nothing (log entry 23). -/
def execMicro (s : State) : Result State :=
  if s.midOperation then
    match microOf s with
    | .next t => .next t.hostHears
    | .fault r => .fault r
    | .refused r => .refused r
  else execIdle s

/-- The host goes on: it "does not start another operation until the last micro-step of the current one is done"
(70_reset_and_hazards.md R232), so it takes the micro-step in progress, and with none issues its next foreground event
(44_host_loop.md R166). -/
def execHost (s : State) : Result State :=
  if s.midOperation then execMicro s
  else
    match exec (s.host.pos.event s.cfg) s with
    | .next t => .next t.hostIssues.hostHears
    | .fault r => .fault r
    | .refused r => .refused r

/-- The host's next `k` steps with nothing in between, and which events it issued; a micro-step issues none. -/
def hostEvents : Nat → State → Option (State × List Instr)
  | 0, s => some (s, [])
  | k + 1, s =>
    match execHost s with
    | .next t => (hostEvents k t).map fun r =>
      (r.1, if s.midOperation then r.2 else s.host.pos.event s.cfg :: r.2)
    | .fault _ => none
    | .refused _ => none

/-- An operation, whole, and then the rest of a pseudo-instruction. What a pseudo-instruction reports is the outputs of all
its events, oldest first, one for each event. DESIGN CHOICE (log entry 25). -/
def thenWhole (i : Instr) (k : Output → State → Result State) (s : State) : Result State :=
  match execWhole i s with
  | .next t => k (t.outs.headD .quiet) t
  | .fault r => .fault r
  | .refused r => .refused r

/-- `HEARTBEAT` (30_encoding.md R84). -/
def execHeartbeat (s : State) : Result State :=
  thenWhole (.send heartbeatMark) (fun o => thenWhole (.send heartbeatEnd) fun o' s => .next { s with outs := [o, o'] }) s

/-- `RELOAD` (30_encoding.md R84). -/
def execReload (s : State) : Result State := execWhole (.loadcd s.cfg.period) s

/-- `ECHO` (30_encoding.md R84, 44_host_loop.md R167). -/
def execEcho (s : State) : Result State :=
  thenWhole .take (fun o s =>
    match o.resp with
    | .byte b => thenWhole (.send b) (fun o' s => .next { s with outs := [o, o'] }) s
    | _ => .next { s with outs := [o] }) s

/-- `BEAT` (30_encoding.md R84, 44_host_loop.md R168): reload first, then toggle, then the heartbeat. -/
def execBeat (s : State) : Result State :=
  thenWhole .elapsed (fun o s =>
    if o.resp = .flag true then
      match execReload s with
      | .next s =>
        match execHeartbeat { s with host := { s.host with status := !s.host.status } } with
        | .next t => .next { t with outs := o :: .quiet :: t.outs }
        | .fault r => .fault r
        | .refused r => .refused r
      | .fault r => .fault r
      | .refused r => .refused r
    else .next { s with outs := [o] }) s

/-- `PASS` (30_encoding.md R84): `ECHO`, then `BEAT`. -/
def execPass (s : State) : Result State :=
  match execEcho s with
  | .next s =>
    match execBeat s with
    | .next t => .next { t with outs := s.outs ++ t.outs }
    | .fault r => .fault r
    | .refused r => .refused r
  | .fault r => .fault r
  | .refused r => .refused r

/-- `ECHO_ALL` of `DRAIN_FULLY` (44_host_loop.md R167), with the outputs of all its events. It "terminates only if bytes
stop arriving", so it is given a bound: after `k` echoes without an `empty` it ends there, as a next state with the
outputs so far. DESIGN CHOICE (log entry 25). -/
def execEchoAll : Nat → State → Result State
  | 0, s => .next { s with outs := [] }
  | k + 1, s =>
    match execEcho s with
    | .next t =>
      if t.lastResp = .empty then .next t
      else
        match execEchoAll k t with
        | .next u => .next { u with outs := t.outs ++ u.outs }
        | .fault r => .fault r
        | .refused r => .refused r
    | .fault r => .fault r
    | .refused r => .refused r

/-- The pseudo-instructions of 30_encoding.md R84. -/
inductive Pseudo where
  | echo
  | heartbeat
  | reload
  | beat
  | pass
  deriving DecidableEq, Repr

/-- The expansion of a pseudo-instruction (30_encoding.md R84), with nothing in between its events. -/
def execPseudo : Pseudo → State → Result State
  | .echo, s => execEcho s
  | .heartbeat, s => execHeartbeat s
  | .reload, s => execReload s
  | .beat, s => execBeat s
  | .pass, s => execPass s

end Sys2Proof.Machine
end

