-- ==== Sys2Proof/Machine/Ports.lean ====
section
/-! DEFINITION. One step of the port view (30_encoding.md R71 to R74, 60_exceptions.md R189). -/

namespace Sys2Proof.Machine

/-- One input's event, where the input is high. -/
def raisedBy (high : Bool) (i : Instr) : List Instr := if high then [i] else []

/-- The events of a step with `rst = 0`, in the fixed order of 60_exceptions.md R189; the countdown's inputs exist only
with `HAS_TICK` (30_encoding.md R72; log entry 15). -/
def PortIn.raised (hasTick : Bool) (p : PortIn) : List Instr :=
  raisedBy p.rxIrq (.rxi p.rxData) ++ raisedBy p.txcIrq .txc ++ raisedBy (p.tickIrq && hasTick) .tick ++
    raisedBy p.takeReq .take ++ raisedBy p.sendReq (.send p.sendData) ++
    raisedBy (p.elapsedReq && hasTick) .elapsed ++ raisedBy (p.loadReq && hasTick) (.loadcd p.loadValue)

/-- "a step with no input high is the event `IDLE`" (30_encoding.md R73). -/
def PortIn.events (hasTick : Bool) (p : PortIn) : List Instr :=
  if p.raised hasTick = [] then [.idle] else p.raised hasTick

/-- The events of one step one after another, "each seeing the state left by the one before" (60_exceptions.md R189),
each operation complete within the step (92_eei_decisions.md D4; log entry 14), none held back (R184); `done` are the outputs so far. -/
def runInStep : List Instr → List Output → State → Result State
  | [], done, s => .next { s with outs := done }
  | i :: is, done, s =>
    match execWhole i s with
    | .next t => runInStep is (done ++ t.outs) t
    | .fault r => .fault r
    | .refused r => .refused r

/-- One step of the port view (30_encoding.md R73): `rst` wins (70_reset_and_hazards.md R212). -/
def portStep (p : PortIn) (s : State) : Result State :=
  if p.rst then execReset s else runInStep (p.events s.cfg.hasTick) [] s

end Sys2Proof.Machine
end

