-- ==== Sys2Proof/Machine/Fetch.lean ====
section
/-! DEFINITION. The next step of a run: the first entry of the schedule (10_state.md R40, 30_encoding.md R70, R73). The
block has no program counter and fetches nothing (10_state.md R21); the schedule is the environment's. -/

namespace Sys2Proof.Machine

/-- What an entry of the schedule does. Every event is accepted from every agent (60_exceptions.md R193; log entry 13) and
every strobe is acted on in its step (R184). -/
def perform (x : Input) (s : State) : Result State :=
  match x with
  | .word w =>
    match decode s.cfg.hasTick w with
    | .ok i => exec i s
    | .error e => .refused (.invalidWord e)
  | .rst => execReset s
  | .ports p => portStep p s
  | .micro => execMicro s
  | .hostLoop => execHost s

/-- One step: the first entry of the schedule; with no entry left, the foreground's next micro-step or `IDLE`
(log entries 4 and 10). -/
def nextStep (s : State) : Result State :=
  match s.inputs with
  | [] => execMicro s
  | x :: rest => perform x { s with inputs := rest }

/-- The event word of the low 20 bits of `w` (log entry 16). -/
def scheduleWord (w : Nat) (inputs : List Input) : List Input :=
  .word (BitVec.ofNat 20 w) :: inputs

end Sys2Proof.Machine
end

