-- ==== Sys2Proof/Machine/Step.lean ====
section
/-! DEFINITION. The step of the machine, and how a program comes to run: an event word put first in the schedule
(log entry 4). -/

namespace Sys2Proof.Machine

/-- One step (30_encoding.md R70, 00_scope.md R12). -/
def step (s : State) : Host.Outcome State Fault Refusal := nextStep s

/-- `s` with the event word `w` next in the schedule, so that the very next step runs it. -/
def State.withFetchWord (s : State) (nbits w : Nat) : State :=
  { s with inputs := scheduleWord (w % 2 ^ nbits) s.inputs }

end Sys2Proof.Machine
end

