-- ==== Sys2Proof/Machine/Run.lean ====
section
/-! DEFINITION. Runs at the event level: "A run of the block is a sequence of events chosen by the environment"
(00_scope.md R12), and what an observer outside the block sees of one (R13). -/

namespace Sys2Proof.Machine

/-- `step : State x Event -> State x Output` of 00_scope.md R12; the output is the next state's `outs`. -/
def execEvent (e : Event) (s : State) : Result State :=
  match e with
  | .op i => exec i s
  | .reset => execReset s

/-- A run and its outputs, one for each event, in order; `none` if an event stops it. -/
def runEvents : List Event → State → Option (State × List Output)
  | [], s => some (s, [])
  | e :: es, s =>
    match execEvent e s with
    | .next t => (runEvents es t).map fun r => (r.1, t.outs ++ r.2)
    | .fault _ => none
    | .refused _ => none

/-- The bytes the foreground got from `TAKE`, in order. -/
def takenBytes (os : List Output) : List Byte :=
  os.filterMap fun o => match o.resp with
    | .byte b => some b
    | .none => none
    | .empty => none
    | .flag _ => none

/-- The bytes handed to the serial output register, in order: the run's `HwWrite`s. -/
def writtenBytes (os : List Output) : List Byte := os.filterMap (·.txw)

/-- What the `TAKE`s answered, in order; `none` is `empty`. -/
def takeAnswers (os : List Output) : List (Option Byte) :=
  os.filterMap fun o => match o.resp with
    | .byte b => some (some b)
    | .empty => some none
    | .none => none
    | .flag _ => none

/-- What the `ELAPSED`s answered, in order. -/
def elapsedAnswers (os : List Output) : List Bool :=
  os.filterMap fun o => match o.resp with
    | .flag f => some f
    | .none => none
    | .empty => none
    | .byte _ => none

/-- "What an observer outside the block can see is exactly" this (00_scope.md R13). -/
structure Observation where
  writes : List Byte
  takes : List (Option Byte)
  elapsed : List Bool
  rxDrops : Option Half
  txDrops : Option Half
  deriving DecidableEq, Repr

/-- The observation of a run that ends in `s` with the outputs `os`. -/
def observed (s : State) (os : List Output) : Observation where
  writes := writtenBytes os
  takes := takeAnswers os
  elapsed := elapsedAnswers os
  rxDrops := s.ports.rxDropCnt
  txDrops := s.ports.txDropCnt

/-- The bytes given to `RXI` in a run, in order. -/
def rxiBytes (es : List Event) : List Byte :=
  es.filterMap fun e => match e with
    | .op (.rxi b) => some b
    | _ => none

/-- The bytes given to `SEND` in a run, in order. -/
def sendBytes (es : List Event) : List Byte :=
  es.filterMap fun e => match e with
    | .op (.send b) => some b
    | _ => none

/-- The state after an event, for looking along a run; an event that stops leaves the state. -/
def afterEvent (e : Event) (s : State) : State :=
  match execEvent e s with
  | .next t => t
  | .fault _ => s
  | .refused _ => s

/-- The event stores a byte in the RX ring. -/
def storesRx (e : Event) (s : State) : Option Byte :=
  match e with
  | .op (.rxi b) => if s.cfg.ovfRx = .dropNewest ∧ s.rx.isFull then none else some b
  | _ => none

/-- The event puts a byte on the transmit path: to the output register or into the TX ring. -/
def acceptsTx (e : Event) (s : State) : Option Byte :=
  match e with
  | .op (.send b) => if s.sendPath = .drop then none else some b
  | _ => none

/-- The event stores a byte in the TX ring: a buffered `SEND`. -/
def storesTx (e : Event) (s : State) : Option Byte :=
  match e with
  | .op (.send b) => if s.sendPath = .buffered then some b else none
  | _ => none

/-- What `f` picks from each event of a run, in order. -/
def alongRun (f : Event → State → Option Byte) : List Event → State → List Byte
  | [], _ => []
  | e :: es, s => (f e s).toList ++ alongRun f es (afterEvent e s)

end Sys2Proof.Machine
end

