-- ==== Sys2Proof/Machine/Written.lean ====
section
/-! DEFINITION. The written form of runs, outputs and states (30_encoding.md R82, R83), on lists of characters. The
points those rules leave open are log entry 24. -/

namespace Sys2Proof.Machine

/-- A hexadecimal digit. -/
def hexChar (d : BitVec 4) : Char :=
  if d.toNat < 10 then Char.ofNat (48 + d.toNat) else Char.ofNat (55 + d.toNat)

/-- The digit a character stands for, in either case. -/
def hexValue (c : Char) : Option Nat :=
  let n := c.toNat
  if 48 ≤ n ∧ n ≤ 57 then some (n - 48)
  else if 65 ≤ n ∧ n ≤ 70 then some (n - 55)
  else if 97 ≤ n ∧ n ≤ 102 then some (n - 87)
  else none

/-- The number of a row of digits in a base, `none` if one is no digit of it. -/
def digits (base : Nat) : Nat → List Char → Option Nat
  | acc, [] => some acc
  | acc, c :: cs =>
    match hexValue c with
    | some d => if d < base then digits base (acc * base + d) cs else none
    | none => none

/-- "`0x` and two hexadecimal digits". -/
def writeByte (b : Byte) : List Char :=
  ['0', 'x', hexChar (b.extractLsb' 4 4), hexChar (b.extractLsb' 0 4)]

/-- "`0x` and up to four hexadecimal digits": four. -/
def writeHalf (v : Half) : List Char :=
  ['0', 'x', hexChar (v.extractLsb' 12 4), hexChar (v.extractLsb' 8 4), hexChar (v.extractLsb' 4 4),
    hexChar (v.extractLsb' 0 4)]

/-- One event on a line (30_encoding.md R82): the mnemonic, then its operand if it has one. -/
def writeEvent : Event → List Char
  | .reset => "RESET".toList
  | .op .idle => "IDLE".toList
  | .op (.rxi b) => "RXI ".toList ++ writeByte b
  | .op .take => "TAKE".toList
  | .op (.send b) => "SEND ".toList ++ writeByte b
  | .op .txc => "TXC".toList
  | .op .tick => "TICK".toList
  | .op .elapsed => "ELAPSED".toList
  | .op (.loadcd v) => "LOADCD ".toList ++ writeHalf v

/-- The pieces of a line. -/
inductive Token where
  /-- A row of characters up to a space. -/
  | text (cs : List Char)
  /-- "one ASCII character in single quotes". -/
  | quoted (c : Char)
  /-- `->` -/
  | arrow
  deriving DecidableEq, Repr

/-- The piece read so far, if it is not empty, before the ones after it. -/
def endToken (acc : List Char) (ts : List Token) : List Token :=
  if acc = [] then ts else .text acc.reverse :: ts

/-- A line cut into its pieces: spaces separate, "A `#` starts a comment to the end of the line". -/
def tokens : List Char → List Char → List Token
  | acc, [] => endToken acc []
  | acc, '\'' :: c :: '\'' :: cs => endToken acc (.quoted c :: tokens [] cs)
  | acc, '-' :: '>' :: cs => endToken acc (.arrow :: tokens [] cs)
  | acc, c :: cs =>
    if c = '#' then endToken acc []
    else if c = ' ' then endToken acc (tokens [] cs)
    else tokens (c :: acc) cs

/-- A byte operand: `0x` and two hexadecimal digits, or a quoted ASCII character (30_encoding.md R82). -/
def readByte : Token → Option Byte
  | .quoted c => if c.toNat < 128 then some (BitVec.ofNat 8 c.toNat) else none
  | .text ['0', 'x', a, b] => (digits 16 0 [a, b]).map (BitVec.ofNat 8)
  | .text _ => none
  | .arrow => none

/-- A number that fits 16 bits. -/
def asHalf (n : Nat) : Option Half := if n < 2 ^ 16 then some (BitVec.ofNat 16 n) else none

/-- A `LOADCD` operand: decimal, or `0x` and up to four hexadecimal digits (30_encoding.md R82). -/
def readHalf : Token → Option Half
  | .text ('0' :: 'x' :: c :: cs) => if cs.length < 4 then (digits 16 0 (c :: cs)).bind asHalf else none
  | .text (c :: cs) => (digits 10 0 (c :: cs)).bind asHalf
  | .text [] => none
  | .quoted _ => none
  | .arrow => none

/-- The mnemonics without an operand. -/
def plainEvents : List (List Char × Event) :=
  [("RESET".toList, .reset), ("IDLE".toList, .op .idle), ("TAKE".toList, .op .take), ("TXC".toList, .op .txc),
   ("TICK".toList, .op .tick), ("ELAPSED".toList, .op .elapsed)]

/-- The event of the pieces before the arrow. -/
def readEvent : List Token → Option Event
  | [.text m] => plainEvents.lookup m
  | [.text m, operand] =>
    if m = "RXI".toList then (readByte operand).map fun b => .op (.rxi b)
    else if m = "SEND".toList then (readByte operand).map fun b => .op (.send b)
    else if m = "LOADCD".toList then (readHalf operand).map fun v => .op (.loadcd v)
    else none
  | _ => none

/-- One expected output in the notation of 30_encoding.md R83. -/
def writeResp : Resp → List Char
  | .none => []
  | .byte b => "byte(".toList ++ writeByte b ++ [')']
  | .empty => "empty".toList
  | .flag f => if f then "flag(true)".toList else "flag(false)".toList

/-- `write(0x41)`; "nothing written means ... `txw = none`". -/
def writeTxw : Option Byte → List Char
  | none => []
  | some b => "write(".toList ++ writeByte b ++ [')']

/-- The outputs of one event (30_encoding.md R83); an event has at most one of the two. -/
def writeOutput (o : Output) : List Char := writeResp o.resp ++ writeTxw o.txw

/-- The output after the arrow (30_encoding.md R83). -/
def readOutput : List Char → Option Output
  | ['b', 'y', 't', 'e', '(', '0', 'x', a, b, ')'] =>
    (digits 16 0 [a, b]).map fun n => .answer (.byte (BitVec.ofNat 8 n))
  | ['w', 'r', 'i', 't', 'e', '(', '0', 'x', a, b, ')'] => (digits 16 0 [a, b]).map fun n => .write (BitVec.ofNat 8 n)
  | cs =>
    if cs = "empty".toList then some (.answer .empty)
    else if cs = "flag(true)".toList then some (.answer (.flag true))
    else if cs = "flag(false)".toList then some (.answer (.flag false))
    else none

/-- A line of a written run. -/
inductive Line where
  /-- Nothing but spaces and a comment. -/
  | blank
  /-- An event and, after an arrow, the expected output. -/
  | event (e : Event) (expected : Option Output)
  /-- A pseudo-instruction (30_encoding.md R84). -/
  | pseudo (p : Pseudo)
  deriving DecidableEq, Repr

/-- The pieces before and after the arrow. -/
def splitArrow : List Token → List Token × Option (List Token)
  | [] => ([], none)
  | .arrow :: ts => ([], some ts)
  | .text cs :: ts => (.text cs :: (splitArrow ts).1, (splitArrow ts).2)
  | .quoted c :: ts => (.quoted c :: (splitArrow ts).1, (splitArrow ts).2)

/-- The names of the pseudo-instructions (30_encoding.md R84). -/
def pseudoNames : List (List Char × Pseudo) :=
  [("ECHO".toList, .echo), ("HEARTBEAT".toList, .heartbeat), ("RELOAD".toList, .reload), ("BEAT".toList, .beat),
   ("PASS".toList, .pass)]

/-- The line of the pieces of one that has no arrow. -/
def readPlain : List Token → Option Line
  | [.text m] =>
    match pseudoNames.lookup m with
    | some p => some (.pseudo p)
    | none => (plainEvents.lookup m).map fun e => .event e none
  | ts => (readEvent ts).map fun e => .event e none

/-- A line of a written run (30_encoding.md R82), `none` if it is not one. -/
def readLine (cs : List Char) : Option Line :=
  match splitArrow (tokens [] cs) with
  | ([], none) => some .blank
  | (ts, none) => readPlain ts
  | (ts, some [.text o]) =>
    match readEvent ts, readOutput o with
    | some e, some out => some (.event e (some out))
    | _, _ => none
  | (_, some _) => none

/-- A decimal number. -/
def writeNat (n : Nat) : List Char := Nat.toDigits 10 n

/-- The slots of a ring, slot 0 first, as two hexadecimal digits each (30_encoding.md R83). -/
def writeSlots (r : RingBuf) : List Char :=
  let hex (b : Byte) := [hexChar (b.extractLsb' 4 4), hexChar (b.extractLsb' 0 4)]
  ['['] ++ [' '].intercalate ((List.range r.cap).map fun i => hex (Memory.read r.buf i)) ++ [']']

/-- A state in the notation of 30_encoding.md R83. -/
def writeState (s : State) : List Char :=
  "rx(h=".toList ++ writeNat s.rx.head ++ ", t=".toList ++ writeNat s.rx.tail ++ ") tx(h=".toList ++
    writeNat s.tx.head ++ ", t=".toList ++ writeNat s.tx.tail ++ ", busy=".toList ++
    writeNat s.txBusy.toNat ++ ") cd=".toList ++ writeNat s.countdown.toNat ++ " rx_buf=".toList ++
    writeSlots s.rx ++ " tx_buf=".toList ++ writeSlots s.tx

end Sys2Proof.Machine
end

