-- ==== Sys2Proof/Safety.lean ====
section
/-! DEFINITION. The state invariant of 10_state.md R34, R35 and the runs on which the block's guarantees hold: no
overflow (70_reset_and_hazards.md R221), the transmitter's contract (60_exceptions.md R186), the context discipline
(R190, R193). -/

namespace Sys2Proof.Machine

/-- The temporaries of a split operation, whoever else raises operations meanwhile: both sampled indices are slot numbers
(70_reset_and_hazards.md R233, R234), and the path is the one the sample gives (R234). -/
def State.temporariesOk (s : State) : Bool :=
  match s.fg with
  | .idle => true
  | .takeB h t => decide (h < s.rx.cap) && decide (t < s.rx.cap)
  | .takeC h t _ => decide (h < s.rx.cap) && decide (t < s.rx.cap)
  | .sendPath _ h t q path =>
    decide (h < s.tx.cap) && decide (t < s.tx.cap) &&
      (path == if h = t ∧ q = false then .fast
        else if s.cfg.ovfTx = .dropNewest ∧ inc s.tx.cap h = t then .drop
        else .buffered)
  | .sendC _ h t _ => decide (h < s.tx.cap) && decide (t < s.tx.cap)

/-- The single-writer property: the sampled own index of a split operation "never goes stale"
(70_reset_and_hazards.md R236 (d)). It rests on the context discipline: "no longer promised" without
(60_exceptions.md R193). -/
def State.ownIndexFresh (s : State) : Bool :=
  match s.fg with
  | .idle => true
  | .takeB _ t => t == s.rx.tail
  | .takeC _ t _ => t == s.rx.tail
  | .sendPath _ h _ _ _ => h == s.tx.head
  | .sendC _ h _ _ => h == s.tx.head

/-- The entry raises an operation of the foreground's. The reference host obeys R232 itself. -/
def Input.raisesForeground (hasTick : Bool) : Input → Bool
  | .word w =>
    match decode hasTick w with
    | .ok i => i.context == .fg
    | .error _ => false
  | .rst => false
  | .ports p => !p.rst && (p.raised hasTick).any (·.context == .fg)
  | .micro => false
  | .hostLoop => false

/-- The next step keeps the context discipline (60_exceptions.md R190, 70_reset_and_hazards.md R232): no operation of the
foreground's is raised while one is in progress. -/
def State.keepsDiscipline (s : State) : Bool :=
  !(s.midOperation && s.inputs.head?.any (·.raisesForeground s.cfg.hasTick))

/-- The invariant that every step keeps: canonical stores, absent registers at 0 (log entry 6), no split operation with
`ATOMIC_FG = true`, the temporaries in order, no event of the reference host's issued unless in progress, and with `ATOMIC_FG = true` "Idle implies empty" (10_state.md R35). That
the indices are slot numbers (R34) is part of the type. -/
structure State.Inv (s : State) : Prop where
  rxStore : Memory.wf s.rx.cap s.rx.buf = true
  txStore : Memory.wf s.tx.cap s.tx.buf = true
  noCountdown : s.cfg.hasTick = false → s.countdown = 0
  noRxDrops : s.cfg.ovfRx = .wrap → s.rxDropCnt = 0
  noTxDrops : s.cfg.ovfTx = .wrap → s.txDropCnt = 0
  atomicIdle : s.cfg.atomicFg = true → s.fg = .idle
  temporaries : s.temporariesOk = true
  hostIssued : s.host.issued = true → s.midOperation = true
  idleEmpty : s.cfg.atomicFg = true → s.txBusy = false → s.tx.isEmpty = true

/-- The five agents of 00_scope.md R11. -/
inductive Agent where
  | fg
  | rxSrc
  | txSrc
  | tickSrc
  | rst
  deriving DecidableEq, Repr

/-- Which agent may raise which event (00_scope.md R11, 60_exceptions.md R190): an obligation on the environment that the
block does not check (R193; log entry 13). -/
def mayRaise (a : Agent) (e : Event) : Bool :=
  match e with
  | .op .idle => a == .fg
  | .op (.rxi _) => a == .rxSrc
  | .op .take => a == .fg
  | .op (.send _) => a == .fg
  | .op .txc => a == .txSrc
  | .op .tick => a == .tickSrc
  | .op .elapsed => a == .fg
  | .op (.loadcd _) => a == .fg
  | .reset => a == .rst

/-- The enqueue that 70_reset_and_hazards.md R221 forbids in the RX direction: `RXI` on a full ring under `WRAP`. -/
def overflowsRx (e : Event) (s : State) : Bool :=
  match e with
  | .op (.rxi _) => decide (s.cfg.ovfRx = .wrap) && s.rx.isFull
  | _ => false

/-- The enqueue that 70_reset_and_hazards.md R221 forbids in the TX direction: a buffered `SEND` on a full ring under
`WRAP`. -/
def overflowsTx (e : Event) (s : State) : Bool :=
  match e with
  | .op (.send _) => decide (s.cfg.ovfTx = .wrap) && s.tx.isFull && decide (s.sendPath = .buffered)
  | _ => false

/-- No event of the run is one that `bad` marks in the state it meets. -/
def runAvoids (bad : Event → State → Bool) : List Event → State → Bool
  | [], _ => true
  | e :: es, s => !bad e s && runAvoids bad es (afterEvent e s)

/-- The event writes the output register. -/
def writesOut (e : Event) (s : State) : Bool :=
  match execEvent e s with
  | .next t => (writtenOf t.outs).isSome
  | .fault _ => false
  | .refused _ => false

/-- Whether the external transmitter holds an unfinished byte after an event (60_exceptions.md R186): a `TXC` completes
its byte, a `HwWrite` gives it one. -/
def shiftingAfter (e : Event) (s : State) (shifting : Bool) : Bool :=
  writesOut e s || (shifting && e != .op .txc)

/-- The transmitter keeps its contract (60_exceptions.md R186): it raises a `TXC` only for a byte it was given and has
not completed; and the block is reset only with the transmitter idle (70_reset_and_hazards.md R216). -/
def keepsContract : List Event → State → Bool → Bool
  | [], _, _ => true
  | e :: es, s, shifting =>
    (shifting || (e != .op .txc)) && (!shifting || (e != .reset)) &&
      keepsContract es (afterEvent e s) (shiftingAfter e s shifting)

/-- The transmitter's state after a run. -/
def shiftingAtEnd : List Event → State → Bool → Bool
  | [], _, shifting => shifting
  | e :: es, s, shifting => shiftingAtEnd es (afterEvent e s) (shiftingAfter e s shifting)

/-- "the output register is never written while the transmitter still holds an unfinished byte"
(41_transmit_path.md R127). -/
def neverOverwrites : List Event → State → Bool → Bool
  | [], _, _ => true
  | e :: es, s, shifting =>
    !(writesOut e s && shifting && e != .op .txc) &&
      neverOverwrites es (afterEvent e s) (shiftingAfter e s shifting)

/-- The three parts of the state that no operation crosses (60_exceptions.md R188); `IDLE` touches none. -/
inductive Part where
  | none
  | rx
  | tx
  | countdown
  deriving DecidableEq, Repr

/-- The part an operation touches (60_exceptions.md R188). -/
def partOf : Instr → Part
  | .idle => .none
  | .rxi _ => .rx
  | .take => .rx
  | .send _ => .tx
  | .txc => .tx
  | .tick => .countdown
  | .elapsed => .countdown
  | .loadcd _ => .countdown

/-- How an operation is presented: its event word, its context (30_encoding.md R77), and that raising its port alone
raises it and nothing else (R72, R73). -/
def presentedAs (i : Instr) (w : EventWord) (c : Context) (p : PortIn) : Prop :=
  encode i = w ∧ i.context = c ∧ p.rst = false ∧ p.events true = [i]

/-- The number of `TICK`s of a run. -/
def ticksOf (es : List Event) : Nat := es.count (.op .tick)

/-- No event of the run writes the countdown but `TICK`: no `LOADCD`, no `RESET`. -/
def noReload (es : List Event) : Bool :=
  es.all fun e => match e with
    | .op (.loadcd _) => false
    | .op .idle => true
    | .op (.rxi _) => true
    | .op .take => true
    | .op (.send _) => true
    | .op .txc => true
    | .op .tick => true
    | .op .elapsed => true
    | .reset => false

end Sys2Proof.Machine
end

