-- ==== Sys2Proof/Certificates/Slice0/Obligations.lean ====
section
/-! DEFINITION. The statements for the provers. Each says in its docstring which rule of spec/ it formalises. An
equation `exec i s = .next { s with … }` says the frame as well: every field not named is unchanged. -/

open Sys2Proof Sys2Proof.Machine

/-! ### Encoding -/

/-- `decode` and `encode` undo each other, with every operand (30_encoding.md section 4: "`decode(encode(e)) = e` for every
event `e` other than `RESET`, and `encode(decode(w)) = w` for every valid `w`", which the spec marks as derived). -/
def Obligations.DecodeAndEncodeAgree : Prop :=
  (∀ (hasTick : Bool) (i : Instr), i.wellFormed hasTick = true → decode hasTick (encode i) = .ok i) ∧
  ∀ (hasTick : Bool) (w : EventWord) (i : Instr), decode hasTick w = .ok i → encode i = w ∧ i.wellFormed hasTick = true

/-- 30_encoding.md R80: the decoder's table and the encoder's table; R76: the operands as they stand. The reason an
`error` carries is the model's (R80 says `invalid`). -/
def Obligations.DecoderAndEncoderAreTheSpecs : Prop :=
  (∀ (hasTick : Bool) (w : EventWord),
    (decode hasTick w).toOption =
      (let op := w.toNat / 65536
       let a := w.toNat % 65536
       if op = 0 ∧ a = 0 then some .idle
       else if op = 1 ∧ a / 256 = 0 then some (.rxi (BitVec.ofNat 8 (a % 256)))
       else if op = 2 ∧ a = 0 then some .take
       else if op = 3 ∧ a / 256 = 0 then some (.send (BitVec.ofNat 8 (a % 256)))
       else if op = 4 ∧ a = 0 then some .txc
       else if op = 5 ∧ a = 0 ∧ hasTick = true then some .tick
       else if op = 6 ∧ a = 0 ∧ hasTick = true then some .elapsed
       else if op = 7 ∧ hasTick = true then some (.loadcd (BitVec.ofNat 16 a))
       else none)) ∧
  encode .idle = 0x00000 ∧ encode .take = 0x20000 ∧ encode .txc = 0x40000 ∧ encode .tick = 0x50000 ∧
  encode .elapsed = 0x60000 ∧
  (∀ b, encode (.rxi b) = 0x10000 ||| b.setWidth 20 ∧ encode (.send b) = 0x30000 ||| b.setWidth 20) ∧
  ∀ v, encode (.loadcd v) = 0x70000 ||| v.setWidth 20

/-- 30_encoding.md R79: exactly which words are invalid, with and without the countdown; and a step that meets one
performs no event and is refused. -/
def Obligations.InvalidWordsAreRefused : Prop :=
  (∀ (hasTick : Bool) (w : EventWord), (decode hasTick w).toOption = none ↔
    (8 ≤ w.toNat / 65536 ∨
      (w.toNat / 65536 ∈ [0, 2, 4, 5, 6] ∧ w.toNat % 65536 ≠ 0) ∨
      (w.toNat / 65536 ∈ [1, 3] ∧ w.toNat / 256 % 256 ≠ 0) ∨
      (hasTick = false ∧ w.toNat / 65536 ∈ [5, 6, 7]))) ∧
  ∀ (s : State) (w : EventWord) (rest : List Input), s.inputs = .word w :: rest →
    (decode s.cfg.hasTick w).toOption = none → ∃ e, step s = .refused (.invalidWord e)

/-- 30_encoding.md R77: the rows of the opcode map, their contexts and the examples, and "a word `w` is that operation exactly
when `w & mask == match`": the word of an operation matches its own row and no other, and a word that decodes to nothing
matches no row. -/
def Obligations.OpcodeMapDecidesTheOperation : Prop :=
  opcodeTable.map (fun r => (r.mnemonic, r.pattern.toNat, r.mask.toNat)) =
    [("IDLE", 0x00000, 0xFFFFF), ("RXI", 0x10000, 0xFFF00), ("TAKE", 0x20000, 0xFFFFF), ("SEND", 0x30000, 0xFFF00),
     ("TXC", 0x40000, 0xFFFFF), ("TICK", 0x50000, 0xFFFFF), ("ELAPSED", 0x60000, 0xFFFFF), ("LOADCD", 0x70000, 0xF0000)] ∧
  (∀ w : EventWord, (opcodeTable.filter fun r => w &&& r.mask == r.pattern).map (·.mnemonic) =
    match decode true w with
    | .ok i => [i.mnemonic]
    | .error _ => []) ∧
  Instr.idle.context = .any ∧
  (∀ b v, (Instr.rxi b).context = .irq ∧ Instr.take.context = .fg ∧ (Instr.send b).context = .fg ∧
    Instr.txc.context = .irq ∧ Instr.tick.context = .irq ∧ Instr.elapsed.context = .fg ∧ (Instr.loadcd v).context = .fg) ∧
  encode (.rxi 0x78) = 0x10078 ∧ encode (.send 0x41) = 0x30041 ∧ encode (.loadcd 1000) = 0x703E8 ∧
  encode .take = 0x20000

/-- 95_test_vectors.md V40 and 30_encoding.md R77's examples: some event words and what they decode to. -/
def Obligations.SampleWordsDecode : Prop :=
  decode true 0x00000 = .ok .idle ∧ decode true 0x10078 = .ok (.rxi 0x78) ∧ decode true 0x20000 = .ok .take ∧
  decode true 0x30041 = .ok (.send 0x41) ∧ decode true 0x40000 = .ok .txc ∧ decode true 0x50000 = .ok .tick ∧
  decode true 0x60000 = .ok .elapsed ∧ decode true 0x703E8 = .ok (.loadcd 1000)

/-- 30_encoding.md R78: the two answer words of one event, and that they "mirror the output ports of rule R74 bit for
bit". -/
def Obligations.AnswerWordsMirrorThePorts : Prop :=
  (∀ b, Resp.word (.byte b) = 0x100 ||| b.setWidth 9 ∧ txwWord (some b) = 0x100 ||| b.setWidth 9) ∧
  Resp.word .empty = 0x000 ∧ Resp.word (.flag true) = 0x100 ∧ Resp.word (.flag false) = 0x000 ∧ Resp.word .none = 0x000 ∧
  txwWord none = 0x000 ∧
  ∀ (i : Instr) (s t : State) (o : Output), exec i s = .next t → t.outs = [o] →
    txwWord o.txw = BitVec.ofBool t.ports.txregWr ++ t.ports.txregData ∧
    (i = .take → o.resp.word = BitVec.ofBool t.ports.takeValid ++ t.ports.takeData) ∧
    (i = .elapsed → o.resp.word = BitVec.ofBool t.ports.elapsedFlag ++ (0 : Byte)) ∧
    (i ≠ .take → i ≠ .elapsed → o.resp.word = 0)

/-- 30_encoding.md R82: an event written down in the assembler form reads back as itself. How it is written where R82
allows several forms is the model's choice (log entry 24). -/
def Obligations.WrittenEventsReadBack : Prop :=
  ∀ e : Event, readLine (writeEvent e) = some (.event e none)

/-! ### The step and its inputs -/

/-- A step does what the first entry of the schedule says (the schedule is the model's, log entries 4, 10, 17, 23): an event
word runs the operation it decodes to, a port step is `portStep`, `rst` is `RESET`, the foreground takes its next
micro-step, or the reference host goes on; with nothing scheduled it is the micro-step in progress or `IDLE`. -/
def Obligations.StepRunsTheDecodedWord : Prop :=
  (∀ (s : State) (w : EventWord) (rest : List Input) (i : Instr), s.inputs = .word w :: rest →
    decode s.cfg.hasTick w = .ok i → step s = exec i { s with inputs := rest }) ∧
  (∀ (s : State) (p : PortIn) (rest : List Input), s.inputs = .ports p :: rest →
    step s = portStep p { s with inputs := rest }) ∧
  (∀ (s : State) (rest : List Input),
    (s.inputs = .rst :: rest → step s = execReset { s with inputs := rest }) ∧
    (s.inputs = .micro :: rest → step s = execMicro { s with inputs := rest }) ∧
    (s.inputs = .hostLoop :: rest → step s = execHost { s with inputs := rest })) ∧
  (∀ s : State, s.inputs = [] → step s = execMicro s) ∧
  (∀ s : State, s.midOperation = false → execMicro s = exec .idle s) ∧
  (∀ s t : State, s.midOperation = true → microOf s = .next t →
    execMicro s = .next t.hostHears) ∧
  ∀ (s : State) (nbits w : Nat) (i : Instr), w < 2 ^ nbits → w < 2 ^ 20 →
    decode s.cfg.hasTick (BitVec.ofNat 20 w) = .ok i → step (s.withFetchWord nbits w) = exec i s

/-- 60_exceptions.md R180: no step raises an exception, and every operation that exists answers a next state in every
state, whatever the parameters and whatever the foreground is in the middle of. -/
def Obligations.NoExceptionAndEveryOperationCompletes : Prop :=
  (∀ (s : State) (r : Fault), step s ≠ .fault r) ∧
  ∀ (i : Instr) (s : State), i.wellFormed s.cfg.hasTick = true → ∃ t, exec i s = .next t

/-- 30_encoding.md R73, 60_exceptions.md R189: a step of the port view with `rst = 1` is `RESET`; with `rst = 0` it performs,
with `ATOMIC_FG = true` and `HAS_TICK`, exactly the events of the inputs that are high, in the fixed order, each seeing the
state left by the one before, and is `IDLE` when none is; its outputs are theirs. -/
def Obligations.PortStepIsItsEventsInOrder : Prop :=
  (∀ (p : PortIn) (s : State), p.rst = true → portStep p s = execReset s) ∧
  ∀ (p : PortIn) (s : State), p.rst = false → s.cfg.atomicFg = true → s.cfg.hasTick = true →
    let high : List (Bool × Instr) :=
      [(p.rxIrq, .rxi p.rxData), (p.txcIrq, .txc), (p.tickIrq, .tick), (p.takeReq, .take), (p.sendReq, .send p.sendData),
       (p.elapsedReq, .elapsed), (p.loadReq, .loadcd p.loadValue)]
    let raised := (high.filter (·.1)).map (·.2)
    ∃ t os, runEvents ((if raised = [] then [Instr.idle] else raised).map .op) s = some (t, os) ∧
      portStep p s = .next { t with outs := os }

/-- "At most one event of a step does `HwWrite`" (60_exceptions.md section 3, 30_encoding.md section 2, which the spec marks
as derived), in any state. -/
def Obligations.AtMostOneWritePerPortStep : Prop :=
  ∀ (p : PortIn) (s t : State), s.cfg.atomicFg = true → portStep p s = .next t →
    (t.outs.filter (·.txw.isSome)).length ≤ 1

/-- 70_reset_and_hazards.md R212: "`rst = 1` wins: the step performs `RESET` only", whatever else is high, as the `rst` entry
of the schedule and as a port step; the bytes pending in either ring are lost and the block believes the transmitter
idle. -/
def Obligations.ResetWinsOverOtherInputs : Prop :=
  ∀ (p : PortIn) (s : State) (rest : List Input), p.rst = true → s.inputs = .ports p :: rest →
    step s = execReset { s with inputs := rest } ∧ step { s with inputs := .rst :: rest } = step s ∧
    ∃ t, step s = .next t ∧ t.rx.pending = [] ∧ t.tx.pending = [] ∧ t.txBusy = false ∧ t.outs = [⟨.none, none⟩]

/-! ### Reset and the invariant -/

/-- 70_reset_and_hazards.md R210: `RESET` "gives the same result from all" states: every register and slot at its reset
value (10_state.md R39), and "it produces no output register write and no response". -/
def Obligations.ResetGivesTheResetState : Prop :=
  ∀ s : State, ∃ t, execReset s = .next t ∧
    (∀ i, i < s.rx.cap → t.rx.slot i = some 0) ∧ t.rx.head = 0 ∧ t.rx.tail = 0 ∧
    (∀ i, i < s.tx.cap → t.tx.slot i = some 0) ∧ t.tx.head = 0 ∧ t.tx.tail = 0 ∧
    t.txBusy = false ∧ t.countdown = 0 ∧ t.rxDropCnt = 0 ∧ t.txDropCnt = 0 ∧ t.outs = [⟨.none, none⟩]

/-- 70_reset_and_hazards.md R213: the first observations after reset. -/
def Obligations.FirstObservationsAfterReset : Prop :=
  ∀ (nRx nTx : Nat) (hRx : 2 ≤ nRx) (hTx : 2 ≤ nTx) (c : Config), c.atomicFg = true → c.hasTick = true →
    let s := State.init nRx nTx hRx hTx c
    exec .take s = .next { s with outs := [⟨.empty, none⟩] } ∧
    (∀ b, exec (.send b) s = .next { s with txBusy := true, outs := [⟨.none, some b⟩] }) ∧
    exec .txc s = .next { s with outs := [⟨.none, none⟩] } ∧
    exec .elapsed s = .next { s with outs := [⟨.flag true, none⟩] } ∧
    exec .tick s = .next { s with outs := [⟨.none, none⟩] }

/-- The invariant, and that no sampled index is stale, hold after reset, for every value of the parameters. -/
def Obligations.InvariantHoldsAtReset : Prop :=
  State.reset.Inv ∧
  ∀ (nRx nTx : Nat) (hRx : 2 ≤ nRx) (hTx : 2 ≤ nTx) (c : Config),
    (State.init nRx nTx hRx hTx c).Inv ∧ (State.init nRx nTx hRx hTx c).ownIndexFresh = true

/-- Every step keeps the invariant: the stores stay canonical, absent registers stay 0, the temporaries of a split
operation stay in range, and with `ATOMIC_FG = true` idle implies empty (10_state.md R35) and no operation is split. A step
that keeps the context discipline also keeps the sampled own index from going stale (70_reset_and_hazards.md R236 (d)). -/
def Obligations.StepKeepsTheInvariant : Prop :=
  (∀ s t : State, s.Inv → step s = .next t → t.Inv) ∧
  ∀ s t : State, s.Inv → s.ownIndexFresh = true → s.keepsDiscipline = true → step s = .next t →
    t.ownIndexFresh = true

/-- 10_state.md R35: in every state reachable by any sequence of events whatever, with `ATOMIC_FG = true`,
`tx_busy = 0` implies `tx_head == tx_tail`. -/
def Obligations.IdleImpliesEmptyOnEveryRun : Prop :=
  ∀ (nRx nTx : Nat) (hRx : 2 ≤ nRx) (hTx : 2 ≤ nTx) (c : Config) (es : List Event) (s : State) (os : List Output),
    c.atomicFg = true → runEvents es (State.init nRx nTx hRx hTx c) = some (s, os) →
    s.txBusy = false → s.tx.head = s.tx.tail

/-- The parameters are fixed for a run (10_state.md R40, log entry 2); and what the model chooses for `RESET` outside the block
(log entries 11, 17): it gives up a split operation, which the reference host then has not issued, and leaves the parameters,
the host's place and status and the schedule. -/
def Obligations.ParametersAreFixed : Prop :=
  (∀ s t : State, step s = .next t → t.cfg = s.cfg ∧ t.rx.cap = s.rx.cap ∧ t.tx.cap = s.tx.cap) ∧
  ∀ s : State, execReset s = .next { State.init s.rx.cap s.tx.cap s.rx.two_le_cap s.tx.two_le_cap s.cfg with
    host := { s.host with issued := false }, outs := [⟨.none, none⟩], inputs := s.inputs }

/-- 10_state.md R31: which operation may change which register, with every value of the parameters. -/
def Obligations.EachRegisterChangesOnlyByItsWriters : Prop :=
  ∀ (i : Instr) (s t : State), exec i s = .next t →
    (t.rx.head ≠ s.rx.head ∨ t.rx.buf ≠ s.rx.buf ∨ t.rxDropCnt ≠ s.rxDropCnt → ∃ b, i = .rxi b) ∧
    (t.rx.tail ≠ s.rx.tail → i = .take) ∧
    (t.tx.head ≠ s.tx.head ∨ t.tx.buf ≠ s.tx.buf ∨ t.txDropCnt ≠ s.txDropCnt → ∃ b, i = .send b) ∧
    (t.tx.tail ≠ s.tx.tail → i = .txc) ∧
    (t.txBusy ≠ s.txBusy → i = .txc ∨ ∃ b, i = .send b) ∧
    (t.countdown ≠ s.countdown → i = .tick ∨ ∃ v, i = .loadcd v) ∧
    (t.fg ≠ s.fg → i = .take ∨ ∃ b, i = .send b) ∧
    t.cfg = s.cfg ∧ t.host = s.host ∧ t.inputs = s.inputs

/-! ### Rings -/

/-- 10_state.md R32: `empty` exactly when `count = 0`, `full` exactly when `count = N - 1`, never both, and `pending` has
`count` bytes, never more than `N - 1`. -/
def Obligations.EmptyFullAndCount : Prop :=
  ∀ r : RingBuf,
    (r.isEmpty = true ↔ r.count = 0) ∧ (r.isFull = true ↔ r.count = r.cap - 1) ∧
    ¬(r.isEmpty = true ∧ r.isFull = true) ∧ r.count < r.cap ∧ r.pending.length = r.count

/-- 10_state.md R23: an index fits `IW = max(1, ceil(log2 N))` bits, and in no fewer would every index fit. -/
def Obligations.IndexRegistersFitTheirWidth : Prop :=
  ∀ r : RingBuf, r.head < 2 ^ indexWidth r.cap ∧ r.tail < 2 ^ indexWidth r.cap ∧ 1 ≤ indexWidth r.cap ∧
    ∀ w, 1 ≤ w → r.cap ≤ 2 ^ w → indexWidth r.cap ≤ w

/-! ### Receive path -/

/-- 40_receive_path.md R100: both branches of `RXI`, with the frame. -/
def Obligations.RxiStoresOrCountsADrop : Prop :=
  ∀ (b : Byte) (s : State), Memory.wf s.rx.cap s.rx.buf = true →
    (s.cfg.ovfRx = .dropNewest ∧ inc s.rx.cap s.rx.head = s.rx.tail →
      exec (.rxi b) s = .next { s with
        rxDropCnt := if s.rxDropCnt = 0xFFFF then s.rxDropCnt else s.rxDropCnt + 1, outs := [⟨.none, none⟩] }) ∧
    (¬(s.cfg.ovfRx = .dropNewest ∧ inc s.rx.cap s.rx.head = s.rx.tail) →
      ∃ r : RingBuf, exec (.rxi b) s = .next { s with rx := r, outs := [⟨.none, none⟩] } ∧
        r.cap = s.rx.cap ∧ r.tail = s.rx.tail ∧
        r.head = (if s.rx.head = s.rx.cap - 1 then 0 else s.rx.head + 1) ∧
        r.slot s.rx.head = some b ∧ ∀ a, a ≠ s.rx.head → r.slot a = s.rx.slot a) ∧
    presentedAs (.rxi b) (0x10000 ||| b.setWidth 20) .irq { rxIrq := true, rxData := b }

/-- 40_receive_path.md R101 (b), (d), (e), 10_state.md R33: `RXI` on a ring that is not full appends its byte to `pending`,
leaves the ring not empty, and writes a slot that no pending byte is in. -/
def Obligations.RxiAppendsToPending : Prop :=
  ∀ (b : Byte) (s : State), Memory.wf s.rx.cap s.rx.buf = true → s.rx.isFull = false →
    ∃ t, exec (.rxi b) s = .next t ∧ t.rx.pending = s.rx.pending ++ [b] ∧ t.rx.isEmpty = false ∧
      ∀ k, k < s.rx.count → (s.rx.tail + k) % s.rx.cap ≠ s.rx.head

/-- 40_receive_path.md R102 points 1 to 3: the overflow of a full ring under `WRAP`: the slot written was in no pending byte's
way, the ring reads empty, `TAKE` answers `empty`, and the byte of the next `RXI` is what the next `TAKE` returns. -/
def Obligations.RxOverflowUnderWrap : Prop :=
  ∀ (b c : Byte) (s : State), s.cfg.ovfRx = .wrap → s.cfg.atomicFg = true → Memory.wf s.rx.cap s.rx.buf = true →
    s.rx.isFull = true →
    ∃ t, exec (.rxi b) s = .next t ∧ t.rx.slot s.rx.head = some b ∧
      (∀ a, a ≠ s.rx.head → t.rx.slot a = s.rx.slot a) ∧ t.rx.head = s.rx.tail ∧ t.rx.tail = s.rx.tail ∧
      t.rx.count = 0 ∧ t.rx.pending = [] ∧ exec .take t = .next { t with outs := [⟨.empty, none⟩] } ∧
      ∃ u v, exec (.rxi c) t = .next u ∧ u.rx.pending = [c] ∧ u.rx.slot s.rx.tail = some c ∧
        exec .take u = .next v ∧ v.outs = [⟨.byte c, none⟩] ∧ v.rx.isEmpty = true

/-- 40_receive_path.md R102 point 4, the closed form under `WRAP`, for every run without `RESET` from the reset state of
every block: `rx_head = e mod N`, `rx_tail = d mod N`, `d <= e`, empty exactly when `e ≡ d (mod N)`, and a `TAKE` that finds the
ring non-empty returns the byte of the latest `RXI` whose number is congruent to `d`. -/
def Obligations.RxClosedFormUnderWrap : Prop :=
  ∀ (nRx nTx : Nat) (hRx : 2 ≤ nRx) (hTx : 2 ≤ nTx) (c : Config) (es : List Event) (s : State) (os : List Output),
    c.ovfRx = .wrap → c.atomicFg = true → Event.reset ∉ es →
    runEvents es (State.init nRx nTx hRx hTx c) = some (s, os) →
    let e := (rxiBytes es).length
    let d := (takenBytes os).length
    s.rx.head = e % nRx ∧ s.rx.tail = d % nRx ∧ d ≤ e ∧ (s.rx.isEmpty = true ↔ e % nRx = d % nRx) ∧
    (s.rx.isEmpty = false → ∃ (k : Nat) (b : Byte) (t : State), k < e ∧ k % nRx = d % nRx ∧
      (∀ j, j < e → j % nRx = d % nRx → j ≤ k) ∧ (rxiBytes es)[k]? = some b ∧
      exec .take s = .next t ∧ t.outs = [⟨.byte b, none⟩])

/-- 40_receive_path.md R104: both branches of the atomic `TAKE`, with the frame; the slot read keeps its byte. -/
def Obligations.TakeAnswersEmptyOrTheTailByte : Prop :=
  ∀ s : State, s.cfg.atomicFg = true →
    (s.rx.head = s.rx.tail → exec .take s = .next { s with outs := [⟨.empty, none⟩] }) ∧
    (s.rx.head ≠ s.rx.tail → ∃ (d : Byte) (r : RingBuf), s.rx.slot s.rx.tail = some d ∧
      exec .take s = .next { s with rx := r, outs := [⟨.byte d, none⟩] } ∧
      r.cap = s.rx.cap ∧ r.buf = s.rx.buf ∧ r.head = s.rx.head ∧ (∀ a, r.slot a = s.rx.slot a) ∧
      r.tail = (if s.rx.tail = s.rx.cap - 1 then 0 else s.rx.tail + 1)) ∧
    presentedAs .take 0x20000 .fg { takeReq := true }

/-- 10_state.md R33: a `TAKE` that finds the ring non-empty "removes the first item of `pending` and returns it". -/
def Obligations.TakeRemovesTheOldestPendingByte : Prop :=
  ∀ s : State, s.cfg.atomicFg = true → s.rx.isEmpty = false →
    ∃ (b : Byte) (rest : List Byte) (t : State), s.rx.pending = b :: rest ∧ exec .take s = .next t ∧
      t.rx.pending = rest ∧ t.outs = [⟨.byte b, none⟩]

/-- 40_receive_path.md R106, 10_state.md R36: FIFO order of the receive path, on every run without `RESET` from the reset
state on which no `RXI` overflows the ring, and on every one with `DROP_NEWEST`: the bytes taken so far and the bytes
pending are the accepted bytes, in order, and the next `TAKE` answers `empty` exactly when every accepted byte has been
returned. -/
def Obligations.ReceivePathIsFifo : Prop :=
  ∀ (nRx nTx : Nat) (hRx : 2 ≤ nRx) (hTx : 2 ≤ nTx) (c : Config) (es : List Event) (s : State) (os : List Output),
    c.atomicFg = true → Event.reset ∉ es →
    (c.ovfRx = .dropNewest ∨ runAvoids overflowsRx es (State.init nRx nTx hRx hTx c) = true) →
    runEvents es (State.init nRx nTx hRx hTx c) = some (s, os) →
    let accepted := alongRun storesRx es (State.init nRx nTx hRx hTx c)
    takenBytes os ++ s.rx.pending = accepted ∧ takenBytes os <+: accepted ∧
    (c.ovfRx = .wrap → accepted = rxiBytes es) ∧
    (exec .take s = .next { s with outs := [⟨.empty, none⟩] } ↔ takenBytes os = accepted)

/-- 40_receive_path.md R107: `N + 1` `RXI`s into an empty ring with no `TAKE` between them: under `WRAP` the `TAKE`s return
exactly the newest byte, under `DROP_NEWEST` the first `N - 1` bytes, with two drops counted. -/
def Obligations.SurvivorsOfCapacityPlusOne : Prop :=
  ∀ (s : State) (bs : List Byte), s.cfg.atomicFg = true → Memory.wf s.rx.cap s.rx.buf = true → s.rx.isEmpty = true →
    s.rxDropCnt = 0 → bs.length = s.rx.cap + 1 →
    (s.cfg.ovfRx = .wrap → ∃ t os, runEvents (bs.map (fun b => .op (.rxi b)) ++ [.op .take, .op .take]) s = some (t, os) ∧
      takeAnswers os = [bs.getLast?, none]) ∧
    (s.cfg.ovfRx = .dropNewest → ∃ t os,
      runEvents (bs.map (fun b => .op (.rxi b)) ++ List.replicate s.rx.cap (.op .take)) s = some (t, os) ∧
      takeAnswers os = (bs.take (s.rx.cap - 1)).map some ++ [none] ∧ t.rxDropCnt = 2)

/-- 10_state.md R30: the drop counters count the rejected bytes and saturate at 65535. -/
def Obligations.DropCountersSaturate : Prop :=
  ∀ (s : State) (bs : List Byte), s.cfg.atomicFg = true →
    (s.cfg.ovfRx = .dropNewest → s.rx.isFull = true →
      ∃ os, runEvents (bs.map fun b => .op (.rxi b)) s = some
        ({ s with rxDropCnt := BitVec.ofNat 16 (min (s.rxDropCnt.toNat + bs.length) 65535),
                  outs := if bs = [] then s.outs else [⟨.none, none⟩] }, os)) ∧
    (s.cfg.ovfTx = .dropNewest → s.tx.isFull = true →
      ∃ os, runEvents (bs.map fun b => .op (.send b)) s = some
        ({ s with txDropCnt := BitVec.ofNat 16 (min (s.txDropCnt.toNat + bs.length) 65535),
                  outs := if bs = [] then s.outs else [⟨.none, none⟩] }, os))

/-! ### Transmit path -/

/-- 41_transmit_path.md R120: the three branches of the atomic `SEND`, with the frame; R123: on a full ring under
`DROP_NEWEST` the byte is discarded and counted, `tx_busy` or not. -/
def Obligations.SendTakesOneOfThreePaths : Prop :=
  ∀ (b : Byte) (s : State), s.cfg.atomicFg = true → Memory.wf s.tx.cap s.tx.buf = true →
    (s.tx.head = s.tx.tail ∧ s.txBusy = false →
      exec (.send b) s = .next { s with txBusy := true, outs := [⟨.none, some b⟩] }) ∧
    (s.cfg.ovfTx = .dropNewest ∧ inc s.tx.cap s.tx.head = s.tx.tail →
      exec (.send b) s = .next { s with
        txDropCnt := if s.txDropCnt = 0xFFFF then s.txDropCnt else s.txDropCnt + 1, outs := [⟨.none, none⟩] }) ∧
    (¬(s.tx.head = s.tx.tail ∧ s.txBusy = false) → ¬(s.cfg.ovfTx = .dropNewest ∧ inc s.tx.cap s.tx.head = s.tx.tail) →
      ∃ r : RingBuf, exec (.send b) s = .next { s with tx := r, outs := [⟨.none, none⟩] } ∧
        r.cap = s.tx.cap ∧ r.tail = s.tx.tail ∧
        r.head = (if s.tx.head = s.tx.cap - 1 then 0 else s.tx.head + 1) ∧
        r.slot s.tx.head = some b ∧ ∀ a, a ≠ s.tx.head → r.slot a = s.tx.slot a) ∧
    presentedAs (.send b) (0x30000 ||| b.setWidth 20) .fg { sendReq := true, sendData := b }

/-- 41_transmit_path.md R121: in a state that meets the invariant, "the fast path is taken exactly when `tx_busy = 0`": one
`HwWrite` of the byte, no slot written, no index changed, `tx_busy` becomes 1; else nothing is written. -/
def Obligations.FastPathExactlyWhenIdle : Prop :=
  ∀ (b : Byte) (s : State), s.Inv → s.cfg.atomicFg = true →
    (s.txBusy = false → s.tx.head = s.tx.tail ∧
      exec (.send b) s = .next { s with txBusy := true, outs := [⟨.none, some b⟩] }) ∧
    (s.txBusy = true → ∃ t, exec (.send b) s = .next t ∧ t.outs = [⟨.none, none⟩] ∧ t.txBusy = true)

/-- 41_transmit_path.md R124, R125: both branches of `TXC`, with the frame; the slot read keeps its byte. -/
def Obligations.TxcHandsOverOrGoesIdle : Prop :=
  ∀ s : State,
    (s.tx.head ≠ s.tx.tail → ∃ (d : Byte) (r : RingBuf), s.tx.slot s.tx.tail = some d ∧
      exec .txc s = .next { s with tx := r, txBusy := true, outs := [⟨.none, some d⟩] } ∧
      r.cap = s.tx.cap ∧ r.buf = s.tx.buf ∧ r.head = s.tx.head ∧ (∀ a, r.slot a = s.tx.slot a) ∧
      r.tail = (if s.tx.tail = s.tx.cap - 1 then 0 else s.tx.tail + 1)) ∧
    (s.tx.head = s.tx.tail → exec .txc s = .next { s with txBusy := false, outs := [⟨.none, none⟩] }) ∧
    presentedAs .txc 0x40000 .irq { txcIrq := true }

/-- 41_transmit_path.md R122 points 1 to 4: the overflow of a full ring under `WRAP`: the ring reads empty and stays
busy; a `TXC` then writes nothing and goes idle, and a later `SEND` takes the fast path; if a `SEND` comes first its byte
is the one the next `TXC` writes. -/
def Obligations.TxOverflowUnderWrap : Prop :=
  ∀ (b c : Byte) (s : State), s.cfg.ovfTx = .wrap → s.cfg.atomicFg = true → Memory.wf s.tx.cap s.tx.buf = true →
    s.tx.isFull = true → s.txBusy = true →
    ∃ t, exec (.send b) s = .next t ∧ t.outs = [⟨.none, none⟩] ∧ t.tx.slot s.tx.head = some b ∧
      (∀ a, a ≠ s.tx.head → t.tx.slot a = s.tx.slot a) ∧ t.tx.head = s.tx.tail ∧ t.tx.tail = s.tx.tail ∧
      t.tx.pending = [] ∧ t.txBusy = true ∧
      (∃ u v, exec .txc t = .next u ∧ u.outs = [⟨.none, none⟩] ∧ u.txBusy = false ∧ u.tx = t.tx ∧
        exec (.send c) u = .next v ∧ v.outs = [⟨.none, some c⟩] ∧ v.tx = t.tx) ∧
      ∃ u v, exec (.send c) t = .next u ∧ u.outs = [⟨.none, none⟩] ∧ u.tx.pending = [c] ∧
        u.tx.slot s.tx.tail = some c ∧ exec .txc u = .next v ∧ v.outs = [⟨.none, some c⟩]

/-- 41_transmit_path.md R122 point 5, the closed form of the TX ring under `WRAP`; `e` counts the buffered stores and `d` the
`TXC`s that handed over a byte. -/
def Obligations.TxClosedFormUnderWrap : Prop :=
  ∀ (nRx nTx : Nat) (hRx : 2 ≤ nRx) (hTx : 2 ≤ nTx) (c : Config) (es : List Event) (s : State) (os : List Output),
    c.ovfTx = .wrap → c.atomicFg = true → Event.reset ∉ es →
    runEvents es (State.init nRx nTx hRx hTx c) = some (s, os) →
    let stored := alongRun storesTx es (State.init nRx nTx hRx hTx c)
    let e := stored.length
    let d := ((es.zip os).filter fun x => x.1 == .op .txc && x.2.txw.isSome).length
    s.tx.head = e % nTx ∧ s.tx.tail = d % nTx ∧ d ≤ e ∧ (s.tx.isEmpty = true ↔ e % nTx = d % nTx) ∧
    (s.tx.isEmpty = false → ∃ (k : Nat) (b : Byte) (t : State), k < e ∧ k % nTx = d % nTx ∧
      (∀ j, j < e → j % nTx = d % nTx → j ≤ k) ∧ stored[k]? = some b ∧
      exec .txc s = .next t ∧ t.outs = [⟨.none, some b⟩])

/-- 41_transmit_path.md R126, 10_state.md R36: FIFO order on the output register, on every run without `RESET` from the
reset state on which no `SEND` overflows the ring, and on every one with `DROP_NEWEST`: the bytes written so far and the
bytes pending are the accepted bytes in `SEND` order, under `WRAP` all bytes given to `SEND`. -/
def Obligations.TransmitPathIsFifo : Prop :=
  ∀ (nRx nTx : Nat) (hRx : 2 ≤ nRx) (hTx : 2 ≤ nTx) (c : Config) (es : List Event) (s : State) (os : List Output),
    c.atomicFg = true → Event.reset ∉ es →
    (c.ovfTx = .dropNewest ∨ runAvoids overflowsTx es (State.init nRx nTx hRx hTx c) = true) →
    runEvents es (State.init nRx nTx hRx hTx c) = some (s, os) →
    let accepted := alongRun acceptsTx es (State.init nRx nTx hRx hTx c)
    writtenBytes os ++ s.tx.pending = accepted ∧ writtenBytes os <+: accepted ∧
    (c.ovfTx = .wrap → accepted = sendBytes es)

/-- 41_transmit_path.md R127, 60_exceptions.md R186: while the transmitter keeps its contract, "the output register is
never written while the transmitter still holds an unfinished byte", and `tx_busy` equals "the transmitter holds an
unfinished byte". -/
def Obligations.OneByteInTheTransmitter : Prop :=
  ∀ (nRx nTx : Nat) (hRx : 2 ≤ nRx) (hTx : 2 ≤ nTx) (c : Config) (es : List Event),
    c.atomicFg = true → keepsContract es (State.init nRx nTx hRx hTx c) false = true →
    neverOverwrites es (State.init nRx nTx hRx hTx c) false = true ∧
    ∀ (s : State) (os : List Output), runEvents es (State.init nRx nTx hRx hTx c) = some (s, os) →
      shiftingAtEnd es (State.init nRx nTx hRx hTx c) false = s.txBusy

/-- 41_transmit_path.md R128: from any state with `tx_busy = 1`, `count` `TXC`s write the pending bytes in order, and one more
returns the path to idle with nothing written. -/
def Obligations.CompletionsDrainTheRing : Prop :=
  ∀ s : State, s.txBusy = true →
    ∃ t os u, runEvents (List.replicate s.tx.count (.op .txc)) s = some (t, os) ∧ writtenBytes os = s.tx.pending ∧
      os.length = s.tx.count ∧ t.tx.isEmpty = true ∧ t.txBusy = true ∧
      exec .txc t = .next u ∧ u.outs = [⟨.none, none⟩] ∧ u.txBusy = false ∧ u.tx = t.tx

/-- 70_reset_and_hazards.md R223: a missing `TXC` hangs the transmit path: while none comes and the path is busy, nothing
is ever written to the output register. -/
def Obligations.MissingTxcHangsTheTransmitPath : Prop :=
  ∀ (es : List Event) (s t : State) (os : List Output), s.txBusy = true → s.cfg.atomicFg = true →
    Event.op .txc ∉ es → Event.reset ∉ es → runEvents es s = some (t, os) → writtenBytes os = [] ∧ t.txBusy = true

/-! ### Countdown -/

/-- 42_tick_countdown.md R140: `TICK`, with the frame. -/
def Obligations.TickDecrementsToZero : Prop :=
  ∀ s : State, s.cfg.hasTick = true →
    exec .tick s = .next { s with
      countdown := if s.countdown = 0 then 0 else s.countdown - 1, outs := [⟨.none, none⟩] } ∧
    presentedAs .tick 0x50000 .irq { tickIrq := true }

/-- 42_tick_countdown.md R141 (a), (d): after `k` `TICK`s and no `LOADCD`, the value is `max(v - k, 0)`: it never goes below
zero, whatever else happens between them. -/
def Obligations.TicksNeverUnderflow : Prop :=
  ∀ (es : List Event) (s t : State) (os : List Output), noReload es = true → runEvents es s = some (t, os) →
    t.countdown.toNat = s.countdown.toNat - ticksOf es

/-- 42_tick_countdown.md R143: `ELAPSED`, with the frame: it writes no register. -/
def Obligations.ElapsedReadsTheCountdown : Prop :=
  ∀ s : State, s.cfg.hasTick = true →
    exec .elapsed s = .next { s with outs := [⟨.flag (decide (s.countdown = 0)), none⟩] } ∧
    presentedAs .elapsed 0x60000 .fg { elapsedReq := true }

/-- 42_tick_countdown.md R144: `ELAPSED` is a pure read; "while `countdown = 0` and no `LOADCD` happens, every `ELAPSED` answers
`flag(true)`, again and again", and so it does right after reset. -/
def Obligations.ElapsedStaysTrueUntilReloaded : Prop :=
  (∀ s t : State, exec .elapsed s = .next t → { t with outs := s.outs } = s) ∧
  (∀ (es : List Event) (s t : State) (os : List Output), s.countdown = 0 → noReload es = true →
    runEvents es s = some (t, os) → ∀ f ∈ elapsedAnswers os, f = true) ∧
  ∀ (nRx nTx : Nat) (hRx : 2 ≤ nRx) (hTx : 2 ≤ nTx) (c : Config), c.hasTick = true →
    ∃ t, exec .elapsed (State.init nRx nTx hRx hTx c) = .next t ∧ t.outs = [⟨.flag true, none⟩]

/-- 42_tick_countdown.md R146: `LOADCD`, with the frame; and "`TICK` and `LOADCD` are the only writers": no other operation
changes the countdown. -/
def Obligations.LoadcdWritesTheCountdown : Prop :=
  (∀ (v : Half) (s : State), s.cfg.hasTick = true →
    exec (.loadcd v) s = .next { s with countdown := v, outs := [⟨.none, none⟩] } ∧
    presentedAs (.loadcd v) (0x70000 ||| v.setWidth 20) .fg { loadReq := true, loadValue := v }) ∧
  ∀ (i : Instr) (s t : State), exec i s = .next t → t.countdown ≠ s.countdown → i = .tick ∨ ∃ v, i = .loadcd v

/-- 42_tick_countdown.md R148, R149: after `LOADCD v`, `ELAPSED` answers `flag(false)` as long as fewer than `v` `TICK`s have
happened since the load, and `flag(true)` from then on, whatever happened before the load. -/
def Obligations.PeriodLaw : Prop :=
  ∀ (v : Half) (es : List Event) (s t : State) (os : List Output), noReload es = true →
    runEvents (.op (.loadcd v) :: es) s = some (t, os) →
    exec .elapsed t = .next { t with outs := [⟨.flag (decide (v.toNat ≤ ticksOf es)), none⟩] }

/-- 30_encoding.md R79, R72: without `HAS_TICK` the countdown's operations do not exist: `exec` refuses each by name (log
entry 8), and its input ports raise nothing (log entry 15), so that a port step performs the events of the other inputs
that are high, in the order of 60_exceptions.md R189, or `IDLE`. -/
def Obligations.CountdownAbsentWithoutHasTick : Prop :=
  (∀ (s : State) (i : Instr), s.cfg.hasTick = false → i.ofCountdown = true → exec i s = .refused .countdownAbsent) ∧
  ∀ (p : PortIn) (s : State), p.rst = false → s.cfg.atomicFg = true → s.cfg.hasTick = false →
    let high : List (Bool × Instr) :=
      [(p.rxIrq, .rxi p.rxData), (p.txcIrq, .txc), (p.takeReq, .take), (p.sendReq, .send p.sendData)]
    let raised := (high.filter (·.1)).map (·.2)
    ∃ t os, runEvents ((if raised = [] then [Instr.idle] else raised).map .op) s = some (t, os) ∧
      portStep p s = .next { t with outs := os }

/-! ### Idle, independence, idempotence -/

/-- 43_idle.md R160: "The state after `IDLE` equals the state before it, field for field" (but for the model's record of
outputs). -/
def Obligations.IdleChangesNothing : Prop :=
  ∀ s : State, exec .idle s = .next { s with outs := [⟨.none, none⟩] } ∧ presentedAs .idle 0x00000 .any {}

/-- 43_idle.md R160: an `IDLE` may be inserted anywhere in a run "without changing any other event's outcome". -/
def Obligations.IdleMayBeInsertedAnywhere : Prop :=
  ∀ (es es' : List Event) (s t : State) (os : List Output), runEvents (es ++ es') s = some (t, os) →
    ∃ t', runEvents (es ++ .op .idle :: es') s =
        some (t', os.take es.length ++ ⟨.none, none⟩ :: os.drop es.length) ∧
      { t' with outs := [] } = { t with outs := [] }

/-- 60_exceptions.md R188: two operations of different parts commute: in either order from the same state they give the
same final state and the same outputs. -/
def Obligations.DifferentPartsCommute : Prop :=
  ∀ (i j : Instr) (s : State), partOf i ≠ partOf j → s.cfg.atomicFg = true → s.cfg.hasTick = true →
    ∃ t t' o o', runEvents [.op i, .op j] s = some (t, [o, o']) ∧ runEvents [.op j, .op i] s = some (t', [o', o]) ∧
      { t with outs := [] } = { t' with outs := [] } ∧ observed t [o, o'] = observed t' [o', o]

/-- 60_exceptions.md R188: "The state splits into three parts that no operation crosses": an operation leaves the other
parts as they are, and what it answers and does to its own part does not depend on them. -/
def Obligations.PartsDoNotInterfere : Prop :=
  ∀ (i : Instr) (s t : State), exec i s = .next t →
    (partOf i ≠ .rx → t.rx = s.rx ∧ t.rxDropCnt = s.rxDropCnt) ∧
    (partOf i ≠ .tx → t.tx = s.tx ∧ t.txBusy = s.txBusy ∧ t.txDropCnt = s.txDropCnt ∧ writtenOf t.outs = none) ∧
    (partOf i ≠ .countdown → t.countdown = s.countdown) ∧
    ∀ s' t' : State, s'.cfg = s.cfg → s'.fg = s.fg → exec i s' = .next t' →
      (partOf i = .rx → s'.rx = s.rx → s'.rxDropCnt = s.rxDropCnt →
        t'.outs = t.outs ∧ t'.rx = t.rx ∧ t'.rxDropCnt = t.rxDropCnt ∧ t'.fg = t.fg) ∧
      (partOf i = .tx → s'.tx = s.tx → s'.txBusy = s.txBusy → s'.txDropCnt = s.txDropCnt →
        t'.outs = t.outs ∧ t'.tx = t.tx ∧ t'.txBusy = t.txBusy ∧ t'.txDropCnt = t.txDropCnt ∧ t'.fg = t.fg) ∧
      (partOf i = .countdown → s'.countdown = s.countdown → t'.outs = t.outs ∧ t'.countdown = t.countdown)

/-- 20_memory.md R55: the idempotent operations: done again at once they change nothing more and answer the same. -/
def Obligations.IdempotentOperations : Prop :=
  ∀ (i : Instr) (s t : State), s.cfg.atomicFg = true →
    ((i = .take ∧ s.rx.isEmpty = true) ∨ (i = .txc ∧ s.tx.isEmpty = true ∧ s.txBusy = false) ∨ i = .elapsed ∨
      (i = .tick ∧ s.countdown = 0) ∨ i = .idle) →
    exec i s = .next t → exec i t = .next t ∧ { t with outs := [] } = { s with outs := [] }

/-! ### The split-phase variant -/

/-- 70_reset_and_hazards.md R233: the micro-steps of `TAKE` with `ATOMIC_FG = false`, one by one; and "`t` is still the true
`rx_tail` at `TAKE.c`", whatever interrupt operations come between them. -/
def Obligations.MicroStepsOfTake : Prop :=
  (∀ s : State, s.cfg.atomicFg = false → s.fg = .idle →
    (s.rx.head = s.rx.tail → exec .take s = .next { s with outs := [⟨.empty, none⟩] }) ∧
    (s.rx.head ≠ s.rx.tail → exec .take s = .next { s with fg := .takeB s.rx.head s.rx.tail, outs := [⟨.none, none⟩] })) ∧
  (∀ (s : State) (h t : Nat), s.fg = .takeB h t → t < s.rx.cap →
    ∃ d, s.rx.slot t = some d ∧ microOf s = .next { s with fg := .takeC h t d, outs := [⟨.none, none⟩] }) ∧
  (∀ (s : State) (h t : Nat) (d : Byte), s.fg = .takeC h t d → t < s.rx.cap →
    ∃ r : RingBuf, microOf s = .next { s with rx := r, fg := .idle, outs := [⟨.byte d, none⟩] } ∧
      r.cap = s.rx.cap ∧ r.buf = s.rx.buf ∧ r.head = s.rx.head ∧ r.tail = inc s.rx.cap t) ∧
  ∀ (s a b c d : State) (is js : List Instr) (os os' : List Output), s.cfg.atomicFg = false → s.fg = .idle →
    s.rx.head ≠ s.rx.tail → (∀ i ∈ is ++ js, i.context = .irq) → exec .take s = .next a →
    runEvents (is.map .op) a = some (b, os) → microOf b = .next c → runEvents (js.map .op) c = some (d, os') →
    ∃ x, d.fg = .takeC s.rx.head d.rx.tail x

/-- 70_reset_and_hazards.md R234: the micro-steps of `SEND` with `ATOMIC_FG = false`, one by one. -/
def Obligations.MicroStepsOfSend : Prop :=
  (∀ (b : Byte) (s : State), s.cfg.atomicFg = false → s.fg = .idle →
    ∃ path, exec (.send b) s = .next { s with
        fg := .sendPath b s.tx.head s.tx.tail s.txBusy path, outs := [⟨.none, none⟩] } ∧
      (path = .fast ↔ s.tx.head = s.tx.tail ∧ s.txBusy = false) ∧
      (path = .drop ↔ ¬(s.tx.head = s.tx.tail ∧ s.txBusy = false) ∧
        s.cfg.ovfTx = .dropNewest ∧ inc s.tx.cap s.tx.head = s.tx.tail)) ∧
  (∀ (s : State) (b : Byte) (h t : Nat) (q : Bool),
    (s.fg = .sendPath b h t q .fast →
      microOf s = .next { s with txBusy := true, fg := .idle, outs := [⟨.none, some b⟩] }) ∧
    (s.fg = .sendPath b h t q .drop →
      microOf s = .next { s with
        txDropCnt := if s.txDropCnt = 0xFFFF then s.txDropCnt else s.txDropCnt + 1,
        fg := .idle, outs := [⟨.none, none⟩] }) ∧
    (s.fg = .sendPath b h t q .buffered → h < s.tx.cap → Memory.wf s.tx.cap s.tx.buf = true →
      ∃ r : RingBuf, microOf s = .next { s with tx := r, fg := .sendC b h t q, outs := [⟨.none, none⟩] } ∧
        r.cap = s.tx.cap ∧ r.head = s.tx.head ∧ r.tail = s.tx.tail ∧ r.slot h = some b ∧
        ∀ a, a ≠ h → r.slot a = s.tx.slot a) ∧
    (s.fg = .sendC b h t q → h < s.tx.cap →
      ∃ r : RingBuf, microOf s = .next { s with tx := r, fg := .idle, outs := [⟨.none, none⟩] } ∧
        r.cap = s.tx.cap ∧ r.buf = s.tx.buf ∧ r.tail = s.tx.tail ∧ r.head = inc s.tx.cap h))

/-- 60_exceptions.md R193: an operation raised from another context in the middle of a split one "still does what its rule
says", whole, and leaves the foreground's temporaries (log entry 9), at a port step too (log entry 14); and R193's example: a
`SEND` from inside an interrupt handler within a buffered `SEND` "makes two writers of `tx_head`", and its byte is
overwritten. The reference host, as the foreground, starts no operation there but takes the micro-step
(70_reset_and_hazards.md R232). -/
def Obligations.OperationsOfAnotherContextDoTheirRules : Prop :=
  ∀ s : State, s.midOperation = true →
    (∀ i : Instr, i.wellFormed s.cfg.hasTick = true → ∃ t, exec i s = .next t ∧ t.fg = s.fg ∧
      exec i { s with cfg := { s.cfg with atomicFg := true } } =
        .next { t with cfg := { s.cfg with atomicFg := true } }) ∧
    (∀ p : PortIn, p.rst = false → ∃ t os, runEvents ((p.events s.cfg.hasTick).map .op) s = some (t, os) ∧
      portStep p s = .next { t with outs := os } ∧ t.fg = s.fg) ∧
    (∀ (b c : Byte) (h t : Nat) (q : Bool), s.fg = .sendPath b h t q .buffered → h = s.tx.head →
      s.sendPath = .buffered → Memory.wf s.tx.cap s.tx.buf = true →
      ∃ u v w, exec (.send c) s = .next u ∧ u.tx.slot h = some c ∧ u.tx.head = inc s.tx.cap h ∧
        microOf u = .next v ∧ v.tx.slot h = some b ∧ microOf v = .next w ∧ w.tx.slot h = some b ∧
        w.tx.head = u.tx.head ∧ w.fg = .idle) ∧
    (s.Inv → ∃ t, microOf s = .next t ∧ execHost s = .next t.hostHears)

/-- 70_reset_and_hazards.md R232 to R234: an operation run through its micro-steps with nothing in between does what the
atomic operation does, and so does a step of the port view (log entry 14). -/
def Obligations.UninterruptedMicroStepsAreTheAtomicOperation : Prop :=
  (∀ (i : Instr) (s t : State), s.cfg.atomicFg = false → s.fg = .idle →
    exec i { s with cfg := { s.cfg with atomicFg := true } } = .next t →
    execWhole i s = .next { t with cfg := s.cfg }) ∧
  ∀ (p : PortIn) (s t : State), s.cfg.atomicFg = false → s.fg = .idle →
    portStep p { s with cfg := { s.cfg with atomicFg := true } } = .next t → portStep p s = .next { t with cfg := s.cfg }

/-- 70_reset_and_hazards.md R233: with interrupts between its micro-steps and no overflow of the RX ring, a split `TAKE`
returns what the atomic `TAKE` would have returned at `TAKE.a`, and under `WRAP` leaves the RX ring as that `TAKE` before all
of them would have. -/
def Obligations.SplitTakeIsLinearisable : Prop :=
  ∀ (s a b : State) (is js : List Instr) (c d : State) (os os' : List Output),
    s.cfg.atomicFg = false → s.fg = .idle → Memory.wf s.rx.cap s.rx.buf = true → s.rx.isEmpty = false →
    (∀ i ∈ is ++ js, i.context = .irq) →
    (s.cfg.ovfRx = .dropNewest ∨ s.rx.count + (rxiBytes ((is ++ js).map .op)).length ≤ s.rx.cap - 1) →
    exec .take s = .next a → runEvents (is.map .op) a = some (b, os) → microOf b = .next c →
    runEvents (js.map .op) c = some (d, os') →
    ∃ (x : Byte) (rest : List Byte) (e : State), s.rx.pending = x :: rest ∧ microOf d = .next e ∧
      e.outs = [⟨.byte x, none⟩] ∧ e.fg = .idle ∧
      (s.cfg.ovfRx = .wrap → ∃ u v us, takeAtomic s = .next u ∧ runEvents ((is ++ js).map .op) u = some (v, us) ∧
        e.rx = v.rx)

/-- 70_reset_and_hazards.md R234: a buffered split `SEND` with a `TXC` in between that finds the ring non-empty gives what
the atomic `TXC` and then the atomic `SEND` give, wherever the `TXC` falls. -/
def Obligations.SplitSendAroundAHandOver : Prop :=
  ∀ (b : Byte) (s : State), s.cfg.atomicFg = false → s.fg = .idle → s.txBusy = true → s.tx.isEmpty = false →
    s.sendPath = .buffered →
    ∃ u v, execTxc s = .next u ∧ sendAtomic b u = .next v ∧
      (∃ a c d e, exec (.send b) s = .next a ∧ exec .txc a = .next c ∧ microOf c = .next d ∧ microOf d = .next e ∧
        c.outs = u.outs ∧ e = v) ∧
      ∃ a c d e, exec (.send b) s = .next a ∧ microOf a = .next c ∧ exec .txc c = .next d ∧ microOf d = .next e ∧
        d.outs = u.outs ∧ e = v

/-- 70_reset_and_hazards.md R235: the stranding race. From busy with an empty ring, a `TXC` between `SEND.a` and `SEND.b`
leaves the path idle with a non-empty ring and nothing written, and the next `SEND` is buffered too; neither atomic order
does: in both the byte is written. -/
def Obligations.StrandingRace : Prop :=
  ∀ (b : Byte) (s : State), s.cfg.atomicFg = false → s.fg = .idle → s.txBusy = true → s.tx.isEmpty = true →
    Memory.wf s.tx.cap s.tx.buf = true →
    (∃ t u v w, exec (.send b) s = .next t ∧ exec .txc t = .next u ∧ microOf u = .next v ∧ microOf v = .next w ∧
      w.txBusy = false ∧ w.tx.isEmpty = false ∧ w.fg = .idle ∧
      (∀ x ∈ [t, u, v, w], writtenOf x.outs = none) ∧ w.sendPath ≠ .fast) ∧
    (∃ t u, sendAtomic b s = .next t ∧ execTxc t = .next u ∧ u.outs = [⟨.none, some b⟩]) ∧
    ∃ t u, execTxc s = .next t ∧ sendAtomic b t = .next u ∧ u.outs = [⟨.none, some b⟩]

/-! ### The reference host -/

/-- 44_host_loop.md R167, R168: what the reference host issues at each place of its loop and where it goes, under either
`DRAIN_POLICY`, with `ATOMIC_FG = true` and `HAS_TICK`. -/
def Obligations.HostLoopFollowsItsTwoPhases : Prop :=
  ∀ s : State, s.cfg.atomicFg = true → s.cfg.hasTick = true →
    ∃ i t, exec i s = .next t ∧
      (∃ pos status, execHost s = .next { t with host := ⟨pos, status, false⟩ } ∧
        (status = if s.host.pos = .reload then !s.host.status else s.host.status) ∧
        (s.host.pos = .take → i = .take ∧ (s.rx.isEmpty = true → pos = .elapsed) ∧
          (s.rx.isEmpty = false → pos = .echo s.rx.front)) ∧
        (∀ b, s.host.pos = .echo b → i = .send b ∧
          (s.cfg.drain = .onePerPass → pos = .elapsed) ∧ (s.cfg.drain = .drainFully → pos = .take)) ∧
        (s.host.pos = .elapsed → i = .elapsed ∧ (s.countdown = 0 → pos = .reload) ∧ (s.countdown ≠ 0 → pos = .take)) ∧
        (s.host.pos = .reload → i = .loadcd s.cfg.period ∧ pos = .mark) ∧
        (s.host.pos = .mark → i = .send 0x2D ∧ pos = .lineEnd) ∧
        (s.host.pos = .lineEnd → i = .send 0x0A ∧ pos = .take))

/-- 44_host_loop.md R169: with nothing in between, one pass of the reference host issues between 2 and 6 foreground
events, in the order given there, at most 3 of them `SEND`s; and they do what the pseudo-instruction `PASS` does
(30_encoding.md R84). R166, under any parameters: the host goes on to its next place when the event it issued is done, not
before, and `phase` changes exactly when the last event of R167 or R168 is done. -/
def Obligations.PassesOfTheReferenceHost : Prop :=
  (∀ s : State, s.Inv → s.cfg.atomicFg = true → s.cfg.hasTick = true → s.cfg.drain = .onePerPass → s.host.pos = .take →
    ∃ (echo beat : List Instr) (t u : State), (echo = [] ∨ ∃ b, echo = [.send b]) ∧
      (beat = [] ∨ beat = [.loadcd s.cfg.period, .send 0x2D, .send 0x0A]) ∧
      hostEvents (2 + echo.length + beat.length) s = some (t, .take :: echo ++ .elapsed :: beat) ∧
      t.host.pos = .take ∧ (t.host.status = if beat = [] then s.host.status else !s.host.status) ∧
      execPass s = .next u ∧ { u with outs := [] } = { t with outs := [] }) ∧
  ∀ s t : State, execHost s = .next t →
    (s.midOperation = false ∨ s.host.issued = true →
      (t.midOperation = true → t.host = { s.host with issued := true } ∧ t.host.phase = s.host.phase) ∧
      (t.midOperation = false → t.host = s.host.after s.cfg t.lastResp ∧
        (t.host.phase ≠ s.host.phase ↔
          (s.host.pos = .take ∧ t.lastResp = .empty) ∨
          ((∃ b, s.host.pos = .echo b) ∧ s.cfg.drain = .onePerPass) ∨
          (s.host.pos = .elapsed ∧ t.lastResp ≠ .flag true) ∨ s.host.pos = .lineEnd))) ∧
    (s.midOperation = true → s.host.issued = false → t.host = s.host)
end

