-- ==== Sys2Proof/Laws/Memory.lean ====
section
/-! SUPPORT. The backing stores: read after write, and that a write keeps the canonical form. -/

namespace Sys2Proof.Machine

@[simp] theorem Memory.read_nil (i : Nat) : Memory.read [] i = 0 := rfl

theorem Memory.wfFrom_cons {n lo a : Nat} {b : Byte} {m : Memory} :
    Memory.wfFrom n lo ((a, b) :: m) = true ↔ lo ≤ a ∧ a < n ∧ b ≠ 0 ∧ Memory.wfFrom n (a + 1) m = true := by
  simp [Memory.wfFrom, and_assoc]

/-- The form from `lo` on is a form from any earlier slot on. -/
theorem Memory.wfFrom_mono {n lo lo' : Nat} (h : lo' ≤ lo) :
    {m : Memory} → Memory.wfFrom n lo m = true → Memory.wfFrom n lo' m = true
  | [], _ => rfl
  | (a, b) :: m, hm => by
    rw [Memory.wfFrom_cons] at hm ⊢
    exact ⟨by omega, hm.2⟩

/-- Below the first slot number it may list, a store reads 0x00. -/
theorem Memory.read_below {n : Nat} :
    {m : Memory} → {lo i : Nat} → Memory.wfFrom n lo m = true → i < lo → Memory.read m i = 0
  | [], _, _, _, _ => rfl
  | (a, b) :: m, lo, i, hm, hi => by
    rw [Memory.wfFrom_cons] at hm
    have ha : a ≠ i := by omega
    simp only [Memory.read, ha, if_false]
    exact Memory.read_below hm.2.2.2 (by omega)

/-- "A write changes exactly one slot" (20_memory.md R51), from slot `lo` on. -/
theorem Memory.read_write_from {n : Nat} (i j : Nat) (v : Byte) :
    {m : Memory} → {lo : Nat} → Memory.wfFrom n lo m = true →
      Memory.read (Memory.write m i v) j = if j = i then v else Memory.read m j
  | [], _, _ => by
    unfold Memory.write
    by_cases hv : v = 0
    · rw [if_pos hv]
      split <;> simp_all
    · rw [if_neg hv]
      simp only [Memory.read, eq_comm (a := i)]
  | (a, b) :: m, lo, hm => by
    have hm' := Memory.wfFrom_cons.1 hm
    have ih := Memory.read_write_from i j v hm'.2.2.2
    simp only [Memory.write]
    by_cases hia : i < a
    · have hlow : Memory.read ((a, b) :: m) i = 0 :=
        Memory.read_below (lo := a) (Memory.wfFrom_cons.2 ⟨Nat.le_refl a, hm'.2⟩) hia
      rw [if_pos hia]
      by_cases hv : v = 0
      · rw [if_pos hv]
        split <;> simp_all
      · rw [if_neg hv]
        by_cases hj : j = i
        · simp [Memory.read, hj]
        · simp [Memory.read, hj, Ne.symm hj]
    · rw [if_neg hia]
      by_cases hie : i = a
      · rw [if_pos hie]
        have hlow : Memory.read m i = 0 := Memory.read_below hm'.2.2.2 (by omega)
        by_cases hj : j = i
        · rw [if_pos hj, hj]
          split
          · rw [hlow, ‹v = 0›]
          · simp [Memory.read]
        · have haj : a ≠ j := by omega
          have hij : i ≠ j := by omega
          rw [if_neg hj]
          split <;> simp [Memory.read, haj, hij]
      · rw [if_neg hie]
        by_cases haj : a = j
        · have : j ≠ i := by omega
          simp [Memory.read, haj, this]
        · simp only [Memory.read, haj, if_false]
          exact ih

/-- "A write changes exactly one slot" (20_memory.md R51). -/
theorem Memory.read_write {n : Nat} {m : Memory} (h : Memory.wf n m = true) (i j : Nat) (v : Byte) :
    Memory.read (Memory.write m i v) j = if j = i then v else Memory.read m j :=
  Memory.read_write_from i j v h

/-- A write leaves every other slot as it was (20_memory.md R51), whatever the form of the store. -/
theorem Memory.read_write_ne {i j : Nat} (h : j ≠ i) (v : Byte) :
    (m : Memory) → Memory.read (Memory.write m i v) j = Memory.read m j
  | [] => by
    unfold Memory.write
    split
    · rfl
    · simp [Memory.read, Ne.symm h]
  | (a, b) :: m => by
    have ih := Memory.read_write_ne h v m
    simp only [Memory.write]
    by_cases hia : i < a
    · rw [if_pos hia]
      split
      · rfl
      · simp [Memory.read, Ne.symm h]
    · rw [if_neg hia]
      by_cases hie : i = a
      · rw [if_pos hie]
        have haj : a ≠ j := by omega
        split <;> simp [Memory.read, haj, Ne.symm h]
      · rw [if_neg hie]
        simp only [Memory.read, ih]

/-- A write keeps the canonical form, from slot `lo` on. -/
theorem Memory.wfFrom_write {n i : Nat} (v : Byte) (hn : i < n) :
    {m : Memory} → {lo : Nat} → lo ≤ i → Memory.wfFrom n lo m = true → Memory.wfFrom n lo (Memory.write m i v) = true
  | [], lo, hi, _ => by
    unfold Memory.write
    by_cases hv : v = 0
    · rw [if_pos hv]; rfl
    · rw [if_neg hv]
      exact Memory.wfFrom_cons.2 ⟨hi, hn, hv, rfl⟩
  | (a, b) :: m, lo, hi, hm => by
    have hm' := Memory.wfFrom_cons.1 hm
    simp only [Memory.write]
    by_cases hia : i < a
    · rw [if_pos hia]
      by_cases hv : v = 0
      · rw [if_pos hv]; exact hm
      · rw [if_neg hv]
        exact Memory.wfFrom_cons.2 ⟨hi, hn, hv, Memory.wfFrom_cons.2 ⟨by omega, hm'.2⟩⟩
    · rw [if_neg hia]
      by_cases hie : i = a
      · rw [if_pos hie]
        by_cases hv : v = 0
        · rw [if_pos hv]
          exact Memory.wfFrom_mono (by omega) hm'.2.2.2
        · rw [if_neg hv]
          exact Memory.wfFrom_cons.2 ⟨hi, hn, hv, hie ▸ hm'.2.2.2⟩
      · rw [if_neg hie]
        exact Memory.wfFrom_cons.2
          ⟨hm'.1, hm'.2.1, hm'.2.2.1, Memory.wfFrom_write v hn (by omega) hm'.2.2.2⟩

/-- A write to a slot that exists keeps the canonical form. -/
theorem Memory.wf_write {n i : Nat} {m : Memory} (v : Byte) (hn : i < n) (h : Memory.wf n m = true) :
    Memory.wf n (Memory.write m i v) = true :=
  Memory.wfFrom_write v hn (Nat.zero_le i) h

@[simp] theorem Memory.wf_nil (n : Nat) : Memory.wf n [] = true := rfl

end Sys2Proof.Machine
end

