-- ==== Sys2Proof/Laws/Rings.lean ====
section
/-! SUPPORT. The index arithmetic and the ring operations: one lemma per field and operation. -/

namespace Sys2Proof.Machine

/-- On `0 .. N-1`, `inc_N` is addition of 1 modulo `N` (00_scope.md R16 (a)). -/
theorem inc_eq_mod {n i : Nat} (h : i < n) : inc n i = (i + 1) % n := by
  unfold inc
  split
  · have : i + 1 = n := by omega
    simp [this]
  · exact (Nat.mod_eq_of_lt (by omega)).symm

/-- "`inc_N(h) != h` for `N >= 2`" (40_receive_path.md R101 (b)). -/
theorem inc_ne {n i : Nat} (h : 2 ≤ n) : inc n i ≠ i := by
  unfold inc
  split <;> omega

/-- Advancing is injective. -/
theorem inc_inj {n i j : Nat} (h : inc n i = inc n j) : i = j := by
  unfold inc at h
  split at h <;> split at h <;> omega

theorem RingBuf.isEmpty_iff (r : RingBuf) : r.isEmpty = true ↔ r.head = r.tail := by
  simp [RingBuf.isEmpty]

theorem RingBuf.isEmpty_eq_false (r : RingBuf) : r.isEmpty = false ↔ r.head ≠ r.tail := by
  simp [RingBuf.isEmpty]

theorem RingBuf.isFull_iff (r : RingBuf) : r.isFull = true ↔ inc r.cap r.head = r.tail := by
  simp [RingBuf.isFull]

/-- Two rings with the same parameters, bytes and indices are the same ring. -/
theorem RingBuf.eq_of_fields {r q : RingBuf} (hc : r.cap = q.cap) (hb : r.buf = q.buf) (hh : r.head = q.head)
    (ht : r.tail = q.tail) : r = q := by
  cases r; cases q; simp_all

@[simp] theorem RingBuf.store_cap (r : RingBuf) (b : Byte) : (r.store b).cap = r.cap := rfl
@[simp] theorem RingBuf.store_head (r : RingBuf) (b : Byte) : (r.store b).head = inc r.cap r.head := rfl
@[simp] theorem RingBuf.store_tail (r : RingBuf) (b : Byte) : (r.store b).tail = r.tail := rfl
@[simp] theorem RingBuf.store_buf (r : RingBuf) (b : Byte) : (r.store b).buf = Memory.write r.buf r.head b := rfl
@[simp] theorem RingBuf.advance_cap (r : RingBuf) : r.advance.cap = r.cap := rfl
@[simp] theorem RingBuf.advance_head (r : RingBuf) : r.advance.head = r.head := rfl
@[simp] theorem RingBuf.advance_tail (r : RingBuf) : r.advance.tail = inc r.cap r.tail := rfl
@[simp] theorem RingBuf.advance_buf (r : RingBuf) : r.advance.buf = r.buf := rfl
@[simp] theorem RingBuf.advance_slot (r : RingBuf) (i : Nat) : r.advance.slot i = r.slot i := rfl
@[simp] theorem RingBuf.empty_cap (n : Nat) (h : 2 ≤ n) : (RingBuf.empty n h).cap = n := rfl
@[simp] theorem RingBuf.empty_head (n : Nat) (h : 2 ≤ n) : (RingBuf.empty n h).head = 0 := rfl
@[simp] theorem RingBuf.empty_tail (n : Nat) (h : 2 ≤ n) : (RingBuf.empty n h).tail = 0 := rfl
@[simp] theorem RingBuf.empty_buf (n : Nat) (h : 2 ≤ n) : (RingBuf.empty n h).buf = [] := rfl

/-- The byte at the tail is the byte of slot `tail`. -/
theorem RingBuf.slot_tail (r : RingBuf) : r.slot r.tail = some r.front := by
  simp [RingBuf.slot, RingBuf.front, r.tail_lt]

/-- Each slot after a head-indexed store. -/
theorem RingBuf.store_slot {r : RingBuf} (h : Memory.wf r.cap r.buf = true) (b : Byte) (i : Nat) :
    (r.store b).slot i = if i = r.head then some b else r.slot i := by
  have hh := r.head_lt
  by_cases hi : i = r.head
  · simp [RingBuf.slot, Memory.read_write h, hi, hh]
  · simp [RingBuf.slot, Memory.read_write h, hi]

/-- A head-indexed store keeps the canonical form. -/
theorem RingBuf.store_wf {r : RingBuf} (h : Memory.wf r.cap r.buf = true) (b : Byte) :
    Memory.wf (r.store b).cap (r.store b).buf = true :=
  Memory.wf_write b r.head_lt h

/-- What a store at a saved index gives, if it gives a ring. -/
theorem RingBuf.writeAt_eq {r q : RingBuf} {i : Nat} {b : Byte} (h : r.writeAt i b = some q) :
    i < r.cap ∧ q.cap = r.cap ∧ q.buf = Memory.write r.buf i b ∧ q.head = r.head ∧ q.tail = r.tail := by
  unfold RingBuf.writeAt at h
  split at h
  · cases h; exact ⟨‹_›, rfl, rfl, rfl, rfl⟩
  · cases h

/-- What an advance of the head past a saved index gives, if it gives a ring. -/
theorem RingBuf.headPast_eq {r q : RingBuf} {i : Nat} (h : r.headPast i = some q) :
    i < r.cap ∧ q.cap = r.cap ∧ q.buf = r.buf ∧ q.head = inc r.cap i ∧ q.tail = r.tail := by
  unfold RingBuf.headPast at h
  split at h
  · cases h; exact ⟨‹_›, rfl, rfl, rfl, rfl⟩
  · cases h

/-- What an advance of the tail past a saved index gives, if it gives a ring. -/
theorem RingBuf.tailPast_eq {r q : RingBuf} {i : Nat} (h : r.tailPast i = some q) :
    i < r.cap ∧ q.cap = r.cap ∧ q.buf = r.buf ∧ q.head = r.head ∧ q.tail = inc r.cap i := by
  unfold RingBuf.tailPast at h
  split at h
  · cases h; exact ⟨‹_›, rfl, rfl, rfl, rfl⟩
  · cases h

end Sys2Proof.Machine
end

