-- ==== Sys2Proof/Laws/Pending.lean ====
section
/-! SUPPORT. The count and the pending bytes of a ring (10_state.md R32, R33): what a store and an advance do to them. -/

namespace Sys2Proof.Machine

/-- The two cases of `(h - t) mod N`. -/
theorem RingBuf.count_cases (r : RingBuf) :
    (r.tail ≤ r.head ∧ r.count = r.head - r.tail) ∨ (r.head < r.tail ∧ r.count = r.head + r.cap - r.tail) := by
  have := r.head_lt
  have := r.tail_lt
  unfold RingBuf.count
  by_cases h : r.tail ≤ r.head
  · refine .inl ⟨h, ?_⟩
    rw [show r.head + r.cap - r.tail = (r.head - r.tail) + r.cap by omega, Nat.add_mod_right,
      Nat.mod_eq_of_lt (by omega)]
  · exact .inr ⟨by omega, Nat.mod_eq_of_lt (by omega)⟩

theorem RingBuf.count_lt (r : RingBuf) : r.count < r.cap :=
  Nat.mod_lt _ (by have := r.two_le_cap; omega)

theorem RingBuf.count_eq_zero_iff (r : RingBuf) : r.count = 0 ↔ r.isEmpty = true := by
  have := r.count_cases
  have := r.head_lt
  have := r.tail_lt
  rw [RingBuf.isEmpty_iff]
  omega

/-- A ring of two slots or more is never empty and full at once. -/
theorem RingBuf.not_full_of_empty {r : RingBuf} (h : r.isEmpty = true) : r.isFull = false := by
  rw [RingBuf.isEmpty_iff] at h
  have := inc_ne (i := r.head) r.two_le_cap
  cases hf : r.isFull
  · rfl
  · exact absurd ((RingBuf.isFull_iff r).1 hf) (by omega)

/-- A store on a full ring makes the ring read empty (40_receive_path.md R102 point 2). -/
theorem RingBuf.store_empty_of_full {r : RingBuf} (h : r.isFull = true) (b : Byte) : (r.store b).isEmpty = true :=
  (RingBuf.isEmpty_iff _).2 ((RingBuf.isFull_iff r).1 h)

/-- The walk past the last pending byte ends at the head. -/
theorem RingBuf.tail_add_count (r : RingBuf) : (r.tail + r.count) % r.cap = r.head := by
  have := r.head_lt
  have := r.tail_lt
  rcases r.count_cases with ⟨h, e⟩ | ⟨h, e⟩ <;> rw [e]
  · rw [show r.tail + (r.head - r.tail) = r.head by omega, Nat.mod_eq_of_lt (by omega)]
  · rw [show r.tail + (r.head + r.cap - r.tail) = r.head + r.cap by omega, Nat.add_mod_right,
      Nat.mod_eq_of_lt (by omega)]

/-- No pending byte stands in the slot at the head (40_receive_path.md R101 (d)). -/
theorem RingBuf.pending_slot_ne_head (r : RingBuf) {k : Nat} (hk : k < r.count) : (r.tail + k) % r.cap ≠ r.head := by
  have := r.head_lt
  have := r.tail_lt
  have := r.count_cases
  by_cases h : r.tail + k < r.cap
  · rw [Nat.mod_eq_of_lt h]
    omega
  · rw [show r.tail + k = (r.tail + k - r.cap) + r.cap by omega, Nat.add_mod_right, Nat.mod_eq_of_lt (by omega)]
    omega

theorem RingBuf.count_store {r : RingBuf} (hf : r.isFull = false) (b : Byte) : (r.store b).count = r.count + 1 := by
  have hf : inc r.cap r.head ≠ r.tail := fun h => by rw [(RingBuf.isFull_iff r).2 h] at hf; cases hf
  have h1 := r.count_cases
  have h2 := (r.store b).count_cases
  have := r.head_lt
  have := r.tail_lt
  have := r.two_le_cap
  simp only [RingBuf.store_head, RingBuf.store_tail, RingBuf.store_cap] at h2
  unfold inc at h2 hf
  split at h2 <;> rename_i hh <;> simp only [hh, if_true, if_false] at hf <;> omega

theorem RingBuf.count_advance {r : RingBuf} (he : r.isEmpty = false) : r.count = r.advance.count + 1 := by
  rw [RingBuf.isEmpty_eq_false] at he
  have h1 := r.count_cases
  have h2 := r.advance.count_cases
  have := r.head_lt
  have := r.tail_lt
  have := r.two_le_cap
  simp only [RingBuf.advance_head, RingBuf.advance_tail, RingBuf.advance_cap] at h2
  unfold inc at h2
  split at h2 <;> omega

@[simp] theorem Memory.length_walk (n : Nat) (m : Memory) (t k : Nat) : (Memory.walk n m t k).length = k := by
  induction k generalizing t with
  | zero => rfl
  | succ k ih => simp [Memory.walk, ih]

/-- Two stores that agree on the slots walked give the same bytes. -/
theorem Memory.walk_congr {n : Nat} {m m' : Memory} {t : Nat} (ht : t < n) {k : Nat}
    (h : ∀ j, j < k → Memory.read m ((t + j) % n) = Memory.read m' ((t + j) % n)) :
    Memory.walk n m t k = Memory.walk n m' t k := by
  induction k generalizing t with
  | zero => rfl
  | succ k ih =>
    have h0 := h 0 (by omega)
    rw [Nat.add_zero, Nat.mod_eq_of_lt ht] at h0
    rw [Memory.walk, Memory.walk, h0, ih (inc_lt ht)]
    intro j hj
    have := h (j + 1) (by omega)
    rw [inc_eq_mod ht, Nat.mod_add_mod]
    rwa [show t + (j + 1) = t + 1 + j by omega] at this

/-- The last byte of a walk. -/
theorem Memory.walk_succ {n : Nat} (m : Memory) {t : Nat} (ht : t < n) (k : Nat) :
    Memory.walk n m t (k + 1) = Memory.walk n m t k ++ [Memory.read m ((t + k) % n)] := by
  induction k generalizing t with
  | zero => simp [Memory.walk, Nat.mod_eq_of_lt ht]
  | succ k ih =>
    rw [Memory.walk, ih (inc_lt ht), Memory.walk, inc_eq_mod ht, Nat.mod_add_mod,
      show t + (k + 1) = t + 1 + k by omega]
    rfl

/-- A store on a ring that is not full appends its byte. -/
theorem RingBuf.pending_store {r : RingBuf} (hw : Memory.wf r.cap r.buf = true) (hf : r.isFull = false) (b : Byte) :
    (r.store b).pending = r.pending ++ [b] := by
  unfold RingBuf.pending
  rw [RingBuf.count_store hf b, RingBuf.store_cap, RingBuf.store_tail, RingBuf.store_buf,
    Memory.walk_succ _ r.tail_lt, RingBuf.tail_add_count, Memory.read_write hw, if_pos rfl]
  congr 1
  exact Memory.walk_congr r.tail_lt fun j hj => by
    rw [Memory.read_write hw, if_neg (r.pending_slot_ne_head hj)]

/-- An advance on a ring that is not empty takes the byte at the tail away. -/
theorem RingBuf.pending_advance {r : RingBuf} (he : r.isEmpty = false) : r.pending = r.front :: r.advance.pending := by
  unfold RingBuf.pending
  rw [RingBuf.count_advance he]
  rfl

theorem RingBuf.pending_eq_nil_iff (r : RingBuf) : r.pending = [] ↔ r.isEmpty = true := by
  rw [← RingBuf.count_eq_zero_iff, RingBuf.pending, List.eq_nil_iff_length_eq_zero, Memory.length_walk]

end Sys2Proof.Machine
end

