-- ==== Sys2Proof/Laws/PerInstr.lean ====
section
/-! SUPPORT. Facts of every operation as syntax, one lemma per constructor. -/

namespace Sys2Proof.Laws.RowOfTable

/-- Exactly the row of the opcode map that bears the operation's mnemonic matches its event word
(30_encoding.md R77). -/
def Statement (i : Instr) : Prop :=
  (opcodeTable.filter (·.matches (encode i))).map (·.mnemonic) = [i.mnemonic]

theorem idle : Statement .idle := by unfold Statement; decide

theorem rxi (b : Byte) : Statement (.rxi b) := by
  unfold Statement; revert b; decide

theorem take : Statement .take := by unfold Statement; decide

theorem send (b : Byte) : Statement (.send b) := by
  unfold Statement; revert b; decide

theorem txc : Statement .txc := by unfold Statement; decide

theorem tick : Statement .tick := by unfold Statement; decide

theorem elapsed : Statement .elapsed := by unfold Statement; decide

/-- The masks of the opcode map keep of a `LOADCD` word only bits that its operand does not reach. -/
theorem loadcd_masked (v : Half) :
    (0x70000#20 ||| v.setWidth 20) &&& 0xF0000#20 = 0x70000#20 := by
  apply BitVec.eq_of_getLsbD_eq
  intro k hk
  simp only [BitVec.getLsbD_and, BitVec.getLsbD_or, BitVec.getLsbD_setWidth]
  by_cases h16 : k < 16
  · have : (0xF0000#20).getLsbD k = false := by revert h16; revert k; decide
    have h7 : (0x70000#20).getLsbD k = false := by revert h16; revert k; decide
    simp [this, h7]
  · have : v.getLsbD k = false := BitVec.getLsbD_of_ge v k (by omega)
    simp only [this, Bool.and_false, Bool.or_false]
    clear this
    revert h16 hk; revert k; decide

/-- A word whose masked high digit is 7 is no other row's. -/
theorem matches_high {r : OpcodeRow} {w : EventWord} (hm : r.mask &&& 0xF0000 = 0xF0000)
    (h : r.matches w = true) : w &&& 0xF0000 = r.pattern &&& 0xF0000 := by
  have h := beq_iff_eq.1 h
  rw [← h, BitVec.and_assoc, hm]

theorem loadcd (v : Half) : Statement (.loadcd v) := by
  have hw : encode (.loadcd v) &&& 0xF0000 = 0x70000 := loadcd_masked v
  have hno : ∀ r ∈ opcodeTable, r.mnemonic ≠ "LOADCD" → r.matches (encode (.loadcd v)) = false := by
    intro r hr hn
    cases hm : r.matches (encode (.loadcd v))
    · rfl
    · exfalso
      have hall : ∀ r ∈ opcodeTable, r.mask &&& 0xF0000 = 0xF0000 ∧
          (r.mnemonic ≠ "LOADCD" → r.pattern &&& 0xF0000 ≠ 0x70000) := by decide
      exact (hall r hr).2 hn ((matches_high (hall r hr).1 hm).symm.trans hw)
  have h7 : OpcodeRow.matches ⟨"LOADCD", 0x70000, 0xF0000⟩ (encode (.loadcd v)) = true :=
    beq_iff_eq.2 hw
  unfold Statement
  have hf : opcodeTable.filter (·.matches (encode (.loadcd v))) = opcodeTable.filter (·.mnemonic == "LOADCD") := by
    apply List.filter_congr
    intro r hr
    by_cases hn : r.mnemonic = "LOADCD"
    · have : r = ⟨"LOADCD", 0x70000, 0xF0000⟩ := by
        have hu : ∀ r ∈ opcodeTable, r.mnemonic = "LOADCD" → r = ⟨"LOADCD", 0x70000, 0xF0000⟩ := by decide
        exact hu r hr hn
      rw [this, h7]; rfl
    · simp [hno r hr hn, hn]
  rw [hf]
  rfl

end Sys2Proof.Laws.RowOfTable
end

