-- ==== Sys2Proof/Laws/State.lean ====
section
/-! SUPPORT. The state: one lemma per field and shared update, and what each meaning can do. -/

namespace Sys2Proof.Machine

@[simp] theorem State.emit_cfg (s : State) (o : Output) : (s.emit o).cfg = s.cfg := rfl
@[simp] theorem State.emit_rx (s : State) (o : Output) : (s.emit o).rx = s.rx := rfl
@[simp] theorem State.emit_tx (s : State) (o : Output) : (s.emit o).tx = s.tx := rfl
@[simp] theorem State.emit_txBusy (s : State) (o : Output) : (s.emit o).txBusy = s.txBusy := rfl
@[simp] theorem State.emit_countdown (s : State) (o : Output) : (s.emit o).countdown = s.countdown := rfl
@[simp] theorem State.emit_rxDropCnt (s : State) (o : Output) : (s.emit o).rxDropCnt = s.rxDropCnt := rfl
@[simp] theorem State.emit_txDropCnt (s : State) (o : Output) : (s.emit o).txDropCnt = s.txDropCnt := rfl
@[simp] theorem State.emit_fg (s : State) (o : Output) : (s.emit o).fg = s.fg := rfl
@[simp] theorem State.emit_host (s : State) (o : Output) : (s.emit o).host = s.host := rfl
@[simp] theorem State.emit_inputs (s : State) (o : Output) : (s.emit o).inputs = s.inputs := rfl
@[simp] theorem State.emit_outs (s : State) (o : Output) : (s.emit o).outs = [o] := rfl

@[simp] theorem State.hostIssues_host (s : State) : s.hostIssues.host = { s.host with issued := true } := rfl
@[simp] theorem State.hostIssues_midOperation (s : State) : s.hostIssues.midOperation = s.midOperation := rfl
@[simp] theorem State.hostIssues_cfg (s : State) : s.hostIssues.cfg = s.cfg := rfl
@[simp] theorem State.hostIssues_lastResp (s : State) : s.hostIssues.lastResp = s.lastResp := rfl

/-- Everything the host does when it hears an answer: only the host changes, and only when its event is done. -/
theorem State.hostHears_eq (s : State) :
    s.hostHears = { s with host :=
      if s.host.issued = true ∧ s.midOperation = false then s.host.after s.cfg s.lastResp else s.host } := by
  unfold State.hostHears
  cases s.host.issued <;> cases s.midOperation <;> rfl

@[simp] theorem State.hostHears_cfg (s : State) : s.hostHears.cfg = s.cfg := by simp [State.hostHears_eq]
@[simp] theorem State.hostHears_rx (s : State) : s.hostHears.rx = s.rx := by simp [State.hostHears_eq]
@[simp] theorem State.hostHears_tx (s : State) : s.hostHears.tx = s.tx := by simp [State.hostHears_eq]
@[simp] theorem State.hostHears_txBusy (s : State) : s.hostHears.txBusy = s.txBusy := by simp [State.hostHears_eq]
@[simp] theorem State.hostHears_countdown (s : State) : s.hostHears.countdown = s.countdown := by
  simp [State.hostHears_eq]
@[simp] theorem State.hostHears_rxDropCnt (s : State) : s.hostHears.rxDropCnt = s.rxDropCnt := by
  simp [State.hostHears_eq]
@[simp] theorem State.hostHears_txDropCnt (s : State) : s.hostHears.txDropCnt = s.txDropCnt := by
  simp [State.hostHears_eq]
@[simp] theorem State.hostHears_fg (s : State) : s.hostHears.fg = s.fg := by simp [State.hostHears_eq]
@[simp] theorem State.hostHears_outs (s : State) : s.hostHears.outs = s.outs := by simp [State.hostHears_eq]
@[simp] theorem State.hostHears_inputs (s : State) : s.hostHears.inputs = s.inputs := by simp [State.hostHears_eq]
@[simp] theorem State.hostHears_midOperation (s : State) : s.hostHears.midOperation = s.midOperation := by
  simp [State.midOperation]

/-- While the event is not done, the host stays where it is. -/
theorem State.hostHears_of_midOperation {s : State} (h : s.midOperation = true) : s.hostHears = s := by
  simp [State.hostHears, h]

/-- With no event issued there is nothing to hear. -/
theorem State.hostHears_of_not_issued {s : State} (h : s.host.issued = false) : s.hostHears = s := by
  simp [State.hostHears, h]

/-- With `ATOMIC_FG = true` no operation is ever in progress. -/
@[simp] theorem State.not_midOperation_of_atomic {s : State} (h : s.cfg.atomicFg = true) : s.midOperation = false := by
  simp [State.midOperation, h]

/-- Between operations none is in progress. -/
@[simp] theorem State.not_midOperation_of_idle {s : State} (h : s.fg = .idle) : s.midOperation = false := by
  simp [State.midOperation, h]

/-- With `ATOMIC_FG = true` every operation is performed whole. -/
@[simp] theorem State.runsWhole_of_atomic {s : State} (h : s.cfg.atomicFg = true) : s.runsWhole = true := by
  simp [State.runsWhole, h]

/-- An operation raised in the middle of another is performed whole. -/
@[simp] theorem State.runsWhole_of_midOperation {s : State} (h : s.midOperation = true) : s.runsWhole = true := by
  simp [State.runsWhole, h]

/-- An operation is split exactly where the foreground starts it with `ATOMIC_FG = false`. -/
theorem State.runsWhole_eq_false {s : State} : s.runsWhole = false ↔ s.cfg.atomicFg = false ∧ s.fg = .idle := by
  unfold State.runsWhole State.midOperation
  cases s.cfg.atomicFg <;> simp

/-- A countdown operation that answers a next state was not turned away. -/
theorem State.asCountdown_next {s t : State} {k : State → Result State} (h : s.asCountdown k = .next t) :
    s.cfg.hasTick = true ∧ k s = .next t := by
  unfold State.asCountdown at h
  split at h
  · exact ⟨‹_›, h⟩
  · cases h

/-- Everything `RXI` can do. -/
theorem execRxi_next {b : Byte} {s t : State} (h : execRxi b s = .next t) :
    ((s.cfg.ovfRx = .dropNewest ∧ s.rx.isFull = true) ∧
      t = { s with rxDropCnt := satInc s.rxDropCnt, outs := [.quiet] }) ∨
    (¬(s.cfg.ovfRx = .dropNewest ∧ s.rx.isFull = true) ∧ t = { s with rx := s.rx.store b, outs := [.quiet] }) := by
  unfold execRxi at h
  split at h <;> cases h
  · exact .inl ⟨‹_›, rfl⟩
  · exact .inr ⟨‹_›, rfl⟩

/-- Everything an atomic `TAKE` can do. -/
theorem takeAtomic_next {s t : State} (h : takeAtomic s = .next t) :
    (s.rx.isEmpty = true ∧ t = { s with outs := [.answer .empty] }) ∨
    (s.rx.isEmpty = false ∧ t = { s with rx := s.rx.advance, outs := [.answer (.byte s.rx.front)] }) := by
  unfold takeAtomic at h
  split at h <;> cases h
  · exact .inl ⟨‹_›, rfl⟩
  · exact .inr ⟨by simp_all, rfl⟩

/-- Everything `TAKE.a` can do. -/
theorem takeA_next {s t : State} (h : takeA s = .next t) :
    (s.rx.isEmpty = true ∧ t = { s with outs := [.answer .empty] }) ∨
    (s.rx.isEmpty = false ∧ t = { s with fg := .takeB s.rx.head s.rx.tail, outs := [.quiet] }) := by
  unfold takeA at h
  split at h <;> cases h
  · exact .inl ⟨‹_›, rfl⟩
  · exact .inr ⟨by simp_all, rfl⟩

/-- Everything `TAKE` can do. -/
theorem execTake_next {s t : State} (h : execTake s = .next t) :
    (s.runsWhole = true ∧ takeAtomic s = .next t) ∨ (s.cfg.atomicFg = false ∧ s.fg = .idle ∧ takeA s = .next t) := by
  unfold execTake at h
  split at h
  · exact .inl ⟨‹_›, h⟩
  · rename_i hw
    obtain ⟨ha, hi⟩ := State.runsWhole_eq_false.1 (by simpa using hw)
    exact .inr ⟨ha, hi, h⟩

/-- Everything an atomic `SEND` can do. -/
theorem sendAtomic_next {b : Byte} {s t : State} (h : sendAtomic b s = .next t) :
    (s.sendPath = .fast ∧ t = { s with txBusy := true, outs := [.write b] }) ∨
    (s.sendPath = .drop ∧ t = { s with txDropCnt := satInc s.txDropCnt, outs := [.quiet] }) ∨
    (s.sendPath = .buffered ∧ t = { s with tx := s.tx.store b, outs := [.quiet] }) := by
  unfold sendAtomic at h
  split at h <;> cases h
  · exact .inl ⟨‹_›, rfl⟩
  · exact .inr (.inl ⟨‹_›, rfl⟩)
  · exact .inr (.inr ⟨‹_›, rfl⟩)

/-- Everything `SEND` can do. -/
theorem execSend_next {b : Byte} {s t : State} (h : execSend b s = .next t) :
    (s.runsWhole = true ∧ sendAtomic b s = .next t) ∨ (s.cfg.atomicFg = false ∧ s.fg = .idle ∧ sendA b s = .next t) := by
  unfold execSend at h
  split at h
  · exact .inl ⟨‹_›, h⟩
  · rename_i hw
    obtain ⟨ha, hi⟩ := State.runsWhole_eq_false.1 (by simpa using hw)
    exact .inr ⟨ha, hi, h⟩

/-- When `SEND` takes the fast path. -/
theorem State.sendPath_fast {s : State} : s.sendPath = .fast ↔ s.tx.isEmpty = true ∧ s.txBusy = false := by
  unfold State.sendPath
  split <;> simp_all
  split <;> simp_all

/-- Everything `TXC` can do. -/
theorem execTxc_next {s t : State} (h : execTxc s = .next t) :
    (s.tx.isEmpty = true ∧ t = { s with txBusy := false, outs := [.quiet] }) ∨
    (s.tx.isEmpty = false ∧ t = { s with tx := s.tx.advance, txBusy := true, outs := [.write s.tx.front] }) := by
  unfold execTxc at h
  split at h <;> cases h
  · exact .inl ⟨‹_›, rfl⟩
  · exact .inr ⟨by simp_all, rfl⟩

/-- Everything `TICK` can do. -/
theorem execTick_next {s t : State} (h : execTick s = .next t) :
    s.cfg.hasTick = true ∧ t = { s with countdown := satDec s.countdown, outs := [.quiet] } := by
  obtain ⟨hc, h⟩ := State.asCountdown_next h
  cases h
  exact ⟨hc, rfl⟩

/-- Everything `ELAPSED` can do. -/
theorem execElapsed_next {s t : State} (h : execElapsed s = .next t) :
    s.cfg.hasTick = true ∧ t = { s with outs := [.answer (.flag (s.countdown == 0))] } := by
  obtain ⟨hc, h⟩ := State.asCountdown_next h
  cases h
  exact ⟨hc, rfl⟩

/-- Everything `LOADCD v` can do. -/
theorem execLoadcd_next {v : Half} {s t : State} (h : execLoadcd v s = .next t) :
    s.cfg.hasTick = true ∧ t = { s with countdown := v, outs := [.quiet] } := by
  obtain ⟨hc, h⟩ := State.asCountdown_next h
  cases h
  exact ⟨hc, rfl⟩

/-- Everything `IDLE` can do. -/
theorem execIdle_next {s t : State} (h : execIdle s = .next t) : t = { s with outs := [.quiet] } := by
  cases h; rfl

/-- No operation touches what is not the block's nor the foreground's: the parameters, the host, the schedule. -/
theorem exec_keeps_outside {i : Instr} {s t : State} (h : exec i s = .next t) :
    t.cfg = s.cfg ∧ t.host = s.host ∧ t.inputs = s.inputs := by
  cases i with
  | idle => cases h; exact ⟨rfl, rfl, rfl⟩
  | rxi b => rcases execRxi_next h with ⟨_, rfl⟩ | ⟨_, rfl⟩ <;> exact ⟨rfl, rfl, rfl⟩
  | take =>
    rcases execTake_next h with ⟨_, h⟩ | ⟨_, _, h⟩
    · rcases takeAtomic_next h with ⟨_, rfl⟩ | ⟨_, rfl⟩ <;> exact ⟨rfl, rfl, rfl⟩
    · rcases takeA_next h with ⟨_, rfl⟩ | ⟨_, rfl⟩ <;> exact ⟨rfl, rfl, rfl⟩
  | send b =>
    rcases execSend_next h with ⟨_, h⟩ | ⟨_, _, h⟩
    · rcases sendAtomic_next h with ⟨_, rfl⟩ | ⟨_, rfl⟩ | ⟨_, rfl⟩ <;> exact ⟨rfl, rfl, rfl⟩
    · cases h; exact ⟨rfl, rfl, rfl⟩
  | txc => rcases execTxc_next h with ⟨_, rfl⟩ | ⟨_, rfl⟩ <;> exact ⟨rfl, rfl, rfl⟩
  | tick => obtain ⟨_, rfl⟩ := execTick_next h; exact ⟨rfl, rfl, rfl⟩
  | elapsed => obtain ⟨_, rfl⟩ := execElapsed_next h; exact ⟨rfl, rfl, rfl⟩
  | loadcd v => obtain ⟨_, rfl⟩ := execLoadcd_next h; exact ⟨rfl, rfl, rfl⟩

/-- With `ATOMIC_FG = true` the reference host's event is done at once, and the host goes on to its next place. -/
theorem execHost_of_atomic {s t : State} (ha : s.cfg.atomicFg = true) (h : exec (s.host.pos.event s.cfg) s = .next t) :
    execHost s = .next { t with host := s.host.after s.cfg t.lastResp } := by
  obtain ⟨hc, hh, _⟩ := exec_keeps_outside h
  have hm : s.midOperation = false := State.not_midOperation_of_atomic ha
  have ht : t.midOperation = false := State.not_midOperation_of_atomic (by rw [hc]; exact ha)
  have hl : t.hostIssues.hostHears = { t with host := s.host.after s.cfg t.lastResp } := by
    rw [State.hostHears_eq]
    simp only [State.hostIssues_host, State.hostIssues_midOperation, State.hostIssues_cfg, State.hostIssues_lastResp, ht,
      and_self, if_true, hh, hc]
    rfl
  simp [execHost, hm, h, hl]

/-- An operation raised in the middle of a split one leaves the foreground's temporaries (60_exceptions.md R193). -/
theorem exec_keeps_fg_of_midOperation {i : Instr} {s t : State} (hm : s.midOperation = true) (h : exec i s = .next t) :
    t.fg = s.fg := by
  have hne : s.fg ≠ .idle := by simp [State.midOperation] at hm; exact hm.2
  cases i with
  | idle => cases h; rfl
  | rxi b => rcases execRxi_next h with ⟨_, rfl⟩ | ⟨_, rfl⟩ <;> rfl
  | take =>
    rcases execTake_next h with ⟨_, h⟩ | ⟨_, hi, _⟩
    · rcases takeAtomic_next h with ⟨_, rfl⟩ | ⟨_, rfl⟩ <;> rfl
    · exact absurd hi hne
  | send b =>
    rcases execSend_next h with ⟨_, h⟩ | ⟨_, hi, _⟩
    · rcases sendAtomic_next h with ⟨_, rfl⟩ | ⟨_, rfl⟩ | ⟨_, rfl⟩ <;> rfl
    · exact absurd hi hne
  | txc => rcases execTxc_next h with ⟨_, rfl⟩ | ⟨_, rfl⟩ <;> rfl
  | tick => obtain ⟨_, rfl⟩ := execTick_next h; rfl
  | elapsed => obtain ⟨_, rfl⟩ := execElapsed_next h; rfl
  | loadcd v => obtain ⟨_, rfl⟩ := execLoadcd_next h; rfl

/-- An operation of the interrupt context touches neither the foreground's temporaries nor `rx_tail`, nor the parameters. -/
theorem exec_irq_keeps {i : Instr} {s t : State} (hi : i.context ≠ .fg) (h : exec i s = .next t) :
    t.fg = s.fg ∧ t.rx.tail = s.rx.tail ∧ t.cfg = s.cfg := by
  cases i with
  | idle => cases h; exact ⟨rfl, rfl, rfl⟩
  | rxi b => rcases execRxi_next h with ⟨_, rfl⟩ | ⟨_, rfl⟩ <;> exact ⟨rfl, rfl, rfl⟩
  | take => exact absurd rfl hi
  | send b => exact absurd rfl hi
  | txc => rcases execTxc_next h with ⟨_, rfl⟩ | ⟨_, rfl⟩ <;> exact ⟨rfl, rfl, rfl⟩
  | tick => obtain ⟨_, rfl⟩ := execTick_next h; exact ⟨rfl, rfl, rfl⟩
  | elapsed => exact absurd rfl hi
  | loadcd v => exact absurd rfl hi

/-- The state after `RESET` (70_reset_and_hazards.md R210). -/
theorem execReset_next {s t : State} (h : execReset s = .next t) :
    t = { State.init s.rx.cap s.tx.cap s.rx.two_le_cap s.tx.two_le_cap s.cfg with
          host := { s.host with issued := false }, outs := [.quiet], inputs := s.inputs } := by
  cases h; rfl

/-- The path of `SEND` by the conditions of 70_reset_and_hazards.md R234. -/
theorem State.sendPath_eq (s : State) :
    s.sendPath = if s.tx.head = s.tx.tail ∧ s.txBusy = false then .fast
      else if s.cfg.ovfTx = .dropNewest ∧ inc s.tx.cap s.tx.head = s.tx.tail then .drop
      else .buffered := by
  have h1 := RingBuf.isEmpty_iff s.tx
  have h2 := RingBuf.isFull_iff s.tx
  unfold State.sendPath
  by_cases a : s.tx.head = s.tx.tail ∧ s.txBusy = false
  · have : (s.tx.isEmpty && !s.txBusy) = true := by simp [h1.2 a.1, a.2]
    rw [if_pos this, if_pos a]
  · have : ¬(s.tx.isEmpty && !s.txBusy) = true := by
      simp
      intro h
      simp [RingBuf.isEmpty_iff] at h
      simpa [h] using a
    rw [if_neg this, if_neg a]
    by_cases b : s.cfg.ovfTx = .dropNewest ∧ inc s.tx.cap s.tx.head = s.tx.tail
    · rw [if_pos ⟨b.1, h2.2 b.2⟩, if_pos b]
    · rw [if_neg (fun h => b ⟨h.1, h2.1 h.2⟩), if_neg b]

/-- Everything a micro-step can do. -/
theorem microOf_next {s t : State} (h : microOf s = .next t) :
    (s.fg = .idle ∧ t = { s with outs := [.quiet] }) ∨
    (∃ i j, s.fg = .takeB i j ∧ j < s.rx.cap ∧
      t = { s with fg := .takeC i j (Memory.read s.rx.buf j), outs := [.quiet] }) ∨
    (∃ i j d r, s.fg = .takeC i j d ∧ s.rx.tailPast j = some r ∧
      t = { s with rx := r, fg := .idle, outs := [.answer (.byte d)] }) ∨
    (∃ b i j q, s.fg = .sendPath b i j q .fast ∧ t = { s with txBusy := true, fg := .idle, outs := [.write b] }) ∨
    (∃ b i j q, s.fg = .sendPath b i j q .drop ∧
      t = { s with txDropCnt := satInc s.txDropCnt, fg := .idle, outs := [.quiet] }) ∨
    (∃ b i j q r, s.fg = .sendPath b i j q .buffered ∧ s.tx.writeAt i b = some r ∧
      t = { s with tx := r, fg := .sendC b i j q, outs := [.quiet] }) ∨
    ∃ b i j q r, s.fg = .sendC b i j q ∧ s.tx.headPast i = some r ∧ t = { s with tx := r, fg := .idle, outs := [.quiet] } := by
  unfold microOf at h
  cases hf : s.fg with
  | idle => rw [hf] at h; exact .inl ⟨rfl, hf ▸ execIdle_next h⟩
  | takeB i j =>
    rw [hf] at h
    simp only [takeB, RingBuf.slot] at h
    split at h <;> cases h
    rename_i d hd
    by_cases hj : j < s.rx.cap
    · rw [if_pos hj] at hd
      cases hd
      exact .inr (.inl ⟨i, j, rfl, hj, by rw [State.emit]⟩)
    · rw [if_neg hj] at hd; cases hd
  | takeC i j d =>
    rw [hf] at h
    simp only [takeC] at h
    split at h <;> cases h
    exact .inr (.inr (.inl ⟨i, j, d, _, rfl, ‹_›, rfl⟩))
  | sendPath b i j q p =>
    rw [hf] at h
    cases p with
    | fast => cases h; exact .inr (.inr (.inr (.inl ⟨b, i, j, q, rfl, rfl⟩)))
    | drop => cases h; exact .inr (.inr (.inr (.inr (.inl ⟨b, i, j, q, rfl, rfl⟩))))
    | buffered =>
      simp only [sendB] at h
      split at h <;> cases h
      exact .inr (.inr (.inr (.inr (.inr (.inl ⟨b, i, j, q, _, rfl, ‹_›, rfl⟩)))))
  | sendC b i j q =>
    rw [hf] at h
    simp only [sendC] at h
    split at h <;> cases h
    exact .inr (.inr (.inr (.inr (.inr (.inr ⟨b, i, j, q, _, rfl, ‹_›, rfl⟩)))))

/-- A run that goes through does its first event, and then the rest. -/
theorem runEvents_cons {e : Event} {es : List Event} {s u : State} {os : List Output}
    (h : runEvents (e :: es) s = some (u, os)) :
    ∃ t os', execEvent e s = .next t ∧ runEvents es t = some (u, os') ∧ os = t.outs ++ os' := by
  unfold runEvents at h
  split at h
  · rename_i t ht
    cases hr : runEvents es t with
    | none => rw [hr] at h; cases h
    | some r => rw [hr] at h; cases h; exact ⟨t, r.2, ht, hr, rfl⟩
  · cases h
  · cases h

/-- Every event has one output (00_scope.md R12). -/
theorem execEvent_one_output {e : Event} {s t : State} (h : execEvent e s = .next t) : ∃ o, t.outs = [o] := by
  cases e with
  | reset => cases h; exact ⟨_, rfl⟩
  | op i =>
    cases i with
    | idle => cases h; exact ⟨_, rfl⟩
    | rxi b => rcases execRxi_next h with ⟨_, rfl⟩ | ⟨_, rfl⟩ <;> exact ⟨_, rfl⟩
    | take =>
      rcases execTake_next h with ⟨_, h⟩ | ⟨_, _, h⟩
      · rcases takeAtomic_next h with ⟨_, rfl⟩ | ⟨_, rfl⟩ <;> exact ⟨_, rfl⟩
      · rcases takeA_next h with ⟨_, rfl⟩ | ⟨_, rfl⟩ <;> exact ⟨_, rfl⟩
    | send b =>
      rcases execSend_next h with ⟨_, h⟩ | ⟨_, _, h⟩
      · rcases sendAtomic_next h with ⟨_, rfl⟩ | ⟨_, rfl⟩ | ⟨_, rfl⟩ <;> exact ⟨_, rfl⟩
      · cases h; exact ⟨_, rfl⟩
    | txc => rcases execTxc_next h with ⟨_, rfl⟩ | ⟨_, rfl⟩ <;> exact ⟨_, rfl⟩
    | tick => obtain ⟨_, rfl⟩ := execTick_next h; exact ⟨_, rfl⟩
    | elapsed => obtain ⟨_, rfl⟩ := execElapsed_next h; exact ⟨_, rfl⟩
    | loadcd v => obtain ⟨_, rfl⟩ := execLoadcd_next h; exact ⟨_, rfl⟩

end Sys2Proof.Machine
end

