-- ==== Sys2Proof/Tests/Slice0.lean ====
section
/-! SUPPORT. The model's own tests. Expected values are those of spec/95_test_vectors.md (S, V, P numbers), of the worked
examples of the rules, or worked out by hand from the encoding tables of 30_encoding.md. The `test_witness_` theorems show
for each statement of Certificates/Slice0/Obligations.lean with hypotheses that something meets them. -/

namespace Sys2Proof.Tests

open Sys2Proof Sys2Proof.Machine

/-! ### Small states -/

/-- The listed slots of a store whose slots hold the given bytes, from slot `i` on. -/
def stored : Nat → List Byte → Memory
  | _, [] => []
  | i, b :: bs => if b = 0 then stored (i + 1) bs else (i, b) :: stored (i + 1) bs

/-- A ring of four slots. -/
def ring (a b c d : Byte) (h t : Fin 4) : RingBuf :=
  ⟨4, stored 0 [a, b, c, d], h.1, t.1, by decide, h.2, t.2⟩

/-- An empty ring of four slots after reset. -/
def fresh : RingBuf := ring 0 0 0 0 0 0

/-- This hardware with rings of four slots (the vectors' `N_RX = N_TX = 4`). -/
def small : State := State.init 4 4 (by decide) (by decide) Config.thisHardware

def dropping : Config := { Config.thisHardware with ovfRx := .dropNewest, ovfTx := .dropNewest }
def split : Config := { Config.thisHardware with atomicFg := false }
def untimed : Config := { Config.thisHardware with hasTick := false }

/-- A ring that holds 0x11, 0x22 and 0x33 and is full. -/
def full : RingBuf := ring 0x11 0x22 0x33 0 3 0

/-- A state with three bytes in each ring, the transmitter busy and two ticks to go. -/
def loaded : State := { small with rx := full, tx := full, txBusy := true, countdown := 2 }

/-- Something of the next state, if there is one. -/
def onNext {α : Type} (r : Result State) (f : State → α) : Option α :=
  match r with
  | .next t => some (f t)
  | .fault _ => none
  | .refused _ => none

/-- The name of the refusal, if it is one. -/
def refusal (r : Result State) : Option Refusal :=
  match r with
  | .next _ => none
  | .fault _ => none
  | .refused e => some e

/-- Why a word is invalid, if it is. -/
def reason (hasTick : Bool) (w : EventWord) : Option DecodeError :=
  match decode hasTick w with
  | .ok _ => none
  | .error e => some e

/-- The word read as its four hexadecimal fields, written out. -/
def bits (op argHigh argLow : Nat) : EventWord := BitVec.ofNat 20 (op * 65536 + argHigh * 256 + argLow)

/-! ### WellFormed: what is refused -/

theorem test_tick_needs_hasTick : Instr.wellFormed false .tick = false := by decide
theorem test_elapsed_needs_hasTick : Instr.wellFormed false .elapsed = false := by decide
theorem test_loadcd_needs_hasTick : Instr.wellFormed false (.loadcd 1000) = false := by decide
theorem test_send_needs_nothing : Instr.wellFormed false (.send 0xFF) = true := by decide
theorem test_one_slot_refused : Config.slotCountOk 1 = false ∧ Config.slotCountOk 2 = true := by decide
theorem test_build_refuses_one_slot :
    State.build 1 8 Config.thisHardware = none ∧ (State.build 2 2 Config.thisHardware).isSome = true := by decide

/-! ### Decode: words written out from 30_encoding.md R75 and R77 -/

theorem test_decode_idle : decode true (bits 0 0x00 0x00) = .ok .idle := rfl
theorem test_decode_rxi : decode true 0b00010000000001111000#20 = .ok (.rxi 0x78) := rfl
theorem test_decode_take : decode true 0b00100000000000000000#20 = .ok .take := rfl
theorem test_decode_send : decode true 0b00110000000001000001#20 = .ok (.send 0x41) := rfl
theorem test_decode_txc : decode true 0b01000000000000000000#20 = .ok .txc := rfl
theorem test_decode_tick : decode true 0b01010000000000000000#20 = .ok .tick := rfl
theorem test_decode_elapsed : decode true 0b01100000000000000000#20 = .ok .elapsed := rfl
theorem test_decode_loadcd : decode true 0b01110000001111101000#20 = .ok (.loadcd 1000) := rfl

/-- V40: format Z with an operand. -/
theorem test_decode_refuses_operand :
    [0x00001#20, 0x20001, 0x40100, 0x5FFFF, 0x60001].all (fun w => reason true w == some .operandNotZero) = true := by decide

/-- V40: format B with a high byte. -/
theorem test_decode_refuses_high_byte :
    [0x10100#20, 0x30141, 0x1FF78].all (fun w => reason true w == some .highByteNotZero) = true := by decide

/-- V40: `op` 8 and 15. -/
theorem test_decode_refuses_op : [0x80000#20, 0xF1234].all (fun w => reason true w == some .unknownOp) = true := by decide

/-- V40: the countdown's words with `HAS_TICK = false`. -/
theorem test_decode_refuses_countdown :
    [0x50000#20, 0x60000, 0x703E8].all (fun w => reason false w == some .countdownAbsent) = true := by decide

/-- V40: the largest operands. -/
theorem test_decode_largest : decode true 0x100FF = .ok (.rxi 0xFF) ∧ decode true 0x7FFFF = .ok (.loadcd 65535) :=
  ⟨rfl, rfl⟩

theorem test_table_word_take : decodeTableWord 24 0x20000 = some .take := by decide
theorem test_table_word_of_more_bits : decodeTableWord 24 0x120000 = none := by decide

/-- The step runs the word placed by `withFetchWord` first. -/
theorem test_fetch_word : onNext (step (State.reset.withFetchWord 24 0x30041)) (·.outs) = some [⟨.none, some 0x41⟩] := by
  decide

/-- With nothing scheduled a step is `IDLE`. -/
theorem test_step_of_reset : step State.reset = .next { State.reset with outs := [⟨.none, none⟩] } := rfl

/-! ### Operations -/

/-- R102's worked example, V5 row 4: the overflow. -/
theorem test_rxi_overflow :
    onNext (exec (.rxi 4) { small with rx := ring 1 2 3 0 3 0 }) (·.rx) = some (ring 1 2 3 4 0 0) := by decide

/-- R103's worked example, V7 row 4: the drop. -/
theorem test_rxi_drop :
    onNext (exec (.rxi 4) { small with cfg := dropping, rx := ring 1 2 3 0 3 0 }) (fun t => (t.rx, t.rxDropCnt)) =
      some (ring 1 2 3 0 3 0, 1) := by decide

/-- V1 row 9: the tail wraps. -/
theorem test_take_wraps :
    onNext (exec .take { small with rx := ring 0x55 0x22 0x33 0x44 1 3 }) (fun t => (t.rx, t.outs)) =
      some (ring 0x55 0x22 0x33 0x44 1 0, [⟨.byte 0x44, none⟩]) := by decide

/-- V2 row 4: 0x00 is a byte, not `empty`; the slot reads 0x00 though nothing lists it. -/
theorem test_take_zero_byte :
    onNext (exec .take { small with rx := ring 0 0 0 0 1 0 }) (·.outs) = some [⟨.byte 0, none⟩] := by decide

/-- V11a row 6: busy with an empty ring, `SEND` is buffered. -/
theorem test_send_busy_and_empty :
    onNext (exec (.send 0xA5) { small with tx := ring 0xA1 0xA2 0xA3 0xA4 0 0, txBusy := true }) (fun t => (t.tx, t.outs)) =
      some (ring 0xA5 0xA2 0xA3 0xA4 1 0, [⟨.none, none⟩]) := by decide

/-- V10 row 1: the fast path stores nothing. -/
theorem test_send_fast :
    onNext (exec (.send 0x61) small) (fun t => (t.tx, t.txBusy, t.outs)) = some (fresh, true, [⟨.none, some 0x61⟩]) := by
  decide

/-- V10 row 6: the hand-over. -/
theorem test_txc_hands_over :
    onNext (exec .txc { small with tx := ring 0x63 0x64 0 0 2 0, txBusy := true }) (fun t => (t.tx, t.txBusy, t.outs)) =
      some (ring 0x63 0x64 0 0 2 1, true, [⟨.none, some 0x63⟩]) := by decide

/-- V11 row 6: after the overflow the completion writes nothing and goes idle. -/
theorem test_txc_goes_idle :
    onNext (exec .txc { small with tx := ring 0xA1 0xA2 0xA3 0xA4 0 0, txBusy := true }) (fun t => (t.txBusy, t.outs)) =
      some (false, [⟨.none, none⟩]) := by decide

/-- V20 row 15 and row 2. -/
theorem test_tick : onNext (exec .tick { small with countdown := 65535 }) (·.countdown) = some 65534 := by decide
theorem test_tick_at_zero : onNext (exec .tick small) (·.countdown) = some 0 := by decide

/-- V20 rows 9 and 16. -/
theorem test_elapsed_true : onNext (exec .elapsed small) (·.outs) = some [⟨.flag true, none⟩] := by decide
theorem test_elapsed_false :
    onNext (exec .elapsed { small with countdown := 65534 }) (·.outs) = some [⟨.flag false, none⟩] := by decide

/-- V20 row 19: a reload replaces the value. -/
theorem test_loadcd : onNext (exec (.loadcd 3) { small with countdown := 2 }) (·.countdown) = some 3 := by decide

/-- V22. -/
theorem test_idle : exec .idle loaded = .next { loaded with outs := [⟨.none, none⟩] } := rfl

/-- V23 row 6. -/
theorem test_reset : execReset loaded = .next { small with outs := [⟨.none, none⟩] } := rfl

/-! ### Steps of the port view, V30 -/

def stepB : PortIn := { txcIrq := true, sendReq := true, sendData := 0x43 }
def allHigh : PortIn :=
  { rxIrq := true, rxData := 0x11, txcIrq := true, tickIrq := true, takeReq := true, sendReq := true, sendData := 0x22,
    elapsedReq := true, loadReq := true, loadValue := 9 }

theorem test_ports_step_b :
    onNext (portStep stepB { small with tx := ring 0x42 0 0 0 1 0, txBusy := true }) (fun t => (t.tx, t.ports.txregData)) =
      some (ring 0x42 0x43 0 0 2 1, 0x42) := by decide

theorem test_ports_step_h :
    onNext (portStep allHigh small) (fun t => (t.rx, t.tx, t.txBusy, t.countdown)) =
      some (ring 0x11 0 0 0 1 1, fresh, true, 9) := by decide

theorem test_ports_step_h_outputs :
    onNext (portStep allHigh small) State.ports = some ⟨true, 0x11, true, true, 0x22, none, none⟩ := by decide

/-- V30 step F: `rst` wins. -/
theorem test_ports_step_f :
    portStep { rst := true, rxIrq := true, rxData := 0x77, sendReq := true, sendData := 0x88 } loaded = execReset loaded :=
  rfl

/-! ### The split-phase variant -/

/-- P5, the stranding race: the last micro-step leaves an idle path with a byte in its ring. -/
theorem test_stranded :
    onNext (microOf { small with cfg := split, tx := ring 0x42 0 0 0 0 0, fg := .sendC 0x42 0 0 true })
      (fun t => (t.tx, t.txBusy, t.fg)) = some (ring 0x42 0 0 0 1 0, false, .idle) := by decide

/-- R193's example: a `SEND` from inside a handler, within a buffered split `SEND`, is stored and its byte overwritten. -/
def twoWriters : State :=
  { small with cfg := split, txBusy := true, fg := .sendPath 0x42 0 0 true .buffered, inputs := [.word 0x30041, .micro] }

theorem test_handler_send_in_split_send :
    onNext (step twoWriters) (fun t => (t.tx, t.fg, t.inputs)) =
      some (ring 0x41 0 0 0 1 0, .sendPath 0x42 0 0 true .buffered, [.micro]) := by decide

theorem test_split_send_overwrites_handler_send :
    onNext (microOf { twoWriters with tx := ring 0x41 0 0 0 1 0 }) (fun t => (t.tx, t.fg)) =
      some (ring 0x42 0 0 0 1 0, .sendC 0x42 0 0 true) := by decide

/-- R184: a strobe high in a step is acted on in that step, in the middle of a split operation too. -/
theorem test_strobe_is_not_held_back :
    onNext (step { small with cfg := split, rx := ring 0x11 0 0 0 1 0, fg := .takeB 1 0,
                              inputs := [.ports { rxIrq := true, rxData := 0x22, elapsedReq := true }] })
      (fun t => (t.rx, t.fg, t.outs)) =
      some (ring 0x11 0x22 0 0 2 0, .takeB 1 0, [⟨.none, none⟩, ⟨.flag true, none⟩]) := by decide

/-- R166: while the echo's `SEND` has micro-steps left, the host is still in `DRAIN_RX`; after its last one it is not. -/
theorem test_phase_stays_until_send_is_done :
    let s := { small with cfg := split, txBusy := true, host := ⟨.echo 0x78, false, false⟩ }
    onNext (execHost s) (fun t => (t.host, t.host.phase)) = some (⟨.echo 0x78, false, true⟩, .drainRx) ∧
    onNext (execHost { s with fg := .sendC 0x78 0 0 true, host := ⟨.echo 0x78, false, true⟩ })
      (fun t => (t.host, t.host.phase)) = some (⟨.elapsed, false, false⟩, .checkTimeout) := by decide

/-- R232: the reference host takes the micro-step in progress and hears its `TAKE`'s answer. -/
theorem test_host_goes_on_with_its_take :
    onNext (step { small with cfg := split, rx := full, fg := .takeC 3 0 0x11, host := ⟨.take, false, true⟩,
                              inputs := [.hostLoop] })
      (fun t => (t.fg, t.host, t.outs)) = some (.idle, ⟨.echo 0x11, false, false⟩, [⟨.byte 0x11, none⟩]) := by decide

/-- R167's `ECHO_ALL` on two bytes: both are echoed, and every event's output is reported. -/
theorem test_echo_all :
    onNext (execEchoAll 3 { small with rx := ring 0x78 0x79 0 0 2 0 }) (fun t => (t.tx, t.outs)) =
      some (ring 0x79 0 0 0 1 0, [⟨.byte 0x78, none⟩, ⟨.none, some 0x78⟩, ⟨.byte 0x79, none⟩, ⟨.none, none⟩,
        ⟨.empty, none⟩]) := by decide

/-! ### The written form -/

theorem test_read_quoted : readLine "SEND 'A' -> write(0x41)".toList =
    some (.event (.op (.send 0x41)) (some ⟨.none, some 0x41⟩)) := by decide
theorem test_read_decimal : readLine "LOADCD 1000 # one second".toList =
    some (.event (.op (.loadcd 1000)) none) := by decide
theorem test_write_state : writeState { small with rx := ring 0x55 0 0 0 1 0 } =
    "rx(h=1, t=0) tx(h=0, t=0, busy=0) cd=0 rx_buf=[55 00 00 00] tx_buf=[00 00 00 00]".toList := by decide

/-! ### Witnesses -/

theorem test_witness_DecodeAndEncodeAgree :
    Instr.wellFormed true (.loadcd 1000) = true ∧ Instr.wellFormed false (.rxi 0xFF) = true ∧
    decode true 0x7FFFF = .ok (.loadcd 65535) ∧ decode false 0x30000 = .ok (.send 0) := ⟨rfl, rfl, rfl, rfl⟩

/-- One word of each clause of `InvalidWordsAreRefused`, at its boundary, and a step that meets one. -/
theorem test_witness_InvalidWordsAreRefused :
    (decode true 0x80000).toOption = none ∧ (decode true 0x0FFFF).toOption = none ∧
    (decode true 0x10100).toOption = none ∧ (decode false 0x70000).toOption = none ∧
    (decode true 0x7FFFF).toOption ≠ none ∧
    refusal (step { small with inputs := [.word 0xF1234] }) = some (.invalidWord .unknownOp) := by decide

theorem test_witness_AnswerWordsMirrorThePorts :
    onNext (exec .take loaded) (·.outs) = some [⟨.byte 0x11, none⟩] ∧
    onNext (exec .elapsed small) (·.outs) = some [⟨.flag true, none⟩] ∧
    onNext (exec (.send 1) small) (·.outs) = some [⟨.none, some 1⟩] := by decide

/-- Each kind of entry first, an empty schedule between operations and in the middle of one, and the largest word. -/
theorem test_witness_StepRunsTheDecodedWord :
    (let s := { loaded with inputs := [.word 0x20000] }
     s.inputs = .word 0x20000 :: [] ∧ decode s.cfg.hasTick 0x20000 = .ok .take) ∧
    { loaded with inputs := [.ports allHigh] }.inputs = .ports allHigh :: [] ∧
    { loaded with inputs := [.rst] }.inputs = .rst :: [] ∧ { loaded with inputs := [.micro] }.inputs = .micro :: [] ∧
    { loaded with inputs := [.hostLoop] }.inputs = .hostLoop :: [] ∧ (small.inputs = [] ∧ small.midOperation = false) ∧
    (let s := { loaded with cfg := split, fg := .takeB 3 0 }
     s.inputs = [] ∧ s.midOperation = true ∧ ∃ t, microOf s = .next t) ∧
    0x7FFFF < 2 ^ 24 ∧ 0x7FFFF < 2 ^ 20 ∧ decode small.cfg.hasTick (BitVec.ofNat 20 0x7FFFF) = .ok (.loadcd 65535) :=
  ⟨⟨rfl, rfl⟩, rfl, rfl, rfl, rfl, ⟨rfl, rfl⟩, ⟨rfl, rfl, _, rfl⟩, by decide, by decide, rfl⟩

theorem test_witness_NoExceptionAndEveryOperationCompletes :
    Instr.wellFormed small.cfg.hasTick .tick = true ∧ Instr.wellFormed false (.send 1) = true := by decide

theorem test_witness_PortStepIsItsEventsInOrder :
    ({ rst := true } : PortIn).rst = true ∧
    allHigh.rst = false ∧ loaded.cfg.atomicFg = true ∧ loaded.cfg.hasTick = true := by decide

theorem test_witness_AtMostOneWritePerPortStep :
    small.cfg.atomicFg = true ∧ ∃ t, portStep allHigh small = .next t := ⟨rfl, _, rfl⟩

theorem test_witness_ResetWinsOverOtherInputs :
    let p := { allHigh with rst := true }
    p.rst = true ∧ { loaded with inputs := [.ports p, .rst] }.inputs = .ports p :: [.rst] := by decide

theorem test_witness_FirstObservationsAfterReset :
    2 ≤ 4 ∧ Config.thisHardware.atomicFg = true ∧ Config.thisHardware.hasTick = true := by decide

/-- A state in the middle of a split `SEND`, whose step answers a next state, meets the invariant; so does one in which
another context raises a `SEND`; the first keeps the discipline and the second does not. -/
theorem test_witness_StepKeepsTheInvariant :
    let s := { small with cfg := split, tx := full, fg := .sendC 0x41 3 0 true }
    let s' := { s with inputs := [.word 0x30041] }
    State.Inv s ∧ (∃ t, step s = .next t) ∧ s.ownIndexFresh = true ∧ s.keepsDiscipline = true ∧
    State.Inv s' ∧ (∃ t, step s' = .next t) ∧ s'.keepsDiscipline = false :=
  ⟨⟨by decide, by decide, by decide, by decide, by decide, by decide, by decide, by decide, by decide⟩, ⟨_, rfl⟩, by decide, by decide,
    ⟨by decide, by decide, by decide, by decide, by decide, by decide, by decide, by decide, by decide⟩, ⟨_, rfl⟩, by decide⟩

theorem test_witness_IdleImpliesEmptyOnEveryRun :
    ∃ s os, runEvents [.op (.send 1), .op .txc] small = some (s, os) ∧ s.txBusy = false := ⟨_, _, rfl, rfl⟩

theorem test_witness_ParametersAreFixed : ∃ t, step loaded = .next t := ⟨_, rfl⟩

theorem test_witness_EachRegisterChangesOnlyByItsWriters :
    ∃ t, exec .txc loaded = .next t ∧ t.tx.tail ≠ loaded.tx.tail := ⟨_, rfl, by decide⟩

/-- Both branches, the first at a full ring. -/
theorem test_witness_RxiStoresOrCountsADrop :
    Memory.wf full.cap full.buf = true ∧
    (let s := { loaded with cfg := dropping }; s.cfg.ovfRx = .dropNewest ∧ inc s.rx.cap s.rx.head = s.rx.tail) ∧
    ¬(loaded.cfg.ovfRx = .dropNewest ∧ inc loaded.rx.cap loaded.rx.head = loaded.rx.tail) := by decide

theorem test_witness_RxiAppendsToPending :
    let s := { small with rx := ring 0 0 0x33 0x44 0 2 }
    Memory.wf s.rx.cap s.rx.buf = true ∧ s.rx.isFull = false := by decide

theorem test_witness_RxOverflowUnderWrap :
    loaded.cfg.ovfRx = .wrap ∧ loaded.cfg.atomicFg = true ∧ Memory.wf loaded.rx.cap loaded.rx.buf = true ∧
    loaded.rx.isFull = true := by decide

/-- V6a's first eight rows: seven bytes into four slots, and one taken; the ring is not empty. -/
theorem test_witness_RxClosedFormUnderWrap :
    Event.reset ∉ [Event.op (.rxi 1), .op (.rxi 2), .op (.rxi 3), .op (.rxi 4), .op (.rxi 5), .op .take] ∧
    ∃ s os, runEvents [.op (.rxi 1), .op (.rxi 2), .op (.rxi 3), .op (.rxi 4), .op (.rxi 5), .op (.rxi 6), .op .take] small =
      some (s, os) ∧ s.rx.isEmpty = false := ⟨by decide, _, _, rfl, rfl⟩

theorem test_witness_TakeAnswersEmptyOrTheTailByte :
    small.cfg.atomicFg = true ∧ small.rx.head = small.rx.tail ∧ loaded.rx.head ≠ loaded.rx.tail := by decide

theorem test_witness_TakeRemovesTheOldestPendingByte :
    loaded.cfg.atomicFg = true ∧ loaded.rx.isEmpty = false := by decide

/-- Under either policy: a run on which no byte overflows, and one on which one is dropped. -/
theorem test_witness_ReceivePathIsFifo :
    (let es := [Event.op (.rxi 1), .op (.rxi 2), .op .take, .op (.rxi 3), .op (.rxi 4)]
     runAvoids overflowsRx es small = true ∧ Event.reset ∉ es ∧ (runEvents es small).isSome = true) ∧
    (let es := [Event.op (.rxi 1), .op (.rxi 2), .op (.rxi 3), .op (.rxi 4), .op .take]
     (runEvents es { small with cfg := dropping }).isSome = true) := by decide

/-- Five bytes for an empty ring of four slots, under either policy. -/
theorem test_witness_SurvivorsOfCapacityPlusOne :
    ([1, 2, 3, 4, 5] : List Byte).length = small.rx.cap + 1 ∧ small.rx.isEmpty = true ∧ small.rxDropCnt = 0 ∧
    Memory.wf small.rx.cap small.rx.buf = true ∧ small.cfg.ovfRx = .wrap ∧
    { small with cfg := dropping }.cfg.ovfRx = .dropNewest := by decide

theorem test_witness_DropCountersSaturate :
    let s := { loaded with cfg := dropping, rxDropCnt := 65535 }
    s.cfg.atomicFg = true ∧ s.cfg.ovfRx = .dropNewest ∧ s.rx.isFull = true ∧ s.cfg.ovfTx = .dropNewest ∧
    s.tx.isFull = true := by decide

/-- The three branches; the middle one at a full ring. -/
theorem test_witness_SendTakesOneOfThreePaths :
    Memory.wf small.tx.cap small.tx.buf = true ∧ (small.tx.head = small.tx.tail ∧ small.txBusy = false) ∧
    (let s := { loaded with cfg := dropping }; s.cfg.ovfTx = .dropNewest ∧ inc s.tx.cap s.tx.head = s.tx.tail) ∧
    ¬(loaded.tx.head = loaded.tx.tail ∧ loaded.txBusy = false) ∧
    ¬(loaded.cfg.ovfTx = .dropNewest ∧ inc loaded.tx.cap loaded.tx.head = loaded.tx.tail) := by decide

theorem test_witness_FastPathExactlyWhenIdle :
    (small.Inv ∧ small.txBusy = false) ∧ loaded.Inv ∧ loaded.txBusy = true ∧ loaded.cfg.atomicFg = true :=
  ⟨⟨⟨by decide, by decide, by decide, by decide, by decide, by decide, by decide, by decide, by decide⟩, rfl⟩,
    ⟨by decide, by decide, by decide, by decide, by decide, by decide, by decide, by decide, by decide⟩, rfl, rfl⟩

theorem test_witness_TxcHandsOverOrGoesIdle :
    loaded.tx.head ≠ loaded.tx.tail ∧ small.tx.head = small.tx.tail := by decide

theorem test_witness_TxOverflowUnderWrap :
    loaded.cfg.ovfTx = .wrap ∧ loaded.cfg.atomicFg = true ∧ Memory.wf loaded.tx.cap loaded.tx.buf = true ∧
    loaded.tx.isFull = true ∧ loaded.txBusy = true := by decide

/-- V11a up to row 8: the ring overflowed and holds a byte again. -/
theorem test_witness_TxClosedFormUnderWrap :
    ∃ s os, runEvents [.op (.send 1), .op (.send 2), .op (.send 3), .op (.send 4), .op (.send 5), .op (.send 6),
      .op (.send 7), .op .txc] small = some (s, os) ∧ s.tx.isEmpty = false := ⟨_, _, rfl, rfl⟩

theorem test_witness_TransmitPathIsFifo :
    (let es := [Event.op (.send 1), .op (.send 2), .op .txc, .op (.send 3)]
     runAvoids overflowsTx es small = true ∧ Event.reset ∉ es ∧ (runEvents es small).isSome = true) ∧
    (let es := [Event.op (.send 1), .op (.send 2), .op (.send 3), .op (.send 4), .op (.send 5), .op .txc]
     (runEvents es { small with cfg := dropping }).isSome = true) := by decide

/-- A transmitter that completes the byte it was given, and the next one; a reset while it is idle. -/
theorem test_witness_OneByteInTheTransmitter :
    let es := [Event.op (.send 1), .op (.send 2), .op .txc, .op .txc, .reset, .op (.send 3)]
    keepsContract es small false = true ∧ (runEvents es small).isSome = true := by decide

theorem test_witness_CompletionsDrainTheRing : loaded.txBusy = true ∧ loaded.tx.count = 3 := by decide

theorem test_witness_MissingTxcHangsTheTransmitPath :
    let es := [Event.op (.send 1), .op .take, .op (.send 2)]
    loaded.txBusy = true ∧ loaded.cfg.atomicFg = true ∧ Event.op .txc ∉ es ∧ Event.reset ∉ es ∧
    (runEvents es loaded).isSome = true := by decide

theorem test_witness_TickDecrementsToZero : small.cfg.hasTick = true := by decide

theorem test_witness_TicksNeverUnderflow :
    let es := [Event.op .tick, .op (.rxi 1), .op .tick, .op .tick]
    noReload es = true ∧ (runEvents es loaded).isSome = true := by decide

theorem test_witness_ElapsedReadsTheCountdown :
    small.cfg.hasTick = true ∧ { small with cfg := split, fg := .takeB 0 0 }.cfg.hasTick = true := by decide

theorem test_witness_ElapsedStaysTrueUntilReloaded :
    (∃ t, exec .elapsed loaded = .next t) ∧ Config.thisHardware.hasTick = true ∧
    let es := [Event.op .elapsed, .op .tick, .op .elapsed]
    small.countdown = 0 ∧ noReload es = true ∧ (runEvents es small).isSome = true := ⟨⟨_, rfl⟩, by decide⟩

theorem test_witness_LoadcdWritesTheCountdown :
    loaded.cfg.hasTick = true ∧ ∃ t, exec (.loadcd 7) loaded = .next t ∧ t.countdown ≠ loaded.countdown :=
  ⟨rfl, _, rfl, by decide⟩

/-- One tick short of the period and at it. -/
theorem test_witness_PeriodLaw :
    let short := [Event.op .tick, .op .elapsed]
    let whole := [Event.op .tick, .op .tick]
    noReload short = true ∧ (runEvents (.op (.loadcd 2) :: short) small).isSome = true ∧
    noReload whole = true ∧ (runEvents (.op (.loadcd 2) :: whole) small).isSome = true := by decide

theorem test_witness_CountdownAbsentWithoutHasTick :
    allHigh.rst = false ∧ untimed.atomicFg = true ∧
    { small with cfg := untimed }.cfg.hasTick = false ∧ Instr.ofCountdown (.loadcd 0) = true ∧
    refusal (exec .tick { small with cfg := untimed }) = some .countdownAbsent := by decide

theorem test_witness_IdleMayBeInsertedAnywhere :
    ∃ t os, runEvents ([.op (.rxi 1)] ++ [.op .take]) small = some (t, os) := ⟨_, _, rfl⟩

theorem test_witness_DifferentPartsCommute :
    partOf .take ≠ partOf .txc ∧ partOf .idle ≠ partOf .tick ∧ loaded.cfg.atomicFg = true ∧ loaded.cfg.hasTick = true := by
  decide

/-- Two states with the same RX part and another TX part. -/
theorem test_witness_PartsDoNotInterfere :
    let s' := { loaded with txBusy := false, tx := fresh }
    (∃ t, exec .take loaded = .next t) ∧ partOf .take = .rx ∧ s'.cfg = loaded.cfg ∧ s'.fg = loaded.fg ∧
    s'.rx = loaded.rx ∧ s'.rxDropCnt = loaded.rxDropCnt ∧ ∃ t', exec .take s' = .next t' :=
  ⟨⟨_, rfl⟩, rfl, rfl, rfl, rfl, rfl, _, rfl⟩

/-- Each of the five cases. -/
theorem test_witness_IdempotentOperations :
    small.rx.isEmpty = true ∧ (small.tx.isEmpty = true ∧ small.txBusy = false) ∧ small.countdown = 0 ∧
    small.cfg.atomicFg = true ∧
    ∀ i ∈ [Instr.take, .txc, .elapsed, .tick, .idle], (onNext (exec i small) (·.outs)).isSome = true := by decide

/-- `TAKE.a` on an empty ring and on one that is not, `TAKE.b` and `TAKE.c`; the run of a whole split `TAKE` is that of
`SplitTakeIsLinearisable`'s witness. -/
theorem test_witness_MicroStepsOfTake :
    let s := { small with cfg := split }
    (s.cfg.atomicFg = false ∧ s.fg = .idle ∧ s.rx.head = s.rx.tail) ∧
    (let s := { loaded with cfg := split }; s.cfg.atomicFg = false ∧ s.fg = .idle ∧ s.rx.head ≠ s.rx.tail) ∧
    ({ s with fg := .takeB 0 3 }.fg = .takeB 0 3 ∧ 3 < s.rx.cap) ∧
    ({ s with fg := .takeC 0 3 0x11 }.fg = .takeC 0 3 0x11 ∧ 3 < s.rx.cap) := by decide

/-- The three paths `SEND.a` can take, and a state before each later micro-step. -/
theorem test_witness_MicroStepsOfSend :
    (let s := { small with cfg := split }; s.cfg.atomicFg = false ∧ s.fg = .idle ∧ s.sendPath = .fast) ∧
    { loaded with cfg := split }.sendPath = .buffered ∧
    { loaded with cfg := { dropping with atomicFg := false } }.sendPath = .drop ∧
    { small with fg := .sendPath 1 0 0 false .fast }.fg = .sendPath 1 0 0 false .fast ∧
    { small with fg := .sendPath 1 0 1 true .drop }.fg = .sendPath 1 0 1 true .drop ∧
    ({ small with fg := .sendPath 1 3 0 true .buffered }.fg = .sendPath 1 3 0 true .buffered ∧ 3 < small.tx.cap ∧
      Memory.wf small.tx.cap small.tx.buf = true) ∧
    { small with fg := .sendC 1 3 0 true }.fg = .sendC 1 3 0 true := by decide

/-- A state in the middle of a split `TAKE`, and `twoWriters`. -/
theorem test_witness_OperationsOfAnotherContextDoTheirRules :
    (let s := { loaded with cfg := split, fg := .takeB 3 0 }
     s.midOperation = true ∧ Instr.wellFormed s.cfg.hasTick (.send 0x41) = true ∧ allHigh.rst = false) ∧
    twoWriters.midOperation = true ∧ twoWriters.fg = .sendPath 0x42 0 0 true .buffered ∧ 0 = twoWriters.tx.head ∧
    twoWriters.sendPath = .buffered ∧ Memory.wf twoWriters.tx.cap twoWriters.tx.buf = true ∧ twoWriters.Inv :=
  ⟨⟨by decide, by decide, by decide⟩, by decide, by decide, by decide, by decide, by decide,
    ⟨by decide, by decide, by decide, by decide, by decide, by decide, by decide, by decide, by decide⟩⟩

theorem test_witness_UninterruptedMicroStepsAreTheAtomicOperation :
    let s := { loaded with cfg := split }
    s.cfg.atomicFg = false ∧ s.fg = .idle ∧
    (∃ t, exec .take { s with cfg := { s.cfg with atomicFg := true } } = .next t) ∧
    (∃ t, exec (.send 1) { s with cfg := { s.cfg with atomicFg := true } } = .next t) ∧
    ∃ t, portStep allHigh { s with cfg := { s.cfg with atomicFg := true } } = .next t :=
  ⟨rfl, rfl, ⟨_, rfl⟩, ⟨_, rfl⟩, _, rfl⟩

/-- Two bytes pending; one arrives before `TAKE.b` and the ring is full at `TAKE.c`, under either policy. -/
theorem test_witness_SplitTakeIsLinearisable :
    let s := { small with cfg := split, rx := ring 0x11 0x22 0 0 2 0 }
    let is : List Instr := [.rxi 0x33]
    let js : List Instr := [.txc, .tick]
    s.cfg.atomicFg = false ∧ s.fg = .idle ∧ Memory.wf s.rx.cap s.rx.buf = true ∧ s.rx.isEmpty = false ∧
    (∀ i ∈ is ++ js, i.context = .irq) ∧
    s.rx.count + (rxiBytes ((is ++ js).map .op)).length ≤ s.rx.cap - 1 ∧
    { s with cfg := { dropping with atomicFg := false } }.cfg.ovfRx = .dropNewest ∧
    ∃ a b c d os os', exec .take s = .next a ∧ runEvents (is.map .op) a = some (b, os) ∧ microOf b = .next c ∧
      runEvents (js.map .op) c = some (d, os') :=
  ⟨by decide, by decide, by decide, by decide, by decide, by decide, by decide, _, _, _, _, _, _, rfl, rfl, rfl, rfl⟩

theorem test_witness_SplitSendAroundAHandOver :
    let s := { small with cfg := split, tx := ring 0x11 0x22 0 0 2 0, txBusy := true }
    s.cfg.atomicFg = false ∧ s.fg = .idle ∧ s.txBusy = true ∧ s.tx.isEmpty = false ∧ s.sendPath = .buffered := by decide

theorem test_witness_StrandingRace :
    let s := { small with cfg := split, txBusy := true }
    s.cfg.atomicFg = false ∧ s.fg = .idle ∧ s.txBusy = true ∧ s.tx.isEmpty = true ∧
    Memory.wf s.tx.cap s.tx.buf = true := by decide

/-- Every place of the loop, and both answers where the answer decides. -/
theorem test_witness_HostLoopFollowsItsTwoPhases :
    small.cfg.atomicFg = true ∧ small.cfg.hasTick = true ∧ small.host.pos = .take ∧ small.rx.isEmpty = true ∧
    loaded.rx.isEmpty = false ∧ small.countdown = 0 ∧ loaded.countdown ≠ 0 ∧ small.cfg.drain = .onePerPass ∧
    { small.cfg with drain := .drainFully }.drain = .drainFully ∧
    ∀ p ∈ [HostPos.echo 0x78, .elapsed, .reload, .mark, .lineEnd],
      (onNext (execHost { small with host := ⟨p, false, false⟩ }) (·.outs)).isSome = true := by decide

/-- A pass; an event that is done at once; a split `SEND` issued, and one at its last micro-step; another's operation. -/
theorem test_witness_PassesOfTheReferenceHost :
    (loaded.Inv ∧ loaded.cfg.atomicFg = true ∧ loaded.cfg.hasTick = true ∧ loaded.cfg.drain = .onePerPass ∧
      loaded.host.pos = .take) ∧
    (∃ t, execHost loaded = .next t ∧ t.midOperation = false) ∧
    (let s := { loaded with cfg := split, host := ⟨.mark, true, false⟩ }
     s.midOperation = false ∧ ∃ t, execHost s = .next t ∧ t.midOperation = true) ∧
    (let s := { loaded with cfg := split, fg := .sendC 0x0A 3 0 true, host := ⟨.lineEnd, true, true⟩ }
     s.midOperation = true ∧ ∃ t, execHost s = .next t ∧ t.midOperation = false) ∧
    (let s := { loaded with cfg := split, fg := .takeB 3 0 }
     s.midOperation = true ∧ s.host.issued = false ∧ ∃ t, execHost s = .next t) :=
  ⟨⟨⟨by decide, by decide, by decide, by decide, by decide, by decide, by decide, by decide, by decide⟩, rfl, rfl, rfl, rfl⟩,
    ⟨_, rfl, rfl⟩, ⟨rfl, _, rfl, rfl⟩, ⟨rfl, _, rfl, rfl⟩, rfl, rfl, _, rfl⟩

end Sys2Proof.Tests
end

section
/-! SUPPORT. The fields of an event word and the decoder in numbers (30_encoding.md R75, R80). -/

namespace Sys2Proof

theorem opField_toNat (w : EventWord) : (opField w).toNat = w.toNat / 65536 := by
  have := w.isLt
  rw [opField, BitVec.extractLsb'_toNat, Nat.shiftRight_eq_div_pow]
  omega

theorem argField_toNat (w : EventWord) : (argField w).toNat = w.toNat % 65536 := by
  simp [argField]

theorem argHigh_toNat (a : Half) : (argHigh a).toNat = a.toNat / 256 := by
  have := a.isLt
  rw [argHigh, BitVec.extractLsb'_toNat, Nat.shiftRight_eq_div_pow]
  omega

theorem argField_eq_ofNat (w : EventWord) : argField w = BitVec.ofNat 16 (w.toNat % 65536) := by
  rw [← argField_toNat, BitVec.ofNat_toNat, BitVec.setWidth_eq]

theorem argByte_argField (w : EventWord) : argByte (argField w) = BitVec.ofNat 8 (w.toNat % 65536 % 256) := by
  apply BitVec.eq_of_toNat_eq
  simp [argByte, argField_toNat]

theorem argField_eq_zero_iff (w : EventWord) : argField w = 0 ↔ w.toNat % 65536 = 0 := by
  rw [← argField_toNat, BitVec.toNat_eq]; rfl

theorem argHigh_argField_eq_zero_iff (w : EventWord) : argHigh (argField w) = 0 ↔ w.toNat % 65536 / 256 = 0 := by
  rw [← argField_toNat, ← argHigh_toNat, BitVec.toNat_eq]; rfl

theorem decodeZ_toOption (w : EventWord) (i : Instr) :
    (decodeZ (argField w) i).toOption = if w.toNat % 65536 = 0 then some i else none := by
  simp only [decodeZ, argField_eq_zero_iff]
  split <;> rfl

theorem decodeB_toOption (w : EventWord) (f : Byte → Instr) :
    (decodeB (argField w) f).toOption =
      if w.toNat % 65536 / 256 = 0 then some (f (BitVec.ofNat 8 (w.toNat % 65536 % 256))) else none := by
  simp only [decodeB, argHigh_argField_eq_zero_iff, argByte_argField]
  split <;> rfl

theorem decodeTick_toOption (hasTick : Bool) (r : Except DecodeError Instr) :
    (decodeTick hasTick r).toOption = if hasTick = true then r.toOption else none := by
  cases hasTick <;> rfl

/-- R80's chain of tests on `op` and `a`, test by test. -/
def specDecode (hasTick : Bool) (op a : Nat) : Option Instr :=
  if op = 0 ∧ a = 0 then some .idle
  else if op = 1 ∧ a / 256 = 0 then some (.rxi (BitVec.ofNat 8 (a % 256)))
  else if op = 2 ∧ a = 0 then some .take
  else if op = 3 ∧ a / 256 = 0 then some (.send (BitVec.ofNat 8 (a % 256)))
  else if op = 4 ∧ a = 0 then some .txc
  else if op = 5 ∧ a = 0 ∧ hasTick = true then some .tick
  else if op = 6 ∧ a = 0 ∧ hasTick = true then some .elapsed
  else if op = 7 ∧ hasTick = true then some (.loadcd (BitVec.ofNat 16 a))
  else none

/-- R79: exactly the words that R80 answers `invalid` to, in the quotient and the remainder. -/
theorem specDecode_eq_none_iff (hasTick : Bool) (op a : Nat) :
    specDecode hasTick op a = none ↔
      8 ≤ op ∨ (op ∈ [0, 2, 4, 5, 6] ∧ a ≠ 0) ∨ (op ∈ [1, 3] ∧ a / 256 ≠ 0) ∨
        (hasTick = false ∧ op ∈ [5, 6, 7]) := by
  simp only [List.mem_cons, List.not_mem_nil, or_false]
  unfold specDecode
  cases hasTick <;> simp only [reduceCtorEq, and_true, and_false, true_and, false_and, or_false, if_false]
  all_goals repeat' split
  all_goals simp only [reduceCtorEq, false_iff, true_iff]
  all_goals omega

/-- The decoder is R80's function. -/
theorem decode_toOption (hasTick : Bool) (w : EventWord) :
    (decode hasTick w).toOption = specDecode hasTick (w.toNat / 65536) (w.toNat % 65536) := by
  unfold decode
  simp only
  split <;> rename_i h <;> rw [opField_toNat] at h
  · simp [specDecode, h, decodeZ_toOption]
  · simp [specDecode, h, decodeB_toOption]
  · simp [specDecode, h, decodeZ_toOption]
  · simp [specDecode, h, decodeB_toOption]
  · simp [specDecode, h, decodeZ_toOption]
  · rw [decodeTick_toOption, decodeZ_toOption]
    cases hasTick <;> simp [specDecode, h]
  · rw [decodeTick_toOption, decodeZ_toOption]
    cases hasTick <;> simp [specDecode, h]
  · rw [decodeTick_toOption, argField_eq_ofNat]
    simp [specDecode, h, Except.toOption]
  · have hop : 8 ≤ w.toNat / 65536 := by
      simp only [opField_toNat, imp_false] at *
      omega
    exact ((specDecode_eq_none_iff _ _ _).2 (.inl hop)).symm

/-- The decoder answers an error exactly where it gives no operation. -/
theorem decode_toOption_eq_none {hasTick : Bool} {w : EventWord} (h : (decode hasTick w).toOption = none) :
    ∃ e, decode hasTick w = .error e := by
  cases hd : decode hasTick w with
  | ok i => rw [hd] at h; cases h
  | error e => exact ⟨e, rfl⟩

/-! The encoder in numbers. -/

/-- Column `op` of the opcode map (30_encoding.md R77). -/
def Instr.opNumber : Instr → Nat
  | .idle => 0
  | .rxi _ => 1
  | .take => 2
  | .send _ => 3
  | .txc => 4
  | .tick => 5
  | .elapsed => 6
  | .loadcd _ => 7

/-- `arg` of an operation's word (30_encoding.md R75, R76). -/
def Instr.argNumber : Instr → Nat
  | .rxi b => b.toNat
  | .send b => b.toNat
  | .loadcd v => v.toNat
  | .idle => 0
  | .take => 0
  | .txc => 0
  | .tick => 0
  | .elapsed => 0

/-- An operand of at most 16 bits stands below the operation's number. -/
theorem toNat_or_operand {n k : Nat} (hn : n < 16) (hk : k ≤ 16) (x : BitVec k) :
    (BitVec.ofNat 20 (65536 * n) ||| x.setWidth 20).toNat = 65536 * n + x.toNat := by
  have hx : x.toNat < 2 ^ 16 := Nat.lt_of_lt_of_le x.isLt (Nat.pow_le_pow_right (by decide) hk)
  rw [BitVec.toNat_or, BitVec.toNat_ofNat, BitVec.toNat_setWidth, Nat.mod_eq_of_lt (by omega),
    Nat.mod_eq_of_lt (by omega)]
  exact (Nat.two_pow_add_eq_or_of_lt hx n).symm

theorem encode_toNat (i : Instr) : (encode i).toNat = 65536 * i.opNumber + i.argNumber := by
  cases i with
  | rxi b => exact toNat_or_operand (n := 1) (by decide) (by decide) b
  | send b => exact toNat_or_operand (n := 3) (by decide) (by decide) b
  | loadcd v => exact toNat_or_operand (n := 7) (by decide) (by decide) v
  | _ => rfl

/-- The operation of R80's chain has `op` as its number and `a` as its operand. -/
theorem specDecode_eq_some {hasTick : Bool} {op a : Nat} {i : Instr} (ha : a < 65536)
    (h : specDecode hasTick op a = some i) :
    i.opNumber = op ∧ i.argNumber = a ∧ i.wellFormed hasTick = true := by
  unfold specDecode at h
  cases hasTick <;> simp only [reduceCtorEq, and_true, and_false, if_false] at h
  all_goals repeat' split at h
  all_goals cases h
  all_goals refine ⟨?_, ?_, rfl⟩ <;> simp only [Instr.opNumber, Instr.argNumber, BitVec.toNat_ofNat] <;> omega

/-- The word of an operation that a word decodes to is that word. -/
theorem encode_of_decode {hasTick : Bool} {w : EventWord} {i : Instr} (h : decode hasTick w = .ok i) :
    encode i = w := by
  have hs : specDecode hasTick (w.toNat / 65536) (w.toNat % 65536) = some i := by
    rw [← decode_toOption, h]; rfl
  obtain ⟨hop, harg, _⟩ := specDecode_eq_some (Nat.mod_lt _ (by decide)) hs
  apply BitVec.eq_of_toNat_eq
  rw [encode_toNat, hop, harg, Nat.div_add_mod]

/-! The rows of the opcode map. -/

/-- A mask of R77 clears the low `n` bits. -/
theorem masked_toNat (w : EventWord) (n : Nat) :
    (w &&& BitVec.allOnes 20 <<< n).toNat = w.toNat / 2 ^ n * 2 ^ n := by
  rw [← BitVec.shiftLeft_ushiftRight, BitVec.toNat_shiftLeft, BitVec.toNat_ushiftRight, Nat.shiftRight_eq_div_pow,
    Nat.shiftLeft_eq]
  exact Nat.mod_eq_of_lt (Nat.lt_of_le_of_lt (Nat.div_mul_le_self _ _) w.isLt)

/-- A row whose mask clears the low `n` bits matches exactly the words that agree with its pattern above them. -/
theorem matches_iff {r : OpcodeRow} {n : Nat} (hm : r.mask = BitVec.allOnes 20 <<< n) (w : EventWord) :
    r.matches w = true ↔ w.toNat / 2 ^ n * 2 ^ n = r.pattern.toNat := by
  rw [OpcodeRow.matches, beq_iff_eq, hm, BitVec.toNat_eq, masked_toNat]

/-- A word that decodes to nothing matches no row. -/
theorem not_matches_of_decode_error {w : EventWord} {e : DecodeError} (h : decode true w = .error e) :
    ∀ r ∈ opcodeTable, ¬ r.matches w = true := by
  have hs : specDecode true (w.toNat / 65536) (w.toNat % 65536) = none := by
    rw [← decode_toOption, h]; rfl
  have hbad := (specDecode_eq_none_iff _ _ _).1 hs
  simp only [List.mem_cons, List.not_mem_nil, or_false, reduceCtorEq, false_and] at hbad
  have whole (m : String) (p : EventWord) := matches_iff (r := ⟨m, p, 0xFFFFF⟩) (n := 0) rfl w
  have aboveByte (m : String) (p : EventWord) := matches_iff (r := ⟨m, p, 0xFFF00⟩) (n := 8) rfl w
  have aboveHalf (m : String) (p : EventWord) := matches_iff (r := ⟨m, p, 0xF0000⟩) (n := 16) rfl w
  simp only [opcodeTable, List.forall_mem_cons, whole, aboveByte, aboveHalf, List.not_mem_nil, false_implies,
    implies_true, and_true, BitVec.reduceToNat]
  omega

/-- The word of an operation matches its own row and no other. -/
theorem encode_matches_own_row (i : Instr) : Laws.RowOfTable.Statement i := by
  cases i with
  | idle => exact Laws.RowOfTable.idle
  | rxi b => exact Laws.RowOfTable.rxi b
  | take => exact Laws.RowOfTable.take
  | send b => exact Laws.RowOfTable.send b
  | txc => exact Laws.RowOfTable.txc
  | tick => exact Laws.RowOfTable.tick
  | elapsed => exact Laws.RowOfTable.elapsed
  | loadcd v => exact Laws.RowOfTable.loadcd v

/-- The rows that a word matches are the row of the operation it decodes to. -/
theorem rows_matching (w : EventWord) :
    (opcodeTable.filter (·.matches w)).map (·.mnemonic) =
      match decode true w with
      | .ok i => [i.mnemonic]
      | .error _ => [] := by
  cases hd : decode true w with
  | ok i =>
    have := encode_matches_own_row i
    rwa [Laws.RowOfTable.Statement, encode_of_decode hd] at this
  | error e =>
    rw [List.filter_eq_nil_iff.2 (not_matches_of_decode_error hd)]
    rfl

end Sys2Proof
end

section
/-! SUPPORT. The answer words and the ports of a step with one output (30_encoding.md R74, R78). -/

namespace Sys2Proof.Machine

theorem answerWord_true (b : Byte) : answerWord true b = 0x100 ||| b.setWidth 9 := by
  revert b; decide

/-- The txw word is `txreg_wr` before `txreg_data`. -/
theorem txwWord_eq_ports {t : State} {o : Output} (ho : t.outs = [o]) :
    txwWord o.txw = BitVec.ofBool t.ports.txregWr ++ t.ports.txregData := by
  rw [State.ports, ho]
  obtain ⟨r, x⟩ := o
  cases x <;> rfl

/-- A `TAKE`, or its first micro-step, answers `empty`, a byte, or nothing yet. -/
theorem execTake_resp {s t : State} {o : Output} (h : execTake s = .next t) (ho : t.outs = [o]) :
    o.resp = .empty ∨ (∃ b, o.resp = .byte b) ∨ o.resp = .none := by
  rcases execTake_next h with ⟨_, h⟩ | ⟨_, _, h⟩
  · rcases takeAtomic_next h with ⟨_, rfl⟩ | ⟨_, rfl⟩ <;> cases ho
    · exact .inl rfl
    · exact .inr (.inl ⟨_, rfl⟩)
  · rcases takeA_next h with ⟨_, rfl⟩ | ⟨_, rfl⟩ <;> cases ho
    · exact .inl rfl
    · exact .inr (.inr rfl)

/-- `ELAPSED` answers a flag. -/
theorem execElapsed_resp {s t : State} {o : Output} (h : execElapsed s = .next t) (ho : t.outs = [o]) :
    ∃ f, o.resp = .flag f := by
  obtain ⟨_, rfl⟩ := execElapsed_next h
  cases ho
  exact ⟨_, rfl⟩

/-- No operation but `TAKE` and `ELAPSED` answers the foreground. -/
theorem exec_resp_none {i : Instr} {s t : State} {o : Output} (ht : i ≠ .take) (he : i ≠ .elapsed)
    (h : exec i s = .next t) (ho : t.outs = [o]) : o.resp = .none := by
  cases i with
  | idle => cases h; cases ho; rfl
  | rxi b => rcases execRxi_next h with ⟨_, rfl⟩ | ⟨_, rfl⟩ <;> cases ho <;> rfl
  | take => exact absurd rfl ht
  | send b =>
    rcases execSend_next h with ⟨_, h⟩ | ⟨_, _, h⟩
    · rcases sendAtomic_next h with ⟨_, rfl⟩ | ⟨_, rfl⟩ | ⟨_, rfl⟩ <;> cases ho <;> rfl
    · cases h; cases ho; rfl
  | txc => rcases execTxc_next h with ⟨_, rfl⟩ | ⟨_, rfl⟩ <;> cases ho <;> rfl
  | tick => obtain ⟨_, rfl⟩ := execTick_next h; cases ho; rfl
  | elapsed => exact absurd rfl he
  | loadcd v => obtain ⟨_, rfl⟩ := execLoadcd_next h; cases ho; rfl

/-- After a `TAKE` the response word is `take_valid` before `take_data`. -/
theorem execTake_word_eq_ports {s t : State} {o : Output} (h : execTake s = .next t) (ho : t.outs = [o]) :
    o.resp.word = BitVec.ofBool t.ports.takeValid ++ t.ports.takeData := by
  have hr := execTake_resp h ho
  rw [State.ports, ho]
  obtain ⟨r, x⟩ := o
  rcases hr with rfl | ⟨b, rfl⟩ | rfl <;> rfl

/-- After an `ELAPSED` the response word is `elapsed_flag` before 0x00. -/
theorem execElapsed_word_eq_ports {s t : State} {o : Output} (h : execElapsed s = .next t) (ho : t.outs = [o]) :
    o.resp.word = BitVec.ofBool t.ports.elapsedFlag ++ (0 : Byte) := by
  have hr := execElapsed_resp h ho
  rw [State.ports, ho]
  obtain ⟨r, x⟩ := o
  obtain ⟨f, rfl⟩ := hr
  cases f <;> rfl

end Sys2Proof.Machine
end

section
/-! SUPPORT. A step of the port view as a run of events (30_encoding.md R73, 60_exceptions.md R189). -/

namespace Sys2Proof.Machine

/-- Every operation that exists answers a next state (60_exceptions.md R180). -/
theorem exec_completes {i : Instr} {s : State} (hw : i.wellFormed s.cfg.hasTick = true) : ∃ t, exec i s = .next t := by
  have countdown (hc : i.ofCountdown = true) : s.cfg.hasTick = true := by
    simpa [Instr.wellFormed, hc] using hw
  cases i with
  | idle => exact ⟨_, rfl⟩
  | rxi b =>
    rw [exec, execRxi]
    split <;> exact ⟨_, rfl⟩
  | take =>
    rw [exec, execTake, takeAtomic, takeA]
    split <;> split <;> exact ⟨_, rfl⟩
  | send b =>
    rw [exec, execSend, sendAtomic, sendA]
    split
    · split <;> exact ⟨_, rfl⟩
    · exact ⟨_, rfl⟩
  | txc =>
    rw [exec, execTxc]
    split <;> exact ⟨_, rfl⟩
  | tick => exact ⟨_, if_pos (countdown rfl)⟩
  | elapsed => exact ⟨_, if_pos (countdown rfl)⟩
  | loadcd v => exact ⟨_, if_pos (countdown rfl)⟩

/-- With `ATOMIC_FG = true` an operation is whole as it stands. -/
theorem execWhole_of_atomic {i : Instr} {s t : State} (ha : s.cfg.atomicFg = true) (h : exec i s = .next t) :
    execWhole i s = .next t := by
  have ht : t.midOperation = false := State.not_midOperation_of_atomic (by rw [(exec_keeps_outside h).1]; exact ha)
  simp [execWhole, h, finish, ht]

/-- The events of a step are a run, and the step's outputs are the run's after those already `done`. -/
theorem runInStep_eq_runEvents {is : List Instr} {s : State} (ha : s.cfg.atomicFg = true)
    (hc : s.cfg.hasTick = true) :
    ∃ t os, runEvents (is.map .op) s = some (t, os) ∧
      ∀ done, runInStep is done s = .next { t with outs := done ++ os } := by
  induction is generalizing s with
  | nil => exact ⟨s, [], rfl, fun done => by simp [runInStep]⟩
  | cons i is ih =>
    obtain ⟨u, hu⟩ := exec_completes (i := i) (s := s) (by simp [Instr.wellFormed, hc])
    have hcfg := (exec_keeps_outside hu).1
    obtain ⟨t, os, hrun, hstep⟩ := ih (s := u) (by rw [hcfg]; exact ha) (by rw [hcfg]; exact hc)
    refine ⟨t, u.outs ++ os, ?_, fun done => ?_⟩
    · simp [runEvents, execEvent, hu, hrun]
    · simp [runInStep, execWhole_of_atomic ha hu, hstep]

/-- The high inputs of a list of inputs, first one first. -/
theorem raised_cons (high : Bool) (i : Instr) (l : List (Bool × Instr)) :
    (((high, i) :: l).filter (·.1)).map (·.2) = raisedBy high i ++ (l.filter (·.1)).map (·.2) := by
  cases high <;> rfl

end Sys2Proof.Machine
end

section
/-! The obligations of 30_encoding.md, and of the port view's step. -/

namespace Sys2Proof.Machine

/-- Settles O2: the decoder is R80's chain of tests, row by row, and the encoder's rows stand in its definition. -/
theorem decoderAndEncoderAreTheSpecs : Obligations.DecoderAndEncoderAreTheSpecs :=
  ⟨decode_toOption, rfl, rfl, rfl, rfl, rfl, fun _ => ⟨rfl, rfl⟩, fun _ => rfl⟩

/-- Settles O3: R80's chain of tests gives nothing exactly in R79's cases, and a step passes the decoder's error on. -/
theorem invalidWordsAreRefused : Obligations.InvalidWordsAreRefused := by
  refine ⟨fun hasTick w => ?_, fun s w rest hin hnone => ?_⟩
  · have hbyte : w.toNat % 65536 / 256 = w.toNat / 256 % 256 := by omega
    rw [decode_toOption, specDecode_eq_none_iff, hbyte]
  · obtain ⟨e, he⟩ := decode_toOption_eq_none hnone
    exact ⟨e, by simp [step, nextStep, hin, perform, he]⟩

/-- Settles O4: the table is R77's data, and its rows match as `rows_matching` says. -/
theorem opcodeMapDecidesTheOperation : Obligations.OpcodeMapDecidesTheOperation :=
  ⟨rfl, rows_matching, rfl, fun _ _ => ⟨rfl, rfl, rfl, rfl, rfl, rfl, rfl⟩, rfl, rfl, rfl, rfl⟩

/-- Settles O6: the words as bits, and what each operation can answer beside the ports of that answer. -/
theorem answerWordsMirrorThePorts : Obligations.AnswerWordsMirrorThePorts := by
  refine ⟨fun b => ⟨answerWord_true b, answerWord_true b⟩, rfl, rfl, rfl, rfl, rfl, fun i s t o h ho => ?_⟩
  refine ⟨txwWord_eq_ports ho, ?_, ?_, fun ht he => ?_⟩
  · rintro rfl
    exact execTake_word_eq_ports h ho
  · rintro rfl
    exact execElapsed_word_eq_ports h ho
  · rw [exec_resp_none ht he h ho]
    rfl

/-- Settles O10: the inputs that are high are listed in the fixed order, and their events run as a run does. -/
theorem portStepIsItsEventsInOrder : Obligations.PortStepIsItsEventsInOrder := by
  refine ⟨fun p s hr => if_pos hr, fun p s hr ha hc => ?_⟩
  intro high raised
  have hraised : p.raised s.cfg.hasTick = raised := by
    simp [raised, high, raised_cons, PortIn.raised, hc]
  obtain ⟨t, os, hrun, hstep⟩ := runInStep_eq_runEvents (is := p.events s.cfg.hasTick) ha hc
  refine ⟨t, os, ?_, ?_⟩
  · rwa [PortIn.events, hraised] at hrun
  · simp [portStep, hr, hstep]

end Sys2Proof.Machine
end

section
/-! SUPPORT. What `RXI` and `TAKE` do, branch by branch (40_receive_path.md R100, R104). -/

namespace Sys2Proof.Machine

/-- `RXI` on a full ring under `DROP_NEWEST`. -/
theorem exec_rxi_of_rejected {s : State} (h : s.cfg.ovfRx = .dropNewest ∧ s.rx.isFull = true) (b : Byte) :
    exec (.rxi b) s = .next { s with rxDropCnt := satInc s.rxDropCnt, outs := [.quiet] } :=
  if_pos h

/-- `RXI` everywhere else. -/
theorem exec_rxi_of_accepted {s : State} (h : ¬(s.cfg.ovfRx = .dropNewest ∧ s.rx.isFull = true)) (b : Byte) :
    exec (.rxi b) s = .next { s with rx := s.rx.store b, outs := [.quiet] } :=
  if_neg h

theorem exec_take_of_atomic {s : State} (ha : s.cfg.atomicFg = true) : exec .take s = takeAtomic s :=
  if_pos (State.runsWhole_of_atomic ha)

theorem exec_take_of_empty {s : State} (ha : s.cfg.atomicFg = true) (he : s.rx.isEmpty = true) :
    exec .take s = .next { s with outs := [.answer .empty] } :=
  (exec_take_of_atomic ha).trans (if_pos he)

theorem exec_take_of_not_empty {s : State} (ha : s.cfg.atomicFg = true) (he : s.rx.isEmpty = false) :
    exec .take s = .next { s with rx := s.rx.advance, outs := [.answer (.byte s.rx.front)] } :=
  (exec_take_of_atomic ha).trans (if_neg (by simp [he]))

/-- `TAKE` answers `empty` exactly on an empty ring. -/
theorem exec_take_eq_empty_iff {s : State} (ha : s.cfg.atomicFg = true) :
    exec .take s = .next { s with outs := [.answer .empty] } ↔ s.rx.isEmpty = true := by
  refine ⟨fun h => ?_, exec_take_of_empty ha⟩
  cases he : s.rx.isEmpty with
  | true => rfl
  | false =>
    rw [exec_take_of_not_empty ha he] at h
    injection h with h
    cases congrArg State.outs h

end Sys2Proof.Machine
end

section
/-! SUPPORT. What events and runs do to the parameters and to the receive ring. -/

namespace Sys2Proof.Machine

theorem execEvent_keeps_cfg {e : Event} {s t : State} (h : execEvent e s = .next t) : t.cfg = s.cfg := by
  cases e with
  | op i => exact (exec_keeps_outside h).1
  | reset => cases h; rfl

theorem runEvents_keeps_cfg {es : List Event} {s u : State} {os : List Output} (h : runEvents es s = some (u, os)) :
    u.cfg = s.cfg := by
  induction es generalizing s os with
  | nil => cases h; rfl
  | cons e es ih =>
    obtain ⟨t, os', ht, hr, -⟩ := runEvents_cons h
    rw [ih hr, execEvent_keeps_cfg ht]

theorem afterEvent_eq {e : Event} {s t : State} (h : execEvent e s = .next t) : afterEvent e s = t := by
  simp [afterEvent, h]

theorem afterEvent_cfg (e : Event) (s : State) : (afterEvent e s).cfg = s.cfg := by
  cases h : execEvent e s with
  | next t => rw [afterEvent_eq h, execEvent_keeps_cfg h]
  | fault r => cases r
  | refused r => simp [afterEvent, h]

theorem alongRun_cons {f : Event → State → Option Byte} {e : Event} {es : List Event} {s t : State}
    (h : execEvent e s = .next t) : alongRun f (e :: es) s = (f e s).toList ++ alongRun f es t := by
  rw [alongRun, afterEvent_eq h]

theorem runAvoids_cons {bad : Event → State → Bool} {e : Event} {es : List Event} {s t : State}
    (h : execEvent e s = .next t) :
    runAvoids bad (e :: es) s = true ↔ bad e s = false ∧ runAvoids bad es t = true := by
  simp [runAvoids, afterEvent_eq h]

theorem takenBytes_append (os os' : List Output) : takenBytes (os ++ os') = takenBytes os ++ takenBytes os' :=
  List.filterMap_append

/-- No byte is pending after reset. -/
theorem State.init_rx_pending (nRx nTx : Nat) (hRx : 2 ≤ nRx) (hTx : 2 ≤ nTx) (c : Config) :
    (State.init nRx nTx hRx hTx c).rx.pending = [] :=
  (RingBuf.pending_eq_nil_iff _).2 rfl

/-- An operation of another part leaves the receive ring and answers no byte (60_exceptions.md R188). -/
theorem exec_keeps_rx {i : Instr} {s t : State} (hp : partOf i ≠ .rx) (h : exec i s = .next t) :
    t.rx = s.rx ∧ takenBytes t.outs = [] := by
  cases i with
  | idle => cases h; exact ⟨rfl, rfl⟩
  | rxi b => exact absurd rfl hp
  | take => exact absurd rfl hp
  | send b =>
    rcases execSend_next h with ⟨_, h⟩ | ⟨_, _, h⟩
    · rcases sendAtomic_next h with ⟨_, rfl⟩ | ⟨_, rfl⟩ | ⟨_, rfl⟩ <;> exact ⟨rfl, rfl⟩
    · cases h; exact ⟨rfl, rfl⟩
  | txc => rcases execTxc_next h with ⟨_, rfl⟩ | ⟨_, rfl⟩ <;> exact ⟨rfl, rfl⟩
  | tick => obtain ⟨_, rfl⟩ := execTick_next h; exact ⟨rfl, rfl⟩
  | elapsed => obtain ⟨_, rfl⟩ := execElapsed_next h; exact ⟨rfl, rfl⟩
  | loadcd v => obtain ⟨_, rfl⟩ := execLoadcd_next h; exact ⟨rfl, rfl⟩

/-- Only `RXI` stores a byte in the receive ring. -/
theorem storesRx_of_partOf_ne {i : Instr} (hp : partOf i ≠ .rx) (s : State) : storesRx (.op i) s = none := by
  cases i with
  | rxi b => exact absurd rfl hp
  | _ => rfl

/-- Everything an operation can do to the receive ring with `ATOMIC_FG = true`: leave it, store the byte it accepts, or
take the byte at the tail and answer it. -/
theorem exec_rx_cases {i : Instr} {s t : State} (ha : s.cfg.atomicFg = true) (h : exec i s = .next t) :
    (storesRx (.op i) s = none ∧ t.rx = s.rx ∧ takenBytes t.outs = []) ∨
    (∃ b, storesRx (.op i) s = some b ∧ t.rx = s.rx.store b ∧ takenBytes t.outs = []) ∨
    (storesRx (.op i) s = none ∧ s.rx.isEmpty = false ∧ t.rx = s.rx.advance ∧ takenBytes t.outs = [s.rx.front]) := by
  by_cases hp : partOf i = .rx
  · cases i with
    | rxi b =>
      rcases execRxi_next h with ⟨hd, rfl⟩ | ⟨hd, rfl⟩
      · exact .inl ⟨if_pos hd, rfl, rfl⟩
      · exact .inr (.inl ⟨b, if_neg hd, rfl, rfl⟩)
    | take =>
      rw [exec_take_of_atomic ha] at h
      rcases takeAtomic_next h with ⟨_, rfl⟩ | ⟨he, rfl⟩
      · exact .inl ⟨rfl, rfl, rfl⟩
      · exact .inr (.inr ⟨rfl, he, rfl, rfl⟩)
    | _ => cases hp
  · exact .inl ⟨storesRx_of_partOf_ne hp s, exec_keeps_rx hp h⟩

/-- Every operation keeps the canonical form of the receive store. -/
theorem exec_keeps_rx_wf {i : Instr} {s t : State} (ha : s.cfg.atomicFg = true)
    (hw : Memory.wf s.rx.cap s.rx.buf = true) (h : exec i s = .next t) : Memory.wf t.rx.cap t.rx.buf = true := by
  rcases exec_rx_cases ha h with ⟨_, hr, _⟩ | ⟨b, _, hr, _⟩ | ⟨_, _, hr, _⟩ <;> rw [hr]
  · exact hw
  · exact RingBuf.store_wf hw b
  · exact hw

end Sys2Proof.Machine
end

section
/-! SUPPORT. FIFO order of the receive path (40_receive_path.md R106): each event takes bytes off the front of
`pending` and appends the byte it accepts, so `taken ++ pending` grows by exactly the accepted bytes. -/

namespace Sys2Proof.Machine

/-- Where no `RXI` overflows, a byte is stored only in a ring that is not full. -/
theorem not_full_of_storesRx {e : Event} {s : State} {b : Byte}
    (hov : s.cfg.ovfRx = .dropNewest ∨ overflowsRx e s = false) (hs : storesRx e s = some b) :
    s.rx.isFull = false := by
  unfold storesRx at hs
  split at hs
  · split at hs
    · cases hs
    · rename_i hacc
      rw [← Bool.not_eq_true]
      intro hfull
      cases hpol : s.cfg.ovfRx with
      | wrap => simp [overflowsRx, hpol, hfull] at hov
      | dropNewest => exact hacc ⟨hpol, hfull⟩
  · cases hs

/-- One operation, no overflow: what it takes and what is then pending is what was pending and what it accepts. -/
theorem taken_append_pending_of_exec {i : Instr} {s t : State} (ha : s.cfg.atomicFg = true)
    (hw : Memory.wf s.rx.cap s.rx.buf = true) (hov : s.cfg.ovfRx = .dropNewest ∨ overflowsRx (.op i) s = false)
    (h : exec i s = .next t) :
    takenBytes t.outs ++ t.rx.pending = s.rx.pending ++ (storesRx (.op i) s).toList := by
  rcases exec_rx_cases ha h with ⟨hs, hr, ht⟩ | ⟨b, hs, hr, ht⟩ | ⟨hs, he, hr, ht⟩ <;> rw [hs, hr, ht]
  · simp
  · exact RingBuf.pending_store hw (not_full_of_storesRx hov hs) b
  · simp [RingBuf.pending_advance he]

/-- A run without overflow and without `RESET`: the same, from any state. -/
theorem taken_append_pending_of_run {es : List Event} {s u : State} {os : List Output} (ha : s.cfg.atomicFg = true)
    (hw : Memory.wf s.rx.cap s.rx.buf = true) (hreset : Event.reset ∉ es)
    (hov : s.cfg.ovfRx = .dropNewest ∨ runAvoids overflowsRx es s = true) (h : runEvents es s = some (u, os)) :
    takenBytes os ++ u.rx.pending = s.rx.pending ++ alongRun storesRx es s := by
  induction es generalizing s os with
  | nil => cases h; exact (List.append_nil _).symm
  | cons e es ih =>
    obtain ⟨t, os', ht, hr, rfl⟩ := runEvents_cons h
    have hcfg := execEvent_keeps_cfg ht
    cases e with
    | reset => exact absurd List.mem_cons_self hreset
    | op i =>
      rw [runAvoids_cons ht] at hov
      have hhead := taken_append_pending_of_exec ha hw (hov.imp_right And.left) ht
      have htail := ih (hcfg ▸ ha) (exec_keeps_rx_wf ha hw ht) (fun hm => hreset (List.mem_cons_of_mem _ hm))
        (hcfg ▸ hov.imp_right And.right) hr
      rw [takenBytes_append, List.append_assoc, htail, ← List.append_assoc, hhead, alongRun_cons ht,
        List.append_assoc]

/-- Under `WRAP` every byte given to `RXI` is accepted. -/
theorem accepted_eq_rxiBytes_of_wrap {s : State} (hwrap : s.cfg.ovfRx = .wrap) (es : List Event) :
    alongRun storesRx es s = rxiBytes es := by
  induction es generalizing s with
  | nil => rfl
  | cons e es ih =>
    rw [alongRun, ih (by rw [afterEvent_cfg]; exact hwrap)]
    cases e with
    | reset => rfl
    | op i => cases i <;> simp [storesRx, hwrap, rxiBytes]

end Sys2Proof.Machine
end

section
/-! The obligations of 40_receive_path.md on `RXI`, `TAKE` and their order. -/

namespace Sys2Proof.Machine

/-- Settles O22: the ring after an accepted byte is the head-indexed store, whose slots `RingBuf.store_slot` gives. -/
theorem rxiStoresOrCountsADrop : Obligations.RxiStoresOrCountsADrop := by
  intro b s hw
  rw [← RingBuf.isFull_iff]
  refine ⟨fun h => exec_rxi_of_rejected h b, fun h => ?_, rfl, rfl, rfl, rfl⟩
  refine ⟨s.rx.store b, exec_rxi_of_accepted h b, rfl, rfl, rfl, ?_, fun a hne => ?_⟩
  · rw [RingBuf.store_slot hw, if_pos rfl]
  · rw [RingBuf.store_slot hw, if_neg hne]

/-- Settles O26: the ring after a byte is taken is the tail's advance, which leaves every slot. -/
theorem takeAnswersEmptyOrTheTailByte : Obligations.TakeAnswersEmptyOrTheTailByte := by
  intro s ha
  rw [Ne, ← RingBuf.isEmpty_iff, Bool.not_eq_true]
  refine ⟨exec_take_of_empty ha, fun he => ?_, rfl, rfl, rfl, rfl⟩
  exact ⟨s.rx.front, s.rx.advance, s.rx.slot_tail, exec_take_of_not_empty ha he, rfl, rfl, rfl, fun _ => rfl, rfl⟩

/-- Settles O28: from the reset state nothing is pending, so the bytes taken and the bytes pending are the accepted bytes;
and `TAKE` answers `empty` exactly when none is pending. -/
theorem receivePathIsFifo : Obligations.ReceivePathIsFifo := by
  intro nRx nTx hRx hTx c es s os ha hreset hov hrun accepted
  have hfifo : takenBytes os ++ s.rx.pending = accepted := by
    rw [taken_append_pending_of_run ha rfl hreset hov hrun, State.init_rx_pending, List.nil_append]
  have hs : s.cfg.atomicFg = true := by rw [runEvents_keeps_cfg hrun]; exact ha
  refine ⟨hfifo, ⟨_, hfifo⟩, fun hwrap => accepted_eq_rxiBytes_of_wrap hwrap es, ?_⟩
  calc exec .take s = .next { s with outs := [⟨.empty, none⟩] }
      ↔ s.rx.isEmpty = true := exec_take_eq_empty_iff hs
    _ ↔ s.rx.pending = [] := (RingBuf.pending_eq_nil_iff _).symm
    _ ↔ takenBytes os = accepted := by rw [← hfifo, List.self_eq_append_right]

end Sys2Proof.Machine
end

section
/-! SUPPORT. What `SEND` and `TXC` do, branch by branch (41_transmit_path.md R120, R124, R125). -/

namespace Sys2Proof.Machine

/-- When `SEND` drops its byte; `tx_busy` has no part in it (R123), for a full ring is not empty. -/
theorem State.sendPath_drop {s : State} :
    s.sendPath = .drop ↔ s.cfg.ovfTx = .dropNewest ∧ inc s.tx.cap s.tx.head = s.tx.tail := by
  rw [State.sendPath_eq]
  split
  · next hfast =>
    refine iff_of_false (by decide) fun ⟨_, hfull⟩ => ?_
    exact inc_ne s.tx.two_le_cap (hfull.trans hfast.1.symm)
  · split <;> simp [*]

theorem exec_send_of_atomic {s : State} (ha : s.cfg.atomicFg = true) (b : Byte) :
    exec (.send b) s = sendAtomic b s :=
  if_pos (State.runsWhole_of_atomic ha)

theorem exec_send_of_fast {s : State} (ha : s.cfg.atomicFg = true) (hp : s.sendPath = .fast) (b : Byte) :
    exec (.send b) s = .next { s with txBusy := true, outs := [.write b] } := by
  rw [exec_send_of_atomic ha, sendAtomic, hp]
  rfl

theorem exec_send_of_drop {s : State} (ha : s.cfg.atomicFg = true) (hp : s.sendPath = .drop) (b : Byte) :
    exec (.send b) s = .next { s with txDropCnt := satInc s.txDropCnt, outs := [.quiet] } := by
  rw [exec_send_of_atomic ha, sendAtomic, hp]
  rfl

theorem exec_send_of_buffered {s : State} (ha : s.cfg.atomicFg = true) (hp : s.sendPath = .buffered) (b : Byte) :
    exec (.send b) s = .next { s with tx := s.tx.store b, outs := [.quiet] } := by
  rw [exec_send_of_atomic ha, sendAtomic, hp]
  rfl

/-- A `SEND` off the fast path writes nothing to the output register and leaves `tx_busy`. -/
theorem exec_send_of_not_fast {s : State} (ha : s.cfg.atomicFg = true) (hp : s.sendPath ≠ .fast) (b : Byte) :
    ∃ t, exec (.send b) s = .next t ∧ t.outs = [.quiet] ∧ t.txBusy = s.txBusy := by
  cases hs : s.sendPath with
  | fast => exact absurd hs hp
  | drop => exact ⟨_, exec_send_of_drop ha hs b, rfl, rfl⟩
  | buffered => exact ⟨_, exec_send_of_buffered ha hs b, rfl, rfl⟩

theorem exec_txc_of_empty {s : State} (he : s.tx.isEmpty = true) :
    exec .txc s = .next { s with txBusy := false, outs := [.quiet] } :=
  if_pos he

theorem exec_txc_of_not_empty {s : State} (he : s.tx.isEmpty = false) :
    exec .txc s = .next { s with tx := s.tx.advance, txBusy := true, outs := [.write s.tx.front] } :=
  if_neg (by simp [he])

end Sys2Proof.Machine
end

section
/-! The obligations of 41_transmit_path.md on one `SEND` and one `TXC`. -/

namespace Sys2Proof.Machine

/-- Settles O31: each branch's condition says which path `SEND` takes; the ring after a buffered byte is the head-indexed
store, whose slots `RingBuf.store_slot` gives. -/
theorem sendTakesOneOfThreePaths : Obligations.SendTakesOneOfThreePaths := by
  intro b s ha hw
  refine ⟨fun hfast => ?_, fun hdrop => ?_, fun hfast hdrop => ?_, rfl, rfl, rfl, rfl⟩
  · exact exec_send_of_fast ha (by rw [State.sendPath_eq, if_pos hfast]) b
  · exact exec_send_of_drop ha (State.sendPath_drop.2 hdrop) b
  · have hbuffered : s.sendPath = .buffered := by rw [State.sendPath_eq, if_neg hfast, if_neg hdrop]
    refine ⟨s.tx.store b, exec_send_of_buffered ha hbuffered b, rfl, rfl, rfl, ?_, fun a hne => ?_⟩
    · rw [RingBuf.store_slot hw, if_pos rfl]
    · rw [RingBuf.store_slot hw, if_neg hne]

/-- Settles O32: by the invariant an idle path has an empty ring, which is all the fast path asks beside `tx_busy = 0`. -/
theorem fastPathExactlyWhenIdle : Obligations.FastPathExactlyWhenIdle := by
  intro b s hinv ha
  refine ⟨fun hidle => ?_, fun hbusy => ?_⟩
  · have hempty := hinv.idleEmpty ha hidle
    exact ⟨(RingBuf.isEmpty_iff _).1 hempty, exec_send_of_fast ha (State.sendPath_fast.2 ⟨hempty, hidle⟩) b⟩
  · have hslow : s.sendPath ≠ .fast := by simp [State.sendPath_fast, hbusy]
    obtain ⟨t, ht, houts, hkeep⟩ := exec_send_of_not_fast ha hslow b
    exact ⟨t, ht, houts, hkeep.trans hbusy⟩

/-- Settles O33: the ring after a byte is handed over is the tail's advance, which leaves every slot. -/
theorem txcHandsOverOrGoesIdle : Obligations.TxcHandsOverOrGoesIdle := by
  intro s
  rw [Ne, ← RingBuf.isEmpty_iff, Bool.not_eq_true]
  refine ⟨fun he => ?_, exec_txc_of_empty, rfl, rfl, rfl, rfl⟩
  exact ⟨s.tx.front, s.tx.advance, s.tx.slot_tail, exec_txc_of_not_empty he, rfl, rfl, rfl, fun _ => rfl, rfl⟩

end Sys2Proof.Machine
end

section
/-! SUPPORT. What `TICK`, `ELAPSED` and `LOADCD` do with `HAS_TICK`, and what every other operation and a run do to the
countdown (42_tick_countdown.md R140, R143, R146). -/

namespace Sys2Proof.Machine

theorem satDec_zero : satDec 0 = 0 := rfl

theorem satDec_eq (c : Half) : satDec c = if c = 0 then 0 else c - 1 := by
  rw [satDec]
  split
  · assumption
  · rfl

theorem exec_tick_of_hasTick {s : State} (hc : s.cfg.hasTick = true) :
    exec .tick s = .next { s with countdown := satDec s.countdown, outs := [.quiet] } :=
  if_pos hc

theorem exec_elapsed_of_hasTick {s : State} (hc : s.cfg.hasTick = true) :
    exec .elapsed s = .next { s with outs := [.answer (.flag (s.countdown == 0))] } :=
  if_pos hc

theorem exec_loadcd_of_hasTick {s : State} (hc : s.cfg.hasTick = true) (v : Half) :
    exec (.loadcd v) s = .next { s with countdown := v, outs := [.quiet] } :=
  if_pos hc

/-- `TICK` and `LOADCD` are the only operations that write the countdown. -/
theorem exec_keeps_countdown {i : Instr} {s t : State} (ht : i ≠ .tick) (hl : ∀ v, i ≠ .loadcd v)
    (h : exec i s = .next t) : t.countdown = s.countdown := by
  cases i with
  | idle => cases h; rfl
  | rxi b => rcases execRxi_next h with ⟨_, rfl⟩ | ⟨_, rfl⟩ <;> rfl
  | take =>
    rcases execTake_next h with ⟨_, h⟩ | ⟨_, _, h⟩
    · rcases takeAtomic_next h with ⟨_, rfl⟩ | ⟨_, rfl⟩ <;> rfl
    · rcases takeA_next h with ⟨_, rfl⟩ | ⟨_, rfl⟩ <;> rfl
  | send b =>
    rcases execSend_next h with ⟨_, h⟩ | ⟨_, _, h⟩
    · rcases sendAtomic_next h with ⟨_, rfl⟩ | ⟨_, rfl⟩ | ⟨_, rfl⟩ <;> rfl
    · cases h; rfl
  | txc => rcases execTxc_next h with ⟨_, rfl⟩ | ⟨_, rfl⟩ <;> rfl
  | tick => exact absurd rfl ht
  | elapsed => obtain ⟨_, rfl⟩ := execElapsed_next h; rfl
  | loadcd v => exact absurd rfl (hl v)

theorem noReload_cons {e : Event} {es : List Event} :
    noReload (e :: es) = true ↔ noReload [e] = true ∧ noReload es = true := by
  simp [noReload]

/-- Where no reload happens, an event counts the countdown down or leaves it. -/
theorem execEvent_countdown_of_noReload {e : Event} {s t : State} (hn : noReload [e] = true)
    (h : execEvent e s = .next t) :
    t.countdown = if e = .op .tick then satDec s.countdown else s.countdown := by
  cases e with
  | reset => cases hn
  | op i =>
    split
    · next he =>
      cases he
      obtain ⟨_, rfl⟩ := execTick_next h
      rfl
    · next he =>
      refine exec_keeps_countdown (fun hi => he (congrArg Event.op hi)) (fun v hv => ?_) h
      subst hv
      cases hn

/-- An `ELAPSED` answers whether the countdown is 0, and no other event answers a flag. -/
theorem elapsedAnswers_of_execEvent {e : Event} {s t : State} (h : execEvent e s = .next t) :
    ∀ f ∈ elapsedAnswers t.outs, f = (s.countdown == 0) := by
  obtain ⟨o, ho⟩ := execEvent_one_output h
  cases e with
  | reset => cases h; exact List.forall_mem_nil _
  | op i =>
    by_cases he : i = .elapsed
    · subst he
      obtain ⟨_, rfl⟩ := execElapsed_next h
      exact List.forall_mem_singleton.2 rfl
    · have hnoFlag : o.resp = .empty ∨ (∃ b, o.resp = .byte b) ∨ o.resp = .none := by
        by_cases ht : i = .take
        · subst ht
          exact execTake_resp h ho
        · exact .inr (.inr (exec_resp_none ht he h ho))
      rcases hnoFlag with hr | ⟨b, hr⟩ | hr <;> simp [elapsedAnswers, ho, hr]

theorem elapsedAnswers_append (os os' : List Output) :
    elapsedAnswers (os ++ os') = elapsedAnswers os ++ elapsedAnswers os' :=
  List.filterMap_append

/-- A countdown at 0 stays there until a reload, so that every `ELAPSED` of the run finds it at 0. -/
theorem elapsedAnswers_of_run_at_zero {es : List Event} {s u : State} {os : List Output} (hzero : s.countdown = 0)
    (hn : noReload es = true) (h : runEvents es s = some (u, os)) : ∀ f ∈ elapsedAnswers os, f = true := by
  induction es generalizing s os with
  | nil => cases h; exact List.forall_mem_nil _
  | cons e es ih =>
    obtain ⟨t, os', ht, hr, rfl⟩ := runEvents_cons h
    obtain ⟨hne, hnes⟩ := noReload_cons.1 hn
    have hstays : t.countdown = 0 := by
      rw [execEvent_countdown_of_noReload hne ht, hzero, satDec_zero, ite_self]
    rw [elapsedAnswers_append, List.forall_mem_append]
    refine ⟨fun f hf => ?_, ih hstays hnes hr⟩
    rw [elapsedAnswers_of_execEvent ht f hf, hzero]
    rfl

end Sys2Proof.Machine
end

section
/-! The obligations of 42_tick_countdown.md on one `TICK`, `ELAPSED` and `LOADCD`, and on `ELAPSED` at 0. -/

namespace Sys2Proof.Machine

/-- Settles O40: R140's pseudocode is the saturating decrement. -/
theorem tickDecrementsToZero : Obligations.TickDecrementsToZero := by
  intro s hc
  rw [← satDec_eq]
  exact ⟨exec_tick_of_hasTick hc, rfl, rfl, rfl, rfl⟩

/-- Settles O42. -/
theorem elapsedReadsTheCountdown : Obligations.ElapsedReadsTheCountdown :=
  fun _ hc => ⟨exec_elapsed_of_hasTick hc, rfl, rfl, rfl, rfl⟩

/-- Settles O43: `ELAPSED` writes its answer only, a countdown at 0 stays there until a reload, and reset puts it
there. -/
theorem elapsedStaysTrueUntilReloaded : Obligations.ElapsedStaysTrueUntilReloaded := by
  refine ⟨fun s t h => ?_, fun es s t os => elapsedAnswers_of_run_at_zero, fun nRx nTx hRx hTx c hc => ?_⟩
  · obtain ⟨_, rfl⟩ := execElapsed_next h
    rfl
  · exact ⟨_, exec_elapsed_of_hasTick hc, rfl⟩

/-- Settles O44: an operation that is neither `TICK` nor `LOADCD` keeps the countdown. -/
theorem loadcdWritesTheCountdown : Obligations.LoadcdWritesTheCountdown := by
  refine ⟨fun v s hc => ⟨exec_loadcd_of_hasTick hc v, rfl, rfl, rfl, rfl⟩, fun i s t h hchanged => ?_⟩
  refine Classical.byContradiction fun hother => ?_
  obtain ⟨hnotTick, hnotLoad⟩ := not_or.1 hother
  exact hchanged (exec_keeps_countdown hnotTick (not_exists.1 hnotLoad) h)

end Sys2Proof.Machine
end

section
/-! SUPPORT. What `IDLE` answers in every state, and that it is the event of a port step that raises nothing
(43_idle.md R160, 30_encoding.md R73). -/

namespace Sys2Proof.Machine

@[simp] theorem exec_idle (s : State) : exec .idle s = .next { s with outs := [.quiet] } := rfl

theorem PortIn.events_of_raised_nil {hasTick : Bool} {p : PortIn} (h : p.raised hasTick = []) :
    p.events hasTick = [.idle] :=
  if_pos h

@[simp] theorem PortIn.raised_of_all_low (hasTick : Bool) : ({} : PortIn).raised hasTick = [] := rfl

end Sys2Proof.Machine
end

section
/-! The obligation of 43_idle.md on one `IDLE`. -/

namespace Sys2Proof.Machine

/-- Settles O47: `IDLE` only records its empty output, and it is the event of the step in which every input is low. -/
theorem idleChangesNothing : Obligations.IdleChangesNothing := by
  intro s
  have hport : ({} : PortIn).events true = [.idle] := PortIn.events_of_raised_nil (PortIn.raised_of_all_low true)
  exact ⟨exec_idle s, rfl, rfl, rfl, hport⟩

end Sys2Proof.Machine
end

section
/-! SUPPORT. The event at each place of the reference host's loop, and where the host goes from the answers
(44_host_loop.md R166 to R168). -/

namespace Sys2Proof.Machine

/-- With `HAS_TICK` the host issues only operations that exist. -/
theorem exec_hostEvent_completes {s : State} (hc : s.cfg.hasTick = true) :
    ∃ t, exec (s.host.pos.event s.cfg) s = .next t :=
  exec_completes (by simp [Instr.wellFormed, hc])

theorem HostPos.after_take_of_empty {s t : State} (ha : s.cfg.atomicFg = true) (he : s.rx.isEmpty = true)
    (h : exec .take s = .next t) : HostPos.take.after s.cfg t.lastResp = .elapsed := by
  rw [exec_take_of_empty ha he] at h
  cases h
  rfl

theorem HostPos.after_take_of_not_empty {s t : State} (ha : s.cfg.atomicFg = true) (he : s.rx.isEmpty = false)
    (h : exec .take s = .next t) : HostPos.take.after s.cfg t.lastResp = .echo s.rx.front := by
  rw [exec_take_of_not_empty ha he] at h
  cases h
  rfl

theorem HostPos.after_echo_of_onePerPass {c : Config} (hd : c.drain = .onePerPass) (b : Byte) (r : Resp) :
    (HostPos.echo b).after c r = .elapsed :=
  if_pos hd

theorem HostPos.after_echo_of_drainFully {c : Config} (hd : c.drain = .drainFully) (b : Byte) (r : Resp) :
    (HostPos.echo b).after c r = .take :=
  if_neg (by simp [hd])

theorem HostPos.after_elapsed {s t : State} (h : exec .elapsed s = .next t) :
    HostPos.elapsed.after s.cfg t.lastResp = if s.countdown = 0 then .reload else .take := by
  obtain ⟨_, rfl⟩ := execElapsed_next h
  simp [HostPos.after, State.lastResp, Output.answer]

end Sys2Proof.Machine
end

section
/-! The obligation of 44_host_loop.md on one step of the reference host. -/

namespace Sys2Proof.Machine

/-- Settles O59: the event is that of the host's place and is done at once, so the host goes on to the place after it. -/
theorem hostLoopFollowsItsTwoPhases : Obligations.HostLoopFollowsItsTwoPhases := by
  intro s ha hc
  obtain ⟨t, ht⟩ := exec_hostEvent_completes hc
  refine ⟨_, t, ht, _, _, execHost_of_atomic ha ht, rfl, fun hp => ?take, fun b hp => ?echo, fun hp => ?elapsed,
    fun hp => ?reload, fun hp => ?mark, fun hp => ?lineEnd⟩
  all_goals rw [hp] at ht ⊢
  case take =>
    exact ⟨rfl, fun he => HostPos.after_take_of_empty ha he ht, fun he => HostPos.after_take_of_not_empty ha he ht⟩
  case echo =>
    exact ⟨rfl, fun hd => HostPos.after_echo_of_onePerPass hd b _, fun hd => HostPos.after_echo_of_drainFully hd b _⟩
  case elapsed =>
    rw [HostPos.after_elapsed ht]
    exact ⟨rfl, fun hz => if_pos hz, fun hnz => if_neg hnz⟩
  case reload => exact ⟨rfl, rfl⟩
  case mark => exact ⟨rfl, rfl⟩
  case lineEnd => exact ⟨rfl, rfl⟩

end Sys2Proof.Machine
end

section
/-! SUPPORT. An operation reads and writes its own part of the state only (60_exceptions.md R188): from any state with
the same parameters, foreground and own part it makes the same change to that part. -/

namespace Sys2Proof.Machine

/-- An operation that the foreground starts with `ATOMIC_FG = false` is not performed whole. -/
theorem State.not_runsWhole_of_split {s : State} (ha : s.cfg.atomicFg = false) (hi : s.fg = .idle) :
    ¬s.runsWhole = true :=
  Bool.eq_false_iff.1 (State.runsWhole_eq_false.2 ⟨ha, hi⟩)

/-- `RXI` and `TAKE`, from any state with the same parameters, foreground and RX part. -/
theorem exec_of_rx_part {i : Instr} {s s' t : State} (hp : partOf i = .rx) (h : exec i s = .next t)
    (hcfg : s'.cfg = s.cfg) (hfg : s'.fg = s.fg) (hrx : s'.rx = s.rx) (hdrop : s'.rxDropCnt = s.rxDropCnt) :
    exec i s' = .next { s' with rx := t.rx, rxDropCnt := t.rxDropCnt, fg := t.fg, outs := t.outs } := by
  -- With the agreeing fields made the same, each test of the operation on `s'` is the test on `s`.
  obtain ⟨⟩ := s'
  subst hcfg hfg hrx hdrop
  cases i with
  | rxi b =>
    rcases execRxi_next h with ⟨hfull, rfl⟩ | ⟨haccepted, rfl⟩
    · exact if_pos hfull
    · exact if_neg haccepted
  | take =>
    rcases execTake_next h with ⟨hwhole, h⟩ | ⟨hsplit, hidle, h⟩
    · refine (if_pos hwhole).trans ?_
      rcases takeAtomic_next h with ⟨hempty, rfl⟩ | ⟨hbyte, rfl⟩
      · exact if_pos hempty
      · exact if_neg (Bool.eq_false_iff.1 hbyte)
    · refine (if_neg (State.not_runsWhole_of_split hsplit hidle)).trans ?_
      rcases takeA_next h with ⟨hempty, rfl⟩ | ⟨hbyte, rfl⟩
      · exact if_pos hempty
      · exact if_neg (Bool.eq_false_iff.1 hbyte)
  | _ => cases hp

/-- `SEND` and `TXC`, from any state with the same parameters, foreground and TX part. -/
theorem exec_of_tx_part {i : Instr} {s s' t : State} (hp : partOf i = .tx) (h : exec i s = .next t)
    (hcfg : s'.cfg = s.cfg) (hfg : s'.fg = s.fg) (htx : s'.tx = s.tx) (hbusy : s'.txBusy = s.txBusy)
    (hdrop : s'.txDropCnt = s.txDropCnt) :
    exec i s' = .next { s' with
      tx := t.tx, txBusy := t.txBusy, txDropCnt := t.txDropCnt, fg := t.fg, outs := t.outs } := by
  have hpath : s'.sendPath = s.sendPath := by simp only [State.sendPath_eq, hcfg, htx, hbusy]
  obtain ⟨⟩ := s'
  subst hcfg hfg htx hbusy hdrop
  cases i with
  | send b =>
    rcases execSend_next h with ⟨hwhole, h⟩ | ⟨hsplit, hidle, h⟩
    · refine (if_pos hwhole).trans ?_
      rw [sendAtomic, hpath]
      rcases sendAtomic_next h with ⟨hs, rfl⟩ | ⟨hs, rfl⟩ | ⟨hs, rfl⟩ <;> rw [hs] <;> rfl
    · refine (if_neg (State.not_runsWhole_of_split hsplit hidle)).trans ?_
      cases h
      rw [sendA, hpath]
      rfl
  | txc =>
    rcases execTxc_next h with ⟨hempty, rfl⟩ | ⟨hbyte, rfl⟩
    · exact if_pos hempty
    · exact if_neg (Bool.eq_false_iff.1 hbyte)
  | _ => cases hp

/-- `TICK`, `ELAPSED` and `LOADCD`, from any state with the same parameters and countdown. -/
theorem exec_of_countdown_part {i : Instr} {s s' t : State} (hp : partOf i = .countdown) (h : exec i s = .next t)
    (hcfg : s'.cfg = s.cfg) (hcd : s'.countdown = s.countdown) :
    exec i s' = .next { s' with countdown := t.countdown, outs := t.outs } := by
  cases i with
  | tick =>
    obtain ⟨hc, rfl⟩ := execTick_next h
    rw [exec_tick_of_hasTick (hcfg ▸ hc), hcd]
  | elapsed =>
    obtain ⟨hc, rfl⟩ := execElapsed_next h
    rw [exec_elapsed_of_hasTick (hcfg ▸ hc), ← hcd]
  | loadcd v =>
    obtain ⟨hc, rfl⟩ := execLoadcd_next h
    rw [exec_loadcd_of_hasTick (hcfg ▸ hc)]
  | _ => cases hp

/-- Everything an operation can write, by its part. -/
theorem exec_writes_own_part {i : Instr} {s t : State} (h : exec i s = .next t) :
    (partOf i = .none ∧ t = { s with outs := t.outs }) ∨
    (partOf i = .rx ∧ t = { s with rx := t.rx, rxDropCnt := t.rxDropCnt, fg := t.fg, outs := t.outs }) ∨
    (partOf i = .tx ∧ t = { s with
      tx := t.tx, txBusy := t.txBusy, txDropCnt := t.txDropCnt, fg := t.fg, outs := t.outs }) ∨
    (partOf i = .countdown ∧ t = { s with countdown := t.countdown, outs := t.outs }) := by
  have same {u : State} (hu : exec i s = .next u) : t = u := Host.Outcome.next.inj (h.symm.trans hu)
  cases hp : partOf i with
  | none =>
    cases i with
    | idle => cases h; exact .inl ⟨rfl, rfl⟩
    | _ => cases hp
  | rx => exact .inr (.inl ⟨rfl, same (exec_of_rx_part hp h rfl rfl rfl rfl)⟩)
  | tx => exact .inr (.inr (.inl ⟨rfl, same (exec_of_tx_part hp h rfl rfl rfl rfl rfl)⟩))
  | countdown => exact .inr (.inr (.inr ⟨rfl, same (exec_of_countdown_part hp h rfl rfl)⟩))

theorem exec_keeps_rxDropCnt {i : Instr} {s t : State} (hp : partOf i ≠ .rx) (h : exec i s = .next t) :
    t.rxDropCnt = s.rxDropCnt := by
  rcases exec_writes_own_part h with ⟨_, ht⟩ | ⟨hrx, _⟩ | ⟨_, ht⟩ | ⟨_, ht⟩
  · rw [ht]
  · exact absurd hrx hp
  · rw [ht]
  · rw [ht]

theorem exec_keeps_tx {i : Instr} {s t : State} (hp : partOf i ≠ .tx) (h : exec i s = .next t) :
    t.tx = s.tx ∧ t.txBusy = s.txBusy ∧ t.txDropCnt = s.txDropCnt := by
  rcases exec_writes_own_part h with ⟨_, ht⟩ | ⟨_, ht⟩ | ⟨htx, _⟩ | ⟨_, ht⟩
  · rw [ht]; exact ⟨rfl, rfl, rfl⟩
  · rw [ht]; exact ⟨rfl, rfl, rfl⟩
  · exact absurd htx hp
  · rw [ht]; exact ⟨rfl, rfl, rfl⟩

/-- Only `SEND` and `TXC` write to the output register. -/
theorem writtenOf_of_partOf_ne_tx {i : Instr} {s t : State} (hp : partOf i ≠ .tx) (h : exec i s = .next t) :
    writtenOf t.outs = none := by
  cases i with
  | idle => cases h; rfl
  | rxi b => rcases execRxi_next h with ⟨_, rfl⟩ | ⟨_, rfl⟩ <;> rfl
  | take =>
    rcases execTake_next h with ⟨_, h⟩ | ⟨_, _, h⟩
    · rcases takeAtomic_next h with ⟨_, rfl⟩ | ⟨_, rfl⟩ <;> rfl
    · rcases takeA_next h with ⟨_, rfl⟩ | ⟨_, rfl⟩ <;> rfl
  | send b => exact absurd rfl hp
  | txc => exact absurd rfl hp
  | tick => obtain ⟨_, rfl⟩ := execTick_next h; rfl
  | elapsed => obtain ⟨_, rfl⟩ := execElapsed_next h; rfl
  | loadcd v => obtain ⟨_, rfl⟩ := execLoadcd_next h; rfl

end Sys2Proof.Machine
end

section
/-! The obligations of 60_exceptions.md on completion and on the three parts of the state. -/

namespace Sys2Proof.Machine

/-- Settles O9: there is no fault to raise, and `exec` answers every operation that exists. -/
theorem noExceptionAndEveryOperationCompletes : Obligations.NoExceptionAndEveryOperationCompletes :=
  ⟨fun _ r => r.casesOn, fun _ _ => exec_completes⟩

/-- Settles O50: the frame of each part, and the change to its own part being the same from every state that agrees on
it. -/
theorem partsDoNotInterfere : Obligations.PartsDoNotInterfere := by
  intro i s t h
  refine ⟨fun hp => ⟨(exec_keeps_rx hp h).1, exec_keeps_rxDropCnt hp h⟩, fun hp => ?_, fun hp => ?_,
    fun s' t' hcfg hfg h' => ⟨fun hp hrx hdrop => ?_, fun hp htx hbusy hdrop => ?_, fun hp hcd => ?_⟩⟩
  · obtain ⟨htx, hbusy, hdrop⟩ := exec_keeps_tx hp h
    exact ⟨htx, hbusy, hdrop, writtenOf_of_partOf_ne_tx hp h⟩
  · exact exec_keeps_countdown (by rintro rfl; exact hp rfl) (by rintro v rfl; exact hp rfl) h
  · cases h'.symm.trans (exec_of_rx_part hp h hcfg hfg hrx hdrop)
    exact ⟨rfl, rfl, rfl, rfl⟩
  · cases h'.symm.trans (exec_of_tx_part hp h hcfg hfg htx hbusy hdrop)
    exact ⟨rfl, rfl, rfl, rfl, rfl⟩
  · cases h'.symm.trans (exec_of_countdown_part hp h hcfg hcd)
    exact ⟨rfl, rfl⟩

end Sys2Proof.Machine
end

section
/-! SUPPORT. `RESET` as the next entry of the schedule, and the rings it leaves (70_reset_and_hazards.md R210, R212). -/

namespace Sys2Proof.Machine

/-- Every slot of an empty ring reads 0x00. -/
theorem RingBuf.empty_slot {n i : Nat} (h : 2 ≤ n) (hi : i < n) : (RingBuf.empty n h).slot i = some 0 :=
  if_pos hi

@[simp] theorem RingBuf.empty_pending (n : Nat) (h : 2 ≤ n) : (RingBuf.empty n h).pending = [] :=
  (RingBuf.pending_eq_nil_iff _).2 (by simp [RingBuf.isEmpty])

theorem step_of_next_input {s : State} {x : Input} {rest : List Input} (h : s.inputs = x :: rest) :
    step s = perform x { s with inputs := rest } := by
  simp [step, nextStep, h]

/-- The tests of a port step see `rst` first. -/
theorem perform_ports_of_rst {p : PortIn} (h : p.rst = true) (s : State) : perform (.ports p) s = execReset s :=
  if_pos h

end Sys2Proof.Machine
end

section
/-! SUPPORT. The micro-steps of a split `TAKE` (70_reset_and_hazards.md R233), and what interrupt operations leave of it. -/

namespace Sys2Proof.Machine

/-- `TAKE.a` on an empty ring. -/
theorem exec_take_of_split_of_empty {s : State} (ha : s.cfg.atomicFg = false) (hi : s.fg = .idle)
    (he : s.rx.isEmpty = true) : exec .take s = .next { s with outs := [.answer .empty] } :=
  (if_neg (State.not_runsWhole_of_split ha hi)).trans (if_pos he)

/-- `TAKE.a` on a ring with a pending byte. -/
theorem exec_take_of_split_of_not_empty {s : State} (ha : s.cfg.atomicFg = false) (hi : s.fg = .idle)
    (he : s.rx.isEmpty = false) :
    exec .take s = .next { s with fg := .takeB s.rx.head s.rx.tail, outs := [.quiet] } :=
  (if_neg (State.not_runsWhole_of_split ha hi)).trans (if_neg (Bool.eq_false_iff.1 he))

theorem RingBuf.slot_of_lt {r : RingBuf} {i : Nat} (hi : i < r.cap) : r.slot i = some (Memory.read r.buf i) :=
  if_pos hi

theorem RingBuf.tailPast_of_lt {r : RingBuf} {t : Nat} (ht : t < r.cap) : ∃ q, r.tailPast t = some q :=
  ⟨_, dif_pos ht⟩

/-- `TAKE.b`. -/
theorem microOf_of_takeB {s : State} {h t : Nat} (hf : s.fg = .takeB h t) (ht : t < s.rx.cap) :
    microOf s = .next { s with fg := .takeC h t (Memory.read s.rx.buf t), outs := [.quiet] } := by
  simp [microOf, hf, takeB, RingBuf.slot_of_lt ht, State.emit]

/-- `TAKE.c`. -/
theorem microOf_of_takeC {s : State} {h t : Nat} {d : Byte} {r : RingBuf} (hf : s.fg = .takeC h t d)
    (hr : s.rx.tailPast t = some r) :
    microOf s = .next { s with rx := r, fg := .idle, outs := [.answer (.byte d)] } := by
  simp [microOf, hf, takeC, hr, State.emit]

/-- Only the foreground writes `rx_tail` and its own temporaries (10_state.md R31): a run of interrupt operations leaves
both. -/
theorem runEvents_irq_keeps {is : List Instr} {s u : State} {os : List Output} (hirq : ∀ i ∈ is, i.context = .irq)
    (h : runEvents (is.map .op) s = some (u, os)) : u.fg = s.fg ∧ u.rx.tail = s.rx.tail := by
  induction is generalizing s os with
  | nil => cases h; exact ⟨rfl, rfl⟩
  | cons i is ih =>
    obtain ⟨t, os', ht, hrun, -⟩ := runEvents_cons h
    obtain ⟨hi, his⟩ := List.forall_mem_cons.1 hirq
    obtain ⟨hfg, htail, -⟩ := exec_irq_keeps (by simp [hi]) ht
    obtain ⟨hfg', htail'⟩ := ih his hrun
    exact ⟨hfg'.trans hfg, htail'.trans htail⟩

/-- The `t` that `TAKE.a` saved is still the true `rx_tail` when `TAKE.c` comes (70_reset_and_hazards.md R233). -/
theorem saved_tail_is_rx_tail {s a b c d : State} {is js : List Instr} {os os' : List Output}
    (ha : s.cfg.atomicFg = false) (hi : s.fg = .idle) (he : s.rx.isEmpty = false)
    (his : ∀ i ∈ is, i.context = .irq) (hjs : ∀ i ∈ js, i.context = .irq) (htakeA : exec .take s = .next a)
    (hgap : runEvents (is.map .op) a = some (b, os)) (htakeB : microOf b = .next c)
    (hgap' : runEvents (js.map .op) c = some (d, os')) : ∃ x, d.fg = .takeC s.rx.head d.rx.tail x := by
  cases htakeA.symm.trans (exec_take_of_split_of_not_empty ha hi he)
  obtain ⟨hfgB, htailB⟩ := runEvents_irq_keeps his hgap
  have hlt : s.rx.tail < b.rx.cap := htailB ▸ b.rx.tail_lt
  cases htakeB.symm.trans (microOf_of_takeB hfgB hlt)
  obtain ⟨hfgD, htailD⟩ := runEvents_irq_keeps hjs hgap'
  exact ⟨_, by rw [hfgD, htailD, htailB]⟩

end Sys2Proof.Machine
end

section
/-! The obligations of 70_reset_and_hazards.md on `RESET` and on the micro-steps of `TAKE`. -/

namespace Sys2Proof.Machine

/-- Settles O52: one equation per micro-step, and interrupt operations leave `rx_tail` and the saved `t`. -/
theorem microStepsOfTake : Obligations.MicroStepsOfTake := by
  refine ⟨fun s ha hi => ⟨fun he => ?_, fun he => ?_⟩, fun s h t hf ht => ?_, fun s h t d hf ht => ?_, ?_⟩
  · exact exec_take_of_split_of_empty ha hi ((RingBuf.isEmpty_iff _).2 he)
  · exact exec_take_of_split_of_not_empty ha hi ((RingBuf.isEmpty_eq_false _).2 he)
  · exact ⟨_, RingBuf.slot_of_lt ht, microOf_of_takeB hf ht⟩
  · obtain ⟨r, hr⟩ := RingBuf.tailPast_of_lt ht
    obtain ⟨-, hfields⟩ := RingBuf.tailPast_eq hr
    exact ⟨r, microOf_of_takeC hf hr, hfields⟩
  · intro s a b c d is js os os' ha hi he hirq htakeA hgap htakeB hgap'
    obtain ⟨his, hjs⟩ := List.forall_mem_append.1 hirq
    exact saved_tail_is_rx_tail ha hi ((RingBuf.isEmpty_eq_false _).2 he) his hjs htakeA hgap htakeB hgap'

/-- Settles O12: both entries perform `RESET` on the same rest of the schedule, and `RESET` leaves empty rings. -/
theorem resetWinsOverOtherInputs : Obligations.ResetWinsOverOtherInputs := by
  intro p s rest hrst hin
  have hstep : step s = execReset { s with inputs := rest } :=
    (step_of_next_input hin).trans (perform_ports_of_rst hrst _)
  refine ⟨hstep, (step_of_next_input (x := .rst) rfl).trans hstep.symm, ?_⟩
  exact ⟨_, hstep, RingBuf.empty_pending _ _, RingBuf.empty_pending _ _, rfl, rfl⟩

/-- Settles O13: the rings are empty rings, and the registers stand in the state `execReset` gives. -/
theorem resetGivesTheResetState : Obligations.ResetGivesTheResetState := by
  intro s
  exact ⟨_, rfl, fun _ hi => RingBuf.empty_slot _ hi, rfl, rfl, fun _ hi => RingBuf.empty_slot _ hi, rfl, rfl,
    rfl, rfl, rfl, rfl, rfl⟩

end Sys2Proof.Machine
end
section
/-! SUPPORT. The decoder on the words of the encoder (30_encoding.md R80). -/

namespace Sys2Proof

/-- R80's chain gives an operation that exists back from its number and its operand. -/
theorem specDecode_of_wellFormed {hasTick : Bool} {i : Instr} (hw : i.wellFormed hasTick = true) :
    specDecode hasTick i.opNumber i.argNumber = some i := by
  have countdown (hc : i.ofCountdown = true) : hasTick = true := by
    simpa [Instr.wellFormed, hc] using hw
  cases i with
  | rxi b => simp [specDecode, Instr.opNumber, Instr.argNumber, Nat.div_eq_of_lt b.isLt, Nat.mod_eq_of_lt b.isLt]
  | send b => simp [specDecode, Instr.opNumber, Instr.argNumber, Nat.div_eq_of_lt b.isLt, Nat.mod_eq_of_lt b.isLt]
  | loadcd v => simp [specDecode, Instr.opNumber, Instr.argNumber, countdown rfl]
  | tick => simp [specDecode, Instr.opNumber, Instr.argNumber, countdown rfl]
  | elapsed => simp [specDecode, Instr.opNumber, Instr.argNumber, countdown rfl]
  | idle => rfl
  | take => rfl
  | txc => rfl

theorem Instr.argNumber_lt (i : Instr) : i.argNumber < 65536 := by
  cases i with
  | rxi b => exact Nat.lt_trans b.isLt (by decide)
  | send b => exact Nat.lt_trans b.isLt (by decide)
  | loadcd v => exact v.isLt
  | _ => exact Nat.zero_lt_succ _

theorem decode_eq_ok_iff {hasTick : Bool} {w : EventWord} {i : Instr} :
    decode hasTick w = .ok i ↔ specDecode hasTick (w.toNat / 65536) (w.toNat % 65536) = some i := by
  rw [← decode_toOption]
  cases decode hasTick w <;> simp [Except.toOption]

/-- The word of an operation that exists decodes to it. -/
theorem decode_encode {hasTick : Bool} {i : Instr} (hw : i.wellFormed hasTick = true) :
    decode hasTick (encode i) = .ok i := by
  have harg := i.argNumber_lt
  have hop : (encode i).toNat / 65536 = i.opNumber := by rw [encode_toNat]; omega
  have hrest : (encode i).toNat % 65536 = i.argNumber := by rw [encode_toNat]; omega
  rw [decode_eq_ok_iff, hop, hrest, specDecode_of_wellFormed hw]

/-- The decoder gives only operations that exist. -/
theorem wellFormed_of_decode {hasTick : Bool} {w : EventWord} {i : Instr} (h : decode hasTick w = .ok i) :
    i.wellFormed hasTick = true :=
  (specDecode_eq_some (Nat.mod_lt _ (by decide)) (decode_eq_ok_iff.1 h)).2.2

end Sys2Proof
end

section
/-! The obligations of 30_encoding.md on decoding what is encoded. -/

namespace Sys2Proof

/-- Settles O1: an operation's word carries its number and operand, from which R80's chain gives it back. -/
theorem decodeAndEncodeAgree : Obligations.DecodeAndEncodeAgree :=
  ⟨fun _ _ => decode_encode, fun _ _ _ h => ⟨encode_of_decode h, wellFormed_of_decode h⟩⟩

/-- Settles O5. -/
theorem sampleWordsDecode : Obligations.SampleWordsDecode :=
  ⟨decode_encode (i := .idle) rfl, decode_encode (i := .rxi 0x78) rfl, decode_encode (i := .take) rfl,
    decode_encode (i := .send 0x41) rfl, decode_encode (i := .txc) rfl, decode_encode (i := .tick) rfl,
    decode_encode (i := .elapsed) rfl, decode_encode (i := .loadcd 1000) rfl⟩

end Sys2Proof
end
section
/-! SUPPORT. What each layer of the machine can do between two states, from a micro-step up to a step, and the one
induction over it: what operations, micro-steps and `RESET` keep, every step keeps. -/

namespace Sys2Proof.Machine

/-- Everything one more of the micro-steps that end an operation can do. -/
theorem finish_succ_next {k : Nat} {s t : State} (h : finish (k + 1) s = .next t) :
    (s.midOperation = true ∧ ∃ u, microOf s = .next u ∧ finish k u = .next t) ∨ (s.midOperation = false ∧ t = s) := by
  unfold finish at h
  split at h
  · split at h
    · exact .inl ⟨‹_›, _, ‹_›, h⟩
    · cases h
    · cases h
  · cases h
    exact .inr ⟨Bool.eq_false_iff.2 ‹_›, rfl⟩

/-- Everything a whole operation can do. -/
theorem execWhole_next {i : Instr} {s t : State} (h : execWhole i s = .next t) :
    (s.midOperation = true ∧ exec i s = .next t) ∨
    (s.midOperation = false ∧ ∃ u, exec i s = .next u ∧ finish 2 u = .next t) := by
  unfold execWhole at h
  split at h
  · split at h
    · cases h
      exact .inl ⟨‹_›, ‹_›⟩
    · exact .inr ⟨Bool.eq_false_iff.2 ‹_›, _, ‹_›, h⟩
  · cases h
  · cases h

/-- A step's first event, and then the others. -/
theorem runInStep_cons_next {i : Instr} {is : List Instr} {os : List Output} {s t : State}
    (h : runInStep (i :: is) os s = .next t) :
    ∃ u, execWhole i s = .next u ∧ runInStep is (os ++ u.outs) u = .next t := by
  unfold runInStep at h
  split at h
  · exact ⟨_, ‹_›, h⟩
  · cases h
  · cases h

/-- Everything a step of the port view can do. -/
theorem portStep_next {p : PortIn} {s t : State} (h : portStep p s = .next t) :
    (p.rst = true ∧ execReset s = .next t) ∨
    (p.rst = false ∧ runInStep (p.events s.cfg.hasTick) [] s = .next t) := by
  unfold portStep at h
  split at h
  · exact .inl ⟨‹_›, h⟩
  · exact .inr ⟨Bool.eq_false_iff.2 ‹_›, h⟩

/-- Everything the schedule's `micro` can do. -/
theorem execMicro_next {s t : State} (h : execMicro s = .next t) :
    (s.midOperation = true ∧ ∃ u, microOf s = .next u ∧ t = u.hostHears) ∨
    (s.midOperation = false ∧ exec .idle s = .next t) := by
  unfold execMicro at h
  split at h
  · split at h
    · cases h
      exact .inl ⟨‹_›, _, ‹_›, rfl⟩
    · cases h
    · cases h
  · exact .inr ⟨Bool.eq_false_iff.2 ‹_›, h⟩

/-- Everything the reference host can do. -/
theorem execHost_next {s t : State} (h : execHost s = .next t) :
    (s.midOperation = true ∧ execMicro s = .next t) ∨
    (s.midOperation = false ∧ ∃ u, exec (s.host.pos.event s.cfg) s = .next u ∧ t = u.hostIssues.hostHears) := by
  unfold execHost at h
  split at h
  · exact .inl ⟨‹_›, h⟩
  · split at h
    · cases h
      exact .inr ⟨Bool.eq_false_iff.2 ‹_›, _, ‹_›, rfl⟩
    · cases h
    · cases h

/-- An event word that is performed decodes. -/
theorem perform_word_next {w : EventWord} {s t : State} (h : perform (.word w) s = .next t) :
    ∃ i, decode s.cfg.hasTick w = .ok i ∧ exec i s = .next t := by
  unfold perform at h
  dsimp only at h
  split at h
  · exact ⟨_, ‹_›, h⟩
  · cases h

/-- Everything a step can do. -/
theorem step_next {s t : State} (h : step s = .next t) :
    (s.inputs = [] ∧ execMicro s = .next t) ∨
    ∃ x rest, s.inputs = x :: rest ∧ perform x { s with inputs := rest } = .next t := by
  unfold step nextStep at h
  split at h
  · exact .inl ⟨‹_›, h⟩
  · exact .inr ⟨_, _, ‹_›, h⟩

/-- Operations, micro-steps and `RESET` keep the property, and it says nothing of the host, the outputs and the
schedule. -/
structure KeptByBlock (P : State → Prop) : Prop where
  exec : ∀ {i : Instr} {s t : State}, P s → exec i s = .next t → P t
  micro : ∀ {s t : State}, P s → microOf s = .next t → P t
  reset : ∀ {s t : State}, P s → execReset s = .next t → P t
  outside : ∀ {s : State} (h : HostLoop) (os : List Output) (is : List Input), P s →
    P { s with host := h, outs := os, inputs := is }

namespace KeptByBlock

variable {P : State → Prop} {s t : State}

theorem hostHears (hP : KeptByBlock P) (h : P s) : P s.hostHears :=
  s.hostHears_eq ▸ hP.outside _ s.outs s.inputs h

theorem finish (hP : KeptByBlock P) {k : Nat} (h : P s) (ht : finish k s = .next t) : P t := by
  induction k generalizing s with
  | zero => cases ht; exact h
  | succ k ih =>
    rcases finish_succ_next ht with ⟨_, u, hu, ht⟩ | ⟨_, rfl⟩
    · exact ih (hP.micro h hu) ht
    · exact h

theorem execWhole (hP : KeptByBlock P) {i : Instr} (h : P s) (ht : execWhole i s = .next t) : P t := by
  rcases execWhole_next ht with ⟨_, ht⟩ | ⟨_, u, hu, ht⟩
  · exact hP.exec h ht
  · exact hP.finish (hP.exec h hu) ht

theorem runInStep (hP : KeptByBlock P) {is : List Instr} {os : List Output} (h : P s)
    (ht : runInStep is os s = .next t) : P t := by
  induction is generalizing s os with
  | nil => cases ht; exact hP.outside s.host os s.inputs h
  | cons i is ih =>
    obtain ⟨u, hu, ht⟩ := runInStep_cons_next ht
    exact ih (hP.execWhole h hu) ht

theorem execMicro (hP : KeptByBlock P) (h : P s) (ht : execMicro s = .next t) : P t := by
  rcases execMicro_next ht with ⟨_, u, hu, rfl⟩ | ⟨_, ht⟩
  · exact hP.hostHears (hP.micro h hu)
  · exact hP.exec h ht

theorem execHost (hP : KeptByBlock P) (h : P s) (ht : execHost s = .next t) : P t := by
  rcases execHost_next ht with ⟨_, ht⟩ | ⟨_, u, hu, rfl⟩
  · exact hP.execMicro h ht
  · exact hP.hostHears (hP.outside _ u.outs u.inputs (hP.exec h hu))

theorem perform (hP : KeptByBlock P) {x : Input} (h : P s) (ht : perform x s = .next t) : P t := by
  cases x with
  | word w =>
    obtain ⟨i, _, ht⟩ := perform_word_next ht
    exact hP.exec h ht
  | rst => exact hP.reset h ht
  | ports p =>
    rcases portStep_next ht with ⟨_, ht⟩ | ⟨_, ht⟩
    · exact hP.reset h ht
    · exact hP.runInStep h ht
  | micro => exact hP.execMicro h ht
  | hostLoop => exact hP.execHost h ht

theorem step (hP : KeptByBlock P) (h : P s) (ht : step s = .next t) : P t := by
  rcases step_next ht with ⟨_, ht⟩ | ⟨x, rest, _, ht⟩
  · exact hP.execMicro h ht
  · exact hP.perform (hP.outside s.host s.outs rest h) ht

theorem execEvent (hP : KeptByBlock P) {e : Event} (h : P s) (ht : execEvent e s = .next t) : P t := by
  cases e with
  | op i => exact hP.exec h ht
  | reset => exact hP.reset h ht

theorem runEvents (hP : KeptByBlock P) {es : List Event} {os : List Output} (h : P s)
    (ht : runEvents es s = some (t, os)) : P t := by
  induction es generalizing s os with
  | nil => cases ht; exact h
  | cons e es ih =>
    obtain ⟨u, os', hu, ht, _⟩ := runEvents_cons ht
    exact ih (hP.execEvent h hu) ht

end KeptByBlock

end Sys2Proof.Machine
end

section
/-! SUPPORT. The parameters, which no operation and no micro-step writes (10_state.md R40). -/

namespace Sys2Proof.Machine

/-- The parameters have the given values. -/
def State.HasParameters (c : Config) (nRx nTx : Nat) (s : State) : Prop :=
  s.cfg = c ∧ s.rx.cap = nRx ∧ s.tx.cap = nTx

/-- No operation changes a slot count. -/
theorem exec_keeps_caps {i : Instr} {s t : State} (h : exec i s = .next t) :
    t.rx.cap = s.rx.cap ∧ t.tx.cap = s.tx.cap := by
  cases i with
  | idle => cases h; exact ⟨rfl, rfl⟩
  | rxi b => rcases execRxi_next h with ⟨_, rfl⟩ | ⟨_, rfl⟩ <;> exact ⟨rfl, rfl⟩
  | take =>
    rcases execTake_next h with ⟨_, h⟩ | ⟨_, _, h⟩
    · rcases takeAtomic_next h with ⟨_, rfl⟩ | ⟨_, rfl⟩ <;> exact ⟨rfl, rfl⟩
    · rcases takeA_next h with ⟨_, rfl⟩ | ⟨_, rfl⟩ <;> exact ⟨rfl, rfl⟩
  | send b =>
    rcases execSend_next h with ⟨_, h⟩ | ⟨_, _, h⟩
    · rcases sendAtomic_next h with ⟨_, rfl⟩ | ⟨_, rfl⟩ | ⟨_, rfl⟩ <;> exact ⟨rfl, rfl⟩
    · cases h; exact ⟨rfl, rfl⟩
  | txc => rcases execTxc_next h with ⟨_, rfl⟩ | ⟨_, rfl⟩ <;> exact ⟨rfl, rfl⟩
  | tick => obtain ⟨_, rfl⟩ := execTick_next h; exact ⟨rfl, rfl⟩
  | elapsed => obtain ⟨_, rfl⟩ := execElapsed_next h; exact ⟨rfl, rfl⟩
  | loadcd v => obtain ⟨_, rfl⟩ := execLoadcd_next h; exact ⟨rfl, rfl⟩

/-- No micro-step touches a parameter, the host or the schedule. -/
theorem microOf_keeps_outside {s t : State} (h : microOf s = .next t) :
    t.cfg = s.cfg ∧ t.rx.cap = s.rx.cap ∧ t.tx.cap = s.tx.cap ∧ t.host = s.host ∧ t.inputs = s.inputs := by
  rcases microOf_next h with ⟨_, rfl⟩ | ⟨_, _, _, _, rfl⟩ | ⟨_, _, _, r, _, hr, rfl⟩ | ⟨_, _, _, _, _, rfl⟩ |
    ⟨_, _, _, _, _, rfl⟩ | ⟨_, _, _, _, r, _, hr, rfl⟩ | ⟨_, _, _, _, r, _, hr, rfl⟩
  · exact ⟨rfl, rfl, rfl, rfl, rfl⟩
  · exact ⟨rfl, rfl, rfl, rfl, rfl⟩
  · exact ⟨rfl, (RingBuf.tailPast_eq hr).2.1, rfl, rfl, rfl⟩
  · exact ⟨rfl, rfl, rfl, rfl, rfl⟩
  · exact ⟨rfl, rfl, rfl, rfl, rfl⟩
  · exact ⟨rfl, rfl, (RingBuf.writeAt_eq hr).2.1, rfl, rfl⟩
  · exact ⟨rfl, rfl, (RingBuf.headPast_eq hr).2.1, rfl, rfl⟩

theorem State.hasParameters_kept (c : Config) (nRx nTx : Nat) : KeptByBlock (State.HasParameters c nRx nTx) where
  exec := fun ⟨hc, hr, ht⟩ h =>
    ⟨(exec_keeps_outside h).1.trans hc, (exec_keeps_caps h).1.trans hr, (exec_keeps_caps h).2.trans ht⟩
  micro := fun ⟨hc, hr, ht⟩ h =>
    have ⟨hc', hr', ht', _⟩ := microOf_keeps_outside h
    ⟨hc'.trans hc, hr'.trans hr, ht'.trans ht⟩
  reset := fun hp h => by cases h; exact hp
  outside := fun _ _ _ hp => hp

end Sys2Proof.Machine
end
section
/-! SUPPORT. The invariant of Safety.lean in two halves: what it says of the block, which operations, micro-steps and
`RESET` keep, and what it says of the reference host's issued event. -/

namespace Sys2Proof.Machine

/-- What the invariant says of the block and of the foreground's temporaries. -/
structure State.BlockInv (s : State) : Prop where
  rxStore : Memory.wf s.rx.cap s.rx.buf = true
  txStore : Memory.wf s.tx.cap s.tx.buf = true
  noCountdown : s.cfg.hasTick = false → s.countdown = 0
  noRxDrops : s.cfg.ovfRx = .wrap → s.rxDropCnt = 0
  noTxDrops : s.cfg.ovfTx = .wrap → s.txDropCnt = 0
  atomicIdle : s.cfg.atomicFg = true → s.fg = .idle
  temporaries : s.temporariesOk = true
  idleEmpty : s.cfg.atomicFg = true → s.txBusy = false → s.tx.isEmpty = true

/-- What the invariant says of the reference host: an event it has issued is in progress. -/
def State.HostInv (s : State) : Prop := s.host.issued = true → s.midOperation = true

theorem State.inv_iff {s : State} : s.Inv ↔ s.BlockInv ∧ s.HostInv :=
  ⟨fun h => ⟨{ h with }, h.hostIssued⟩, fun ⟨h, hh⟩ => { h with hostIssued := hh }⟩

/-- The block after reset meets its half, with the host and the schedule whatever they are. -/
theorem State.blockInv_init (nRx nTx : Nat) (hRx : 2 ≤ nRx) (hTx : 2 ≤ nTx) (c : Config) :
    (State.init nRx nTx hRx hTx c).BlockInv where
  rxStore := rfl
  txStore := rfl
  noCountdown := fun _ => rfl
  noRxDrops := fun _ => rfl
  noTxDrops := fun _ => rfl
  atomicIdle := fun _ => rfl
  temporaries := rfl
  idleEmpty := fun _ _ => rfl

theorem State.inv_init (nRx nTx : Nat) (hRx : 2 ≤ nRx) (hTx : 2 ≤ nTx) (c : Config) :
    (State.init nRx nTx hRx hTx c).Inv :=
  State.inv_iff.2 ⟨State.blockInv_init nRx nTx hRx hTx c, fun h => by cases h⟩

/-- The path that `SEND.a` saves is the one its sample gives. -/
theorem State.temporariesOk_of_sendA (s : State) (b : Byte) (os : List Output) :
    State.temporariesOk { s with fg := .sendPath b s.tx.head s.tx.tail s.txBusy s.sendPath, outs := os } = true := by
  simp only [State.temporariesOk, s.tx.head_lt, s.tx.tail_lt, decide_true, Bool.true_and, beq_iff_eq]
  exact s.sendPath_eq

theorem exec_keeps_blockInv {i : Instr} {s t : State} (h : s.BlockInv) (ht : exec i s = .next t) : t.BlockInv := by
  cases i with
  | idle => cases ht; exact { h with }
  | rxi b =>
    rcases execRxi_next ht with ⟨⟨hdrop, _⟩, rfl⟩ | ⟨_, rfl⟩
    · exact { h with noRxDrops := fun hwrap => by cases hwrap.symm.trans hdrop }
    · exact { h with rxStore := RingBuf.store_wf h.rxStore b }
  | take =>
    rcases execTake_next ht with ⟨_, ht⟩ | ⟨hsplit, _, ht⟩
    · rcases takeAtomic_next ht with ⟨_, rfl⟩ | ⟨_, rfl⟩ <;> exact { h with }
    · rcases takeA_next ht with ⟨_, rfl⟩ | ⟨_, rfl⟩
      · exact { h with }
      · exact { h with
          atomicIdle := fun ha => by cases ha.symm.trans hsplit
          temporaries := by simp [State.temporariesOk, s.rx.head_lt, s.rx.tail_lt] }
  | send b =>
    rcases execSend_next ht with ⟨_, ht⟩ | ⟨hsplit, _, ht⟩
    · rcases sendAtomic_next ht with ⟨_, rfl⟩ | ⟨hdrop, rfl⟩ | ⟨hbuf, rfl⟩
      · exact { h with idleEmpty := fun _ hidle => by cases hidle }
      · exact { h with noTxDrops := fun hwrap => by cases hwrap.symm.trans (State.sendPath_drop.1 hdrop).1 }
      · refine { h with
          txStore := RingBuf.store_wf h.txStore b
          idleEmpty := fun ha hidle => ?_ }
        -- By the invariant an idle path takes the fast path, so a buffered byte finds `tx_busy = 1`.
        cases hbuf.symm.trans (State.sendPath_fast.2 ⟨h.idleEmpty ha hidle, hidle⟩)
    · cases ht
      exact { h with
        atomicIdle := fun ha => by cases ha.symm.trans hsplit
        temporaries := s.temporariesOk_of_sendA b _ }
  | txc =>
    rcases execTxc_next ht with ⟨hempty, rfl⟩ | ⟨_, rfl⟩
    · exact { h with idleEmpty := fun _ _ => hempty }
    · exact { h with idleEmpty := fun _ hidle => by cases hidle }
  | tick =>
    obtain ⟨hc, rfl⟩ := execTick_next ht
    exact { h with noCountdown := fun hno => by cases hno.symm.trans hc }
  | elapsed => obtain ⟨_, rfl⟩ := execElapsed_next ht; exact { h with }
  | loadcd v =>
    obtain ⟨hc, rfl⟩ := execLoadcd_next ht
    exact { h with noCountdown := fun hno => by cases hno.symm.trans hc }

/-- With `ATOMIC_FG = true` the foreground is never found in the middle of an operation. -/
theorem State.BlockInv.not_atomic {s : State} {f : Foreground} (h : s.BlockInv) (hfg : s.fg = f) (hne : f ≠ .idle) :
    ¬s.cfg.atomicFg = true :=
  fun ha => hne (hfg.symm.trans (h.atomicIdle ha))

/-- The saved path is `drop` only under `DROP_NEWEST`. -/
theorem State.dropNewest_of_saved_drop {s : State} {b : Byte} {h t : Nat} {q : Bool} (ht : s.temporariesOk = true)
    (hfg : s.fg = .sendPath b h t q .drop) : s.cfg.ovfTx = .dropNewest := by
  simp only [State.temporariesOk, hfg, Bool.and_eq_true, beq_iff_eq] at ht
  obtain ⟨_, hpath⟩ := ht
  split at hpath
  · cases hpath
  · split at hpath
    · next hdrop => exact hdrop.1
    · cases hpath

/-- A micro-step keeps the block's half; the cases are those of `microOf_next`: `IDLE`, `TAKE.b`, `TAKE.c`, `SEND.f`, `SEND.d`,
`SEND.b`, `SEND.c`. -/
theorem microOf_keeps_blockInv {s t : State} (h : s.BlockInv) (ht : microOf s = .next t) : t.BlockInv := by
  have htemp := h.temporaries
  rcases microOf_next ht with ⟨_, rfl⟩ | ⟨i, j, hfg, _, rfl⟩ | ⟨i, j, d, r, hfg, hr, rfl⟩ | ⟨b, i, j, q, hfg, rfl⟩ |
    ⟨b, i, j, q, hfg, rfl⟩ | ⟨b, i, j, q, r, hfg, hr, rfl⟩ | ⟨b, i, j, q, r, hfg, hr, rfl⟩
  · exact { h with }
  · have hsplit := h.not_atomic hfg (by simp)
    simp only [State.temporariesOk, hfg] at htemp
    exact { h with atomicIdle := fun ha => absurd ha hsplit, temporaries := htemp }
  · obtain ⟨_, hcap, hbuf, _⟩ := RingBuf.tailPast_eq hr
    exact { h with rxStore := by rw [hcap, hbuf]; exact h.rxStore, atomicIdle := fun _ => rfl, temporaries := rfl }
  · exact { h with atomicIdle := fun _ => rfl, temporaries := rfl, idleEmpty := fun _ hidle => by cases hidle }
  · have hdrop := State.dropNewest_of_saved_drop htemp hfg
    exact { h with
      noTxDrops := fun hwrap => by cases hwrap.symm.trans hdrop
      atomicIdle := fun _ => rfl, temporaries := rfl }
  · have hsplit := h.not_atomic hfg (by simp)
    obtain ⟨hi, hcap, hbuf, _⟩ := RingBuf.writeAt_eq hr
    simp only [State.temporariesOk, hfg, Bool.and_eq_true, and_assoc] at htemp
    exact { h with
      txStore := by rw [hcap, hbuf]; exact Memory.wf_write b hi h.txStore
      atomicIdle := fun ha => absurd ha hsplit
      temporaries := by simp [State.temporariesOk, hcap, htemp.1, htemp.2.1]
      idleEmpty := fun ha => absurd ha hsplit }
  · have hsplit := h.not_atomic hfg (by simp)
    obtain ⟨_, hcap, hbuf, _⟩ := RingBuf.headPast_eq hr
    exact { h with
      txStore := by rw [hcap, hbuf]; exact h.txStore
      atomicIdle := fun _ => rfl, temporaries := rfl
      idleEmpty := fun ha => absurd ha hsplit }

theorem State.blockInv_kept : KeptByBlock State.BlockInv where
  exec := exec_keeps_blockInv
  micro := microOf_keeps_blockInv
  reset := fun _ ht => by
    cases ht
    exact { State.blockInv_init _ _ _ _ _ with }
  outside := fun _ _ _ h => { h with }

end Sys2Proof.Machine
end
section
/-! SUPPORT. The reference host's half of the invariant (44_host_loop.md, 70_reset_and_hazards.md R232). -/

namespace Sys2Proof.Machine

/-- A host that hears the end of its event has none issued any more, whatever the state was. -/
theorem State.hostInv_hostHears (s : State) : s.hostHears.HostInv := by
  intro hissued
  rw [State.hostHears_midOperation]
  rw [State.hostHears_eq] at hissued
  split at hissued
  · cases hissued
  · next hbusy =>
    change s.host.issued = true at hissued
    simpa [hissued] using hbusy

theorem exec_keeps_hostInv {i : Instr} {s t : State} (h : s.HostInv) (ht : exec i s = .next t) : t.HostInv := by
  obtain ⟨hcfg, hhost, _⟩ := exec_keeps_outside ht
  intro hissued
  have hmid : s.midOperation = true := h (hhost ▸ hissued)
  rwa [State.midOperation, hcfg, exec_keeps_fg_of_midOperation hmid ht]

theorem finish_keeps_host {k : Nat} {s t : State} (ht : finish k s = .next t) : t.host = s.host := by
  induction k generalizing s with
  | zero => cases ht; rfl
  | succ k ih =>
    rcases finish_succ_next ht with ⟨_, u, hu, ht⟩ | ⟨_, rfl⟩
    · exact (ih ht).trans (microOf_keeps_outside hu).2.2.2.1
    · rfl

theorem execWhole_keeps_hostInv {i : Instr} {s t : State} (h : s.HostInv) (ht : execWhole i s = .next t) :
    t.HostInv := by
  rcases execWhole_next ht with ⟨_, ht⟩ | ⟨hmid, u, hu, ht⟩
  · exact exec_keeps_hostInv h ht
  · intro hissued
    rw [finish_keeps_host ht, (exec_keeps_outside hu).2.1] at hissued
    cases hmid.symm.trans (h hissued)

theorem runInStep_keeps_hostInv {is : List Instr} {os : List Output} {s t : State} (h : s.HostInv)
    (ht : runInStep is os s = .next t) : t.HostInv := by
  induction is generalizing s os with
  | nil => cases ht; exact h
  | cons i is ih =>
    obtain ⟨u, hu, ht⟩ := runInStep_cons_next ht
    exact ih (execWhole_keeps_hostInv h hu) ht

theorem execMicro_keeps_hostInv {s t : State} (h : s.HostInv) (ht : execMicro s = .next t) : t.HostInv := by
  rcases execMicro_next ht with ⟨_, u, _, rfl⟩ | ⟨_, ht⟩
  · exact u.hostInv_hostHears
  · exact exec_keeps_hostInv h ht

theorem perform_keeps_hostInv {x : Input} {s t : State} (h : s.HostInv) (ht : perform x s = .next t) : t.HostInv := by
  have reset {u : State} (hu : execReset s = .next u) : u.HostInv := by
    cases hu
    intro hissued
    cases hissued
  cases x with
  | word w =>
    obtain ⟨i, _, ht⟩ := perform_word_next ht
    exact exec_keeps_hostInv h ht
  | rst => exact reset ht
  | ports p =>
    rcases portStep_next ht with ⟨_, ht⟩ | ⟨_, ht⟩
    · exact reset ht
    · exact runInStep_keeps_hostInv h ht
  | micro => exact execMicro_keeps_hostInv h ht
  | hostLoop =>
    rcases execHost_next ht with ⟨_, ht⟩ | ⟨_, u, _, rfl⟩
    · exact execMicro_keeps_hostInv h ht
    · exact u.hostIssues.hostInv_hostHears

theorem step_keeps_hostInv {s t : State} (h : s.HostInv) (ht : step s = .next t) : t.HostInv := by
  rcases step_next ht with ⟨_, ht⟩ | ⟨x, rest, _, ht⟩
  · exact execMicro_keeps_hostInv h ht
  · exact perform_keeps_hostInv (s := { s with inputs := rest }) h ht

end Sys2Proof.Machine
end

section
/-! SUPPORT. A whole operation ends: two micro-steps after the first are enough (70_reset_and_hazards.md R233, R234). -/

namespace Sys2Proof.Machine

/-- How many micro-steps an operation in progress has left. -/
def Foreground.stepsLeft : Foreground → Nat
  | .idle => 0
  | .takeB _ _ => 2
  | .takeC _ _ _ => 1
  | .sendPath _ _ _ _ .fast => 1
  | .sendPath _ _ _ _ .drop => 1
  | .sendPath _ _ _ _ .buffered => 2
  | .sendC _ _ _ _ => 1

theorem Foreground.stepsLeft_le (f : Foreground) : f.stepsLeft ≤ 2 := by
  rcases f with _ | _ | _ | ⟨_, _, _, _, _ | _ | _⟩ | _ <;> simp [Foreground.stepsLeft]

theorem Foreground.eq_idle_of_stepsLeft {f : Foreground} (h : f.stepsLeft = 0) : f = .idle := by
  rcases f with _ | _ | _ | ⟨_, _, _, _, _ | _ | _⟩ | _
  · rfl
  all_goals cases h

/-- Each micro-step is one less to go. -/
theorem microOf_stepsLeft {s t : State} (hfg : s.fg ≠ .idle) (h : microOf s = .next t) :
    t.fg.stepsLeft + 1 = s.fg.stepsLeft := by
  rcases microOf_next h with ⟨hidle, _⟩ | ⟨_, _, hf, _, rfl⟩ | ⟨_, _, _, _, hf, _, rfl⟩ | ⟨_, _, _, _, hf, rfl⟩ |
    ⟨_, _, _, _, hf, rfl⟩ | ⟨_, _, _, _, _, hf, _, rfl⟩ | ⟨_, _, _, _, _, hf, _, rfl⟩
  · exact absurd hidle hfg
  all_goals rw [hf]; rfl

theorem finish_ends {k : Nat} {s t : State} (hk : s.fg.stepsLeft ≤ k) (h : finish k s = .next t) :
    t.midOperation = false := by
  induction k generalizing s with
  | zero =>
    cases h
    exact State.not_midOperation_of_idle (Foreground.eq_idle_of_stepsLeft (Nat.le_zero.1 hk))
  | succ k ih =>
    rcases finish_succ_next h with ⟨hmid, u, hu, h⟩ | ⟨hmid, rfl⟩
    · have hfg : s.fg ≠ .idle := fun hi => by cases hmid.symm.trans (State.not_midOperation_of_idle hi)
      have := microOf_stepsLeft hfg hu
      exact ih (by omega) h
    · exact hmid

/-- A whole operation that starts between operations ends between operations. -/
theorem execWhole_ends {i : Instr} {s t : State} (hmid : s.midOperation = false) (h : execWhole i s = .next t) :
    t.midOperation = false := by
  rcases execWhole_next h with ⟨hm, _⟩ | ⟨_, u, _, h⟩
  · cases hmid.symm.trans hm
  · exact finish_ends u.fg.stepsLeft_le h

/-- Between operations the foreground holds no temporaries. -/
theorem State.BlockInv.fg_idle {s : State} (h : s.BlockInv) (hmid : s.midOperation = false) : s.fg = .idle := by
  cases ha : s.cfg.atomicFg with
  | true => exact h.atomicIdle ha
  | false => simpa [State.midOperation, ha] using hmid

end Sys2Proof.Machine
end

section
/-! SUPPORT. The single-writer property: the sampled own index never goes stale under the context discipline
(70_reset_and_hazards.md R236 (d)). -/

namespace Sys2Proof.Machine

theorem State.ownIndexFresh_of_idle {s : State} (h : s.fg = .idle) : s.ownIndexFresh = true := by
  simp [State.ownIndexFresh, h]

/-- The property reads nothing but the temporaries, `rx_tail` and `tx_head`. -/
theorem State.ownIndexFresh_congr {s t : State} (hfg : t.fg = s.fg) (htail : t.rx.tail = s.rx.tail)
    (hhead : t.tx.head = s.tx.head) : t.ownIndexFresh = s.ownIndexFresh := by
  rw [State.ownIndexFresh, State.ownIndexFresh, hfg, htail, hhead]

/-- Everything an operation can do to the foreground: leave it, or start a split `TAKE` or `SEND` and leave the rings. -/
theorem exec_fg_cases {i : Instr} {s t : State} (h : exec i s = .next t) :
    t.fg = s.fg ∨ (s.cfg.atomicFg = false ∧ s.fg = .idle ∧ t.rx = s.rx ∧ t.tx = s.tx ∧
      (t.fg = .takeB s.rx.head s.rx.tail ∨ ∃ b, t.fg = .sendPath b s.tx.head s.tx.tail s.txBusy s.sendPath)) := by
  cases i with
  | idle => cases h; exact .inl rfl
  | rxi b => rcases execRxi_next h with ⟨_, rfl⟩ | ⟨_, rfl⟩ <;> exact .inl rfl
  | take =>
    rcases execTake_next h with ⟨_, h⟩ | ⟨ha, hi, h⟩
    · rcases takeAtomic_next h with ⟨_, rfl⟩ | ⟨_, rfl⟩ <;> exact .inl rfl
    · rcases takeA_next h with ⟨_, rfl⟩ | ⟨_, rfl⟩
      · exact .inl rfl
      · exact .inr ⟨ha, hi, rfl, rfl, .inl rfl⟩
  | send b =>
    rcases execSend_next h with ⟨_, h⟩ | ⟨ha, hi, h⟩
    · rcases sendAtomic_next h with ⟨_, rfl⟩ | ⟨_, rfl⟩ | ⟨_, rfl⟩ <;> exact .inl rfl
    · cases h; exact .inr ⟨ha, hi, rfl, rfl, .inr ⟨b, rfl⟩⟩
  | txc => rcases execTxc_next h with ⟨_, rfl⟩ | ⟨_, rfl⟩ <;> exact .inl rfl
  | tick => obtain ⟨_, rfl⟩ := execTick_next h; exact .inl rfl
  | elapsed => obtain ⟨_, rfl⟩ := execElapsed_next h; exact .inl rfl
  | loadcd v => obtain ⟨_, rfl⟩ := execLoadcd_next h; exact .inl rfl

/-- What an operation started between operations samples is fresh. -/
theorem exec_fresh_of_idle {i : Instr} {s t : State} (hi : s.fg = .idle) (h : exec i s = .next t) :
    t.ownIndexFresh = true := by
  rcases exec_fg_cases h with hfg | ⟨_, _, hrx, htx, hfg | ⟨b, hfg⟩⟩
  · exact State.ownIndexFresh_of_idle (hfg.trans hi)
  · simp [State.ownIndexFresh, hfg, hrx]
  · simp [State.ownIndexFresh, hfg, htx]

/-- `TXC` is the only operation of the interrupt context on the TX ring, and it leaves `tx_head`. -/
theorem exec_irq_keeps_tx_head {i : Instr} {s t : State} (hi : i.context ≠ .fg) (h : exec i s = .next t) :
    t.tx.head = s.tx.head := by
  by_cases hp : partOf i = .tx
  · cases i with
    | txc => rcases execTxc_next h with ⟨_, rfl⟩ | ⟨_, rfl⟩ <;> rfl
    | send b => exact absurd rfl hi
    | _ => cases hp
  · rw [(exec_keeps_tx hp h).1]

theorem exec_irq_keeps_fresh {i : Instr} {s t : State} (hi : i.context ≠ .fg) (h : exec i s = .next t) :
    t.ownIndexFresh = s.ownIndexFresh :=
  have ⟨hfg, htail, _⟩ := exec_irq_keeps hi h
  State.ownIndexFresh_congr hfg htail (exec_irq_keeps_tx_head hi h)

/-- A micro-step keeps the sampled own index, and the last one gives it up. -/
theorem microOf_keeps_fresh {s t : State} (hs : s.ownIndexFresh = true) (h : microOf s = .next t) :
    t.ownIndexFresh = true := by
  rcases microOf_next h with ⟨hf, rfl⟩ | ⟨i, j, hf, _, rfl⟩ | ⟨_, _, _, _, _, _, rfl⟩ | ⟨_, _, _, _, _, rfl⟩ |
    ⟨_, _, _, _, _, rfl⟩ | ⟨b, i, j, q, r, hf, hr, rfl⟩ | ⟨_, _, _, _, _, _, _, rfl⟩
  · exact State.ownIndexFresh_of_idle hf
  · simpa [State.ownIndexFresh, hf] using hs
  · rfl
  · rfl
  · rfl
  · obtain ⟨_, _, _, hhead, _⟩ := RingBuf.writeAt_eq hr
    simpa [State.ownIndexFresh, hf, hhead] using hs
  · rfl

theorem State.hostHears_ownIndexFresh (s : State) : s.hostHears.ownIndexFresh = s.ownIndexFresh :=
  State.ownIndexFresh_congr s.hostHears_fg (by rw [s.hostHears_rx]) (by rw [s.hostHears_tx])

/-- The events of a port step between operations: each ends whole, so nothing is sampled at the end. -/
theorem runInStep_fresh_of_idle {is : List Instr} {os : List Output} {s t : State} (hinv : s.BlockInv)
    (hmid : s.midOperation = false) (h : runInStep is os s = .next t) : t.ownIndexFresh = true := by
  induction is generalizing s os with
  | nil => cases h; exact State.ownIndexFresh_of_idle (hinv.fg_idle hmid)
  | cons i is ih =>
    obtain ⟨u, hu, h⟩ := runInStep_cons_next h
    exact ih (State.blockInv_kept.execWhole hinv hu) (execWhole_ends hmid hu) h

/-- The events of a port step in the middle of a split operation, none of them the foreground's. -/
theorem runInStep_irq_keeps_fresh {is : List Instr} {os : List Output} {s t : State} (hmid : s.midOperation = true)
    (hirq : ∀ i ∈ is, i.context ≠ .fg) (h : runInStep is os s = .next t) : t.ownIndexFresh = s.ownIndexFresh := by
  induction is generalizing s os with
  | nil => cases h; rfl
  | cons i is ih =>
    obtain ⟨hi, his⟩ := List.forall_mem_cons.1 hirq
    obtain ⟨u, hu, h⟩ := runInStep_cons_next h
    rcases execWhole_next hu with ⟨_, hu⟩ | ⟨hno, _⟩
    · have hmid' : u.midOperation = true := by
        rwa [State.midOperation, (exec_keeps_outside hu).1, exec_keeps_fg_of_midOperation hmid hu]
      exact (ih hmid' his h).trans (exec_irq_keeps_fresh hi hu)
    · cases hno.symm.trans hmid

theorem execMicro_keeps_fresh {s t : State} (hs : s.ownIndexFresh = true) (h : execMicro s = .next t) :
    t.ownIndexFresh = true := by
  rcases execMicro_next h with ⟨_, u, hu, rfl⟩ | ⟨_, h⟩
  · rw [State.hostHears_ownIndexFresh]
    exact microOf_keeps_fresh hs hu
  · exact (exec_irq_keeps_fresh (by decide) h).trans hs

/-- A port step that raises none of the foreground's operations has no event of the foreground's context. -/
theorem PortIn.events_not_fg {hasTick : Bool} {p : PortIn} (hrst : p.rst = false)
    (h : (Input.ports p).raisesForeground hasTick = false) : ∀ i ∈ p.events hasTick, i.context ≠ .fg := by
  unfold PortIn.events
  split
  · simp [Instr.context]
  · simpa [Input.raisesForeground, hrst] using h

/-- An entry of the schedule that keeps the context discipline. -/
theorem perform_keeps_fresh {x : Input} {s t : State} (hinv : s.BlockInv) (hs : s.ownIndexFresh = true)
    (hx : s.midOperation = true → x.raisesForeground s.cfg.hasTick = false) (h : perform x s = .next t) :
    t.ownIndexFresh = true := by
  cases hmid : s.midOperation with
  | false =>
    cases x with
    | word w =>
      obtain ⟨i, _, h⟩ := perform_word_next h
      exact exec_fresh_of_idle (hinv.fg_idle hmid) h
    | rst => cases h; rfl
    | ports p =>
      rcases portStep_next h with ⟨_, h⟩ | ⟨_, h⟩
      · cases h; rfl
      · exact runInStep_fresh_of_idle hinv hmid h
    | micro => exact execMicro_keeps_fresh hs h
    | hostLoop =>
      rcases execHost_next h with ⟨hm, _⟩ | ⟨_, u, hu, rfl⟩
      · cases hmid.symm.trans hm
      · rw [State.hostHears_ownIndexFresh]
        exact exec_fresh_of_idle (t := u) (hinv.fg_idle hmid) hu
  | true =>
    have hx := hx hmid
    cases x with
    | word w =>
      obtain ⟨i, hi, h⟩ := perform_word_next h
      exact (exec_irq_keeps_fresh (by simpa [Input.raisesForeground, hi] using hx) h).trans hs
    | rst => cases h; rfl
    | ports p =>
      rcases portStep_next h with ⟨_, h⟩ | ⟨hrst, h⟩
      · cases h; rfl
      · exact (runInStep_irq_keeps_fresh hmid (PortIn.events_not_fg hrst hx) h).trans hs
    | micro => exact execMicro_keeps_fresh hs h
    | hostLoop =>
      rcases execHost_next h with ⟨_, h⟩ | ⟨hno, _⟩
      · exact execMicro_keeps_fresh hs h
      · cases hno.symm.trans hmid

theorem step_keeps_fresh {s t : State} (hinv : s.BlockInv) (hs : s.ownIndexFresh = true)
    (hdisc : s.keepsDiscipline = true) (h : step s = .next t) : t.ownIndexFresh = true := by
  rcases step_next h with ⟨_, h⟩ | ⟨x, rest, hin, h⟩
  · exact execMicro_keeps_fresh hs h
  · have hx : s.midOperation = true → x.raisesForeground s.cfg.hasTick = false :=
      fun hm => by simpa [State.keepsDiscipline, hin, hm] using hdisc
    exact perform_keeps_fresh (s := { s with inputs := rest }) (State.blockInv_kept.outside s.host s.outs rest hinv) hs hx h

end Sys2Proof.Machine
end

section
/-! The obligations on the invariant and on the parameters (10_state.md section 8, R40). -/

namespace Sys2Proof.Machine

/-- Settles O16: the block's half of the invariant by `KeptByBlock`, the host's half and the sampled own index by the kinds
of step. -/
theorem stepKeepsTheInvariant : Obligations.StepKeepsTheInvariant := by
  refine ⟨fun s t hinv h => ?_, fun s t hinv hs hdisc h => ?_⟩
  · obtain ⟨hblock, hhost⟩ := State.inv_iff.1 hinv
    exact State.inv_iff.2 ⟨State.blockInv_kept.step hblock h, step_keeps_hostInv hhost h⟩
  · exact step_keeps_fresh (State.inv_iff.1 hinv).1 hs hdisc h

/-- Settles O15. -/
theorem invariantHoldsAtReset : Obligations.InvariantHoldsAtReset :=
  ⟨State.inv_init _ _ _ _ _, fun nRx nTx hRx hTx c => ⟨State.inv_init nRx nTx hRx hTx c, State.ownIndexFresh_of_idle rfl⟩⟩

/-- Settles O17: the reset state meets the invariant, whose last clause speaks of the end of the run. -/
theorem idleImpliesEmptyOnEveryRun : Obligations.IdleImpliesEmptyOnEveryRun := by
  intro nRx nTx hRx hTx c es s os ha hrun hidle
  have hinv := State.blockInv_kept.runEvents (State.blockInv_init nRx nTx hRx hTx c) hrun
  have hs : s.cfg.atomicFg = true := by rw [runEvents_keeps_cfg hrun]; exact ha
  exact (RingBuf.isEmpty_iff _).1 (hinv.idleEmpty hs hidle)

/-- Settles O18. -/
theorem parametersAreFixed : Obligations.ParametersAreFixed :=
  ⟨fun s _ h => (State.hasParameters_kept s.cfg s.rx.cap s.tx.cap).step ⟨rfl, rfl, rfl⟩ h, fun _ => rfl⟩

end Sys2Proof.Machine
end
section
/-! SUPPORT. Reading back what Written.lean writes (30_encoding.md R82): the hexadecimal digits, and the pieces of a line
whose characters are plain. -/

namespace Sys2Proof.Machine

/-- A character that no rule of `tokens` treats apart. -/
def isPlain (c : Char) : Bool := c != '\'' && c != '-' && c != '#' && c != ' '

theorem hexValue_hexChar (d : BitVec 4) : hexValue (hexChar d) = some d.toNat := by
  revert d; decide

theorem isPlain_hexChar (d : BitVec 4) : isPlain (hexChar d) = true := by
  revert d; decide

/-- The number of a row of hexadecimal digits, digit by digit. -/
theorem digits_hexChar (acc : Nat) (d : BitVec 4) (cs : List Char) :
    digits 16 acc (hexChar d :: cs) = digits 16 (acc * 16 + d.toNat) cs := by
  rw [digits, hexValue_hexChar]
  exact if_pos d.isLt

@[simp] theorem digits_nil (base acc : Nat) : digits base acc [] = some acc := rfl

/-- A plain character goes to the piece that is being read. -/
theorem tokens_plain {c : Char} (h : isPlain c = true) (acc cs : List Char) :
    tokens acc (c :: cs) = tokens (c :: acc) cs := by
  simp only [isPlain, Bool.and_eq_true, bne_iff_ne] at h
  obtain ⟨⟨⟨hquote, hdash⟩, hhash⟩, hspace⟩ := h
  rw [tokens.eq_def]
  split <;> simp_all

theorem tokens_plains {cs : List Char} (h : ∀ c ∈ cs, isPlain c = true) (acc rest : List Char) :
    tokens acc (cs ++ rest) = tokens (cs.reverse ++ acc) rest := by
  induction cs generalizing acc with
  | nil => rfl
  | cons c cs ih =>
    obtain ⟨hc, hcs⟩ := List.forall_mem_cons.1 h
    rw [List.cons_append, tokens_plain hc, ih hcs, List.reverse_cons, List.append_assoc]
    rfl

/-- A line of one piece. -/
theorem tokens_one {cs : List Char} (hne : cs ≠ []) (h : ∀ c ∈ cs, isPlain c = true) :
    tokens [] cs = [.text cs] := by
  have := tokens_plains h [] []
  simpa [tokens, endToken, hne] using this

/-- A line of two pieces with a space between them. -/
theorem tokens_two {cs ds : List Char} (hcs : cs ≠ []) (hds : ds ≠ []) (hc : ∀ c ∈ cs, isPlain c = true)
    (hd : ∀ d ∈ ds, isPlain d = true) : tokens [] (cs ++ ' ' :: ds) = [.text cs, .text ds] := by
  rw [tokens_plains hc, tokens.eq_def]
  simp [endToken, hcs, tokens_one hds hd]

/-- A line with a mnemonic and an operand, and no arrow. -/
theorem readLine_operand {m operand : List Char} (hm : m ≠ []) (hop : operand ≠ []) (hmp : ∀ c ∈ m, isPlain c = true)
    (hopp : ∀ c ∈ operand, isPlain c = true) :
    readLine (m ++ ' ' :: operand) = (readEvent [.text m, .text operand]).map fun e => .event e none := by
  rw [readLine, tokens_two hm hop hmp hopp]
  rfl

theorem readByte_writeByte (b : Byte) : readByte (.text (writeByte b)) = some b := by
  have hsum : b.toNat / 16 % 16 * 16 + b.toNat % 16 = b.toNat := by have := b.isLt; omega
  simp [writeByte, readByte, digits_hexChar, Nat.shiftRight_eq_div_pow, hsum]

theorem readHalf_writeHalf (v : Half) : readHalf (.text (writeHalf v)) = some v := by
  have hsum : ((v.toNat / 4096 % 16 * 16 + v.toNat / 256 % 16) * 16 + v.toNat / 16 % 16) * 16 + v.toNat % 16 = v.toNat := by
    have := v.isLt; omega
  simp [writeHalf, readHalf, digits_hexChar, Nat.shiftRight_eq_div_pow, hsum, asHalf, v.isLt]

theorem isPlain_writeByte (b : Byte) : ∀ c ∈ writeByte b, isPlain c = true := by
  simp [writeByte, isPlain_hexChar, show isPlain '0' = true from rfl, show isPlain 'x' = true from rfl]

theorem isPlain_writeHalf (v : Half) : ∀ c ∈ writeHalf v, isPlain c = true := by
  simp [writeHalf, isPlain_hexChar, show isPlain '0' = true from rfl, show isPlain 'x' = true from rfl]

end Sys2Proof.Machine
end

section
/-! The obligation on the written form of events. -/

namespace Sys2Proof.Machine

/-- Settles O7: a line without operand is a fixed text; one with an operand is cut at its space, and the digits read back. -/
theorem writtenEventsReadBack : Obligations.WrittenEventsReadBack := by
  intro e
  cases e with
  | reset => decide
  | op i =>
    cases i with
    | idle => decide
    | take => decide
    | txc => decide
    | tick => decide
    | elapsed => decide
    | rxi b =>
      refine (readLine_operand (m := "RXI".toList) (by decide) (by simp [writeByte]) (List.all_eq_true.1 rfl)
        (isPlain_writeByte b)).trans ?_
      simp [readEvent, readByte_writeByte]
    | send b =>
      refine (readLine_operand (m := "SEND".toList) (by decide) (by simp [writeByte]) (List.all_eq_true.1 rfl)
        (isPlain_writeByte b)).trans ?_
      simp [readEvent, readByte_writeByte]
    | loadcd v =>
      refine (readLine_operand (m := "LOADCD".toList) (by decide) (by simp [writeHalf]) (List.all_eq_true.1 rfl)
        (isPlain_writeHalf v)).trans ?_
      simp [readEvent, readHalf_writeHalf]

end Sys2Proof.Machine
end
section
/-! SUPPORT. An operation performed whole, and a port step made of such ones: with `ATOMIC_FG = true`, or in the middle of
a split operation (log entries 9, 14). -/

namespace Sys2Proof.Machine

/-- An operation performed whole leaves the foreground's temporaries. -/
theorem exec_keeps_fg {i : Instr} {s t : State} (hw : s.runsWhole = true) (h : exec i s = .next t) : t.fg = s.fg := by
  rcases exec_fg_cases h with hfg | ⟨hsplit, hidle, _⟩
  · exact hfg
  · exact absurd hw (State.not_runsWhole_of_split hsplit hidle)

theorem exec_keeps_runsWhole {i : Instr} {s t : State} (hw : s.runsWhole = true) (h : exec i s = .next t) :
    t.runsWhole = true := by
  rwa [State.runsWhole, State.midOperation, exec_keeps_fg hw h, (exec_keeps_outside h).1]

theorem execWhole_of_runsWhole {i : Instr} {s t : State} (hw : s.runsWhole = true) (h : exec i s = .next t) :
    execWhole i s = .next t := by
  cases hmid : s.midOperation with
  | true => simp [execWhole, h, hmid]
  | false => exact execWhole_of_atomic (by simpa [State.runsWhole, hmid] using hw) h

/-- The events of a step are a run, and the step's outputs are the run's after those already `done`. -/
theorem runInStep_of_runsWhole {is : List Instr} {s : State} (hw : s.runsWhole = true)
    (hwf : ∀ i ∈ is, i.wellFormed s.cfg.hasTick = true) :
    ∃ t os, runEvents (is.map .op) s = some (t, os) ∧ t.fg = s.fg ∧
      ∀ done, runInStep is done s = .next { t with outs := done ++ os } := by
  induction is generalizing s with
  | nil => exact ⟨s, [], rfl, rfl, fun done => by simp [runInStep]⟩
  | cons i is ih =>
    obtain ⟨hi, his⟩ := List.forall_mem_cons.1 hwf
    obtain ⟨u, hu⟩ := exec_completes hi
    obtain ⟨t, os, hrun, hfg, hstep⟩ := ih (exec_keeps_runsWhole hw hu) (by rwa [(exec_keeps_outside hu).1])
    refine ⟨t, u.outs ++ os, ?_, hfg.trans (exec_keeps_fg hw hu), fun done => ?_⟩
    · simp [runEvents, execEvent, hu, hrun]
    · simp [runInStep, execWhole_of_runsWhole hw hu, hstep]

/-- A port step raises only operations that exist (30_encoding.md R72; log entry 15). -/
theorem PortIn.events_wellFormed (hasTick : Bool) (p : PortIn) : ∀ i ∈ p.events hasTick, i.wellFormed hasTick = true := by
  have hraised : ∀ i ∈ p.raised hasTick, i.wellFormed hasTick = true := by
    have of_input {high : Bool} {i : Instr} (h : high = true → i.wellFormed hasTick = true) :
        ∀ j ∈ raisedBy high i, j.wellFormed hasTick = true := by
      cases high
      · exact List.forall_mem_nil _
      · exact List.forall_mem_singleton.2 (h rfl)
    have always {i : Instr} (h : i.ofCountdown = false) : i.wellFormed hasTick = true := by
      simp [Instr.wellFormed, h]
    have withTick {b : Bool} {i : Instr} (h : (b && hasTick) = true) : i.wellFormed hasTick = true := by
      simp [Instr.wellFormed, (Bool.and_eq_true_iff.1 h).2]
    simp only [PortIn.raised, List.forall_mem_append]
    exact ⟨⟨⟨⟨⟨⟨of_input fun _ => always rfl, of_input fun _ => always rfl⟩, of_input withTick⟩,
      of_input fun _ => always rfl⟩, of_input fun _ => always rfl⟩, of_input withTick⟩, of_input withTick⟩
  unfold PortIn.events
  split
  · exact List.forall_mem_singleton.2 (by simp [Instr.wellFormed, Instr.ofCountdown])
  · exact hraised

/-- A port step whose operations are performed whole is the run of its events, with the run's outputs. -/
theorem portStep_of_runsWhole {p : PortIn} {s : State} (hrst : p.rst = false) (hw : s.runsWhole = true) :
    ∃ t os, runEvents ((p.events s.cfg.hasTick).map .op) s = some (t, os) ∧
      portStep p s = .next { t with outs := os } ∧ t.fg = s.fg := by
  obtain ⟨t, os, hrun, hfg, hstep⟩ := runInStep_of_runsWhole hw (p.events_wellFormed s.cfg.hasTick)
  exact ⟨t, os, hrun, by simp [portStep, hrst, hstep], hfg⟩

end Sys2Proof.Machine
end

section
/-! SUPPORT. Everything an operation can do to the transmit path with `ATOMIC_FG = true` (41_transmit_path.md R120 to
R125). -/

namespace Sys2Proof.Machine

/-- What the operation `i` does to the transmit path between `s` and `t`. -/
inductive TxEffect (i : Instr) (s t : State) : Prop
  /-- An operation of another part, or a `SEND` whose byte is dropped. -/
  | leave (htxc : i ≠ .txc) (haccepts : acceptsTx (.op i) s = none) (htx : t.tx = s.tx) (hbusy : t.txBusy = s.txBusy)
      (hwrites : writtenBytes t.outs = [])
  | fast (b : Byte) (hi : i = .send b) (hpath : s.sendPath = .fast) (htx : t.tx = s.tx) (hbusy : t.txBusy = true)
      (houts : t.outs = [.write b])
  | buffered (b : Byte) (hi : i = .send b) (hpath : s.sendPath = .buffered) (htx : t.tx = s.tx.store b)
      (hbusy : t.txBusy = s.txBusy) (houts : t.outs = [.quiet])
  | goIdle (hi : i = .txc) (hempty : s.tx.isEmpty = true) (htx : t.tx = s.tx) (hbusy : t.txBusy = false)
      (houts : t.outs = [.quiet])
  | handOver (hi : i = .txc) (hempty : s.tx.isEmpty = false) (htx : t.tx = s.tx.advance) (hbusy : t.txBusy = true)
      (houts : t.outs = [.write s.tx.front])

theorem writtenBytes_append (os os' : List Output) : writtenBytes (os ++ os') = writtenBytes os ++ writtenBytes os' :=
  List.filterMap_append

theorem writtenBytes_singleton (o : Output) : writtenBytes [o] = o.txw.toList := by
  cases h : o.txw <;> simp [writtenBytes, h]

theorem writtenOf_singleton (o : Output) : writtenOf [o] = o.txw := by
  cases h : o.txw <;> simp [writtenOf, h]

/-- An operation of another part writes no byte. -/
theorem writtenBytes_of_partOf_ne_tx {i : Instr} {s t : State} (hp : partOf i ≠ .tx) (h : exec i s = .next t) :
    writtenBytes t.outs = [] := by
  obtain ⟨o, ho⟩ := execEvent_one_output (e := .op i) h
  have hw := writtenOf_of_partOf_ne_tx hp h
  rw [ho, writtenOf_singleton] at hw
  rw [ho, writtenBytes_singleton, hw]
  rfl

theorem exec_txEffect {i : Instr} {s t : State} (ha : s.cfg.atomicFg = true) (h : exec i s = .next t) :
    TxEffect i s t := by
  by_cases hp : partOf i = .tx
  · cases i with
    | send b =>
      rw [exec_send_of_atomic ha] at h
      rcases sendAtomic_next h with ⟨hpath, rfl⟩ | ⟨hpath, rfl⟩ | ⟨hpath, rfl⟩
      · exact .fast b rfl hpath rfl rfl rfl
      · exact .leave (by simp) (by simp [acceptsTx, hpath]) rfl rfl rfl
      · exact .buffered b rfl hpath rfl rfl rfl
    | txc =>
      rcases execTxc_next h with ⟨hempty, rfl⟩ | ⟨hempty, rfl⟩
      · exact .goIdle rfl hempty rfl rfl rfl
      · exact .handOver rfl hempty rfl rfl rfl
    | _ => cases hp
  · obtain ⟨htx, hbusy, _⟩ := exec_keeps_tx hp h
    refine .leave (by rintro rfl; exact hp rfl) ?_ htx hbusy (writtenBytes_of_partOf_ne_tx hp h)
    cases i with
    | send b => exact absurd rfl hp
    | _ => rfl

/-- While no `TXC` and no `RESET` comes, a busy path writes nothing and stays busy (70_reset_and_hazards.md R223). -/
theorem writes_nothing_of_busy {es : List Event} {s t : State} {os : List Output} (hbusy : s.txBusy = true)
    (ha : s.cfg.atomicFg = true) (htxc : Event.op .txc ∉ es) (hreset : Event.reset ∉ es)
    (h : runEvents es s = some (t, os)) : writtenBytes os = [] ∧ t.txBusy = true := by
  induction es generalizing s os with
  | nil => cases h; exact ⟨rfl, hbusy⟩
  | cons e es ih =>
    obtain ⟨u, os', hu, hrun, rfl⟩ := runEvents_cons h
    rw [List.mem_cons, not_or] at htxc hreset
    have hcfg := execEvent_keeps_cfg hu
    cases e with
    | reset => exact absurd rfl hreset.1
    | op i =>
      have one : writtenBytes u.outs = [] ∧ u.txBusy = true := by
        cases exec_txEffect ha hu with
        | leave _ _ _ hkeep hwrites => exact ⟨hwrites, hkeep.trans hbusy⟩
        | fast b _ hpath _ _ _ => cases hbusy.symm.trans (State.sendPath_fast.1 hpath).2
        | buffered b _ _ _ hkeep houts => exact ⟨by rw [houts]; rfl, hkeep.trans hbusy⟩
        | goIdle hi => exact absurd (congrArg Event.op hi.symm) htxc.1
        | handOver hi => exact absurd (congrArg Event.op hi.symm) htxc.1
      obtain ⟨hwrites, hbusy'⟩ := ih one.2 (hcfg ▸ ha) htxc.2 hreset.2 hrun
      exact ⟨by rw [writtenBytes_append, one.1, hwrites]; rfl, hbusy'⟩

/-- Without a `TXC` and a `RESET` at most one byte is written: the fast path's, which makes the path busy. -/
theorem writes_at_most_one {es : List Event} {s t : State} {os : List Output} (ha : s.cfg.atomicFg = true)
    (htxc : Event.op .txc ∉ es) (hreset : Event.reset ∉ es) (h : runEvents es s = some (t, os)) :
    (writtenBytes os).length ≤ 1 := by
  induction es generalizing s os with
  | nil => cases h; exact Nat.zero_le 1
  | cons e es ih =>
    obtain ⟨u, os', hu, hrun, rfl⟩ := runEvents_cons h
    rw [List.mem_cons, not_or] at htxc hreset
    have hcfg := execEvent_keeps_cfg hu
    have hrest := ih (hcfg ▸ ha) htxc.2 hreset.2 hrun
    rw [writtenBytes_append, List.length_append]
    cases e with
    | reset => exact absurd rfl hreset.1
    | op i =>
      cases exec_txEffect ha hu with
      | leave _ _ _ _ hwrites => simpa [hwrites] using hrest
      | fast b _ _ _ hbusy houts =>
        obtain ⟨hnone, _⟩ := writes_nothing_of_busy hbusy (hcfg ▸ ha) htxc.2 hreset.2 hrun
        rw [hnone, houts]
        exact Nat.le_refl 1
      | buffered b _ _ _ _ houts => simpa [houts, writtenBytes, Output.quiet] using hrest
      | goIdle hi => exact absurd (congrArg Event.op hi.symm) htxc.1
      | handOver hi => exact absurd (congrArg Event.op hi.symm) htxc.1

/-- A `TXC` first, and none later: still at most one byte, for the `TXC` that hands one over leaves the path busy. -/
theorem writes_at_most_one_after_txc {es : List Event} {s t : State} {os : List Output} (ha : s.cfg.atomicFg = true)
    (htxc : Event.op .txc ∉ es) (hreset : Event.reset ∉ es) (h : runEvents (.op .txc :: es) s = some (t, os)) :
    (writtenBytes os).length ≤ 1 := by
  obtain ⟨u, os', hu, hrun, rfl⟩ := runEvents_cons h
  have hua : u.cfg.atomicFg = true := by rw [execEvent_keeps_cfg hu]; exact ha
  rcases execTxc_next hu with ⟨_, rfl⟩ | ⟨_, rfl⟩
  · have hrest := writes_at_most_one hua htxc hreset hrun
    exact hrest
  · rw [writtenBytes_append, (writes_nothing_of_busy rfl hua htxc hreset hrun).1]
    exact Nat.le_refl 1

theorem length_writtenBytes (os : List Output) : (writtenBytes os).length = (os.filter (·.txw.isSome)).length := by
  induction os with
  | nil => rfl
  | cons o os ih => cases h : o.txw <;> simp_all [writtenBytes]

/-- The inputs that R189 puts after `txc_irq`. -/
def PortIn.afterTxc (hasTick : Bool) (p : PortIn) : List Instr :=
  raisedBy (p.tickIrq && hasTick) .tick ++ raisedBy p.takeReq .take ++ raisedBy p.sendReq (.send p.sendData) ++
    raisedBy (p.elapsedReq && hasTick) .elapsed ++ raisedBy (p.loadReq && hasTick) (.loadcd p.loadValue)

theorem PortIn.raised_eq (hasTick : Bool) (p : PortIn) :
    p.raised hasTick = raisedBy p.rxIrq (.rxi p.rxData) ++ (raisedBy p.txcIrq .txc ++ p.afterTxc hasTick) := by
  simp [PortIn.raised, PortIn.afterTxc]

theorem not_mem_raisedBy {high : Bool} {i j : Instr} (h : j ≠ i) : j ∉ raisedBy high i := by
  cases high <;> simp [raisedBy, h]

theorem PortIn.txc_not_mem_afterTxc (hasTick : Bool) (p : PortIn) : Instr.txc ∉ p.afterTxc hasTick := by
  simp [PortIn.afterTxc, not_mem_raisedBy]

/-- The events of one port step write at most one byte. -/
theorem portEvents_write_at_most_one {p : PortIn} {hasTick : Bool} {s t : State} {os : List Output}
    (ha : s.cfg.atomicFg = true) (h : runEvents ((p.events hasTick).map .op) s = some (t, os)) :
    (writtenBytes os).length ≤ 1 := by
  have hreset (is : List Instr) : Event.reset ∉ is.map Event.op := by simp
  have hafter : Event.op .txc ∉ (p.afterTxc hasTick).map Event.op := by simp [p.txc_not_mem_afterTxc hasTick]
  cases htxc : p.txcIrq with
  | false =>
    refine writes_at_most_one ha ?_ (hreset _) h
    have hnone : Instr.txc ∉ p.events hasTick := by
      rw [PortIn.events, PortIn.raised_eq, htxc]
      split
      · simp
      · simp [raisedBy, p.txc_not_mem_afterTxc hasTick]
    simpa using hnone
  | true =>
    rw [PortIn.events, PortIn.raised_eq, htxc, if_neg (by simp [raisedBy])] at h
    cases hrx : p.rxIrq with
    | false =>
      rw [hrx] at h
      exact writes_at_most_one_after_txc ha hafter (hreset _) h
    | true =>
      rw [hrx] at h
      obtain ⟨u, os', hu, hrun, rfl⟩ := runEvents_cons h
      have hua : u.cfg.atomicFg = true := by rw [execEvent_keeps_cfg hu]; exact ha
      rw [writtenBytes_append, writtenBytes_of_partOf_ne_tx (i := .rxi p.rxData) (by simp [partOf]) hu]
      exact writes_at_most_one_after_txc hua hafter (hreset _) hrun

end Sys2Proof.Machine
end

section
/-! The obligations on the step and on the port view (30_encoding.md R72, R73, R79, 60_exceptions.md R189). -/

namespace Sys2Proof.Machine

/-- Settles O11: only `TXC` and `SEND` write, the `TXC` comes first, and after a write the path is busy. -/
theorem atMostOneWritePerPortStep : Obligations.AtMostOneWritePerPortStep := by
  intro p s t ha h
  cases hrst : p.rst with
  | true =>
    rw [portStep, if_pos hrst] at h
    cases h
    exact Nat.zero_le 1
  | false =>
    obtain ⟨u, os, hrun, hstep, _⟩ := portStep_of_runsWhole hrst (State.runsWhole_of_atomic ha)
    cases h.symm.trans hstep
    rw [← length_writtenBytes]
    exact portEvents_write_at_most_one ha hrun

/-- Settles O46: `exec` turns the countdown's operations away, and the inputs that exist are raised in R189's order. -/
theorem countdownAbsentWithoutHasTick : Obligations.CountdownAbsentWithoutHasTick := by
  refine ⟨fun s i hc hi => ?_, fun p s hrst ha hc => ?_⟩
  · have habsent : ¬s.cfg.hasTick = true := by simp [hc]
    cases i with
    | tick => exact if_neg habsent
    | elapsed => exact if_neg habsent
    | loadcd v => exact if_neg habsent
    | _ => cases hi
  · intro high raised
    have hraised : p.raised s.cfg.hasTick = raised := by
      simp [raised, high, raised_cons, PortIn.raised, hc, raisedBy]
    obtain ⟨t, os, hrun, hstep, _⟩ := portStep_of_runsWhole hrst (State.runsWhole_of_atomic ha)
    exact ⟨t, os, by rwa [PortIn.events, hraised] at hrun, hstep⟩

/-- Settles O8: each kind of entry is an arm of `perform`, and with nothing scheduled the step is `execMicro`. -/
theorem stepRunsTheDecodedWord : Obligations.StepRunsTheDecodedWord := by
  refine ⟨fun s w rest i hin hi => ?_, fun s p rest hin => step_of_next_input hin,
    fun s rest => ⟨step_of_next_input, step_of_next_input, step_of_next_input⟩, fun s hin => ?_, fun s hmid => ?_,
    fun s t hmid ht => ?_, fun s nbits w i hbits h20 hi => ?_⟩
  · rw [step_of_next_input hin, perform, hi]
  · rw [step, nextStep, hin]
  · exact if_neg (by simp [hmid])
  · simp [execMicro, hmid, ht]
  · rw [step_of_next_input (x := .word (BitVec.ofNat 20 w)) (rest := s.inputs), perform]
    · rw [show ({ s.withFetchWord nbits w with inputs := s.inputs } : State) = s from rfl, hi]
    · rw [State.withFetchWord, scheduleWord, Nat.mod_eq_of_lt hbits]

/-- Settles O14: after reset both rings are empty, the path is idle and the countdown is 0. -/
theorem firstObservationsAfterReset : Obligations.FirstObservationsAfterReset := by
  intro nRx nTx hRx hTx c ha hc s
  exact ⟨exec_take_of_empty ha rfl, exec_send_of_fast ha rfl, exec_txc_of_empty rfl, exec_elapsed_of_hasTick hc,
    exec_tick_of_hasTick hc⟩

/-- Settles O39. -/
theorem missingTxcHangsTheTransmitPath : Obligations.MissingTxcHangsTheTransmitPath :=
  fun _ _ _ _ => writes_nothing_of_busy

end Sys2Proof.Machine
end
section
/-! SUPPORT. Full rings, the index width, and the rings right after a store (10_state.md R23, R32, 40_receive_path.md
R101, R102). -/

namespace Sys2Proof.Machine

/-- A ring is full when all slots but one are pending. -/
theorem RingBuf.isFull_iff_count (r : RingBuf) : r.isFull = true ↔ r.count = r.cap - 1 := by
  have hcount := r.count_cases
  have := r.head_lt
  have := r.tail_lt
  have := r.two_le_cap
  rw [RingBuf.isFull_iff, inc]
  split <;> omega

@[simp] theorem RingBuf.length_pending (r : RingBuf) : r.pending.length = r.count := Memory.length_walk _ _ _ _

theorem RingBuf.store_not_empty {r : RingBuf} (hf : r.isFull = false) (b : Byte) : (r.store b).isEmpty = false := by
  rw [← Bool.not_eq_true, ← RingBuf.count_eq_zero_iff, RingBuf.count_store hf]
  exact Nat.succ_ne_zero _

theorem RingBuf.pending_of_empty {r : RingBuf} (he : r.isEmpty = true) : r.pending = [] :=
  r.pending_eq_nil_iff.2 he

/-- The byte stored in an empty ring is the only one pending. -/
theorem RingBuf.pending_store_of_empty {r : RingBuf} (hw : Memory.wf r.cap r.buf = true) (he : r.isEmpty = true)
    (b : Byte) : (r.store b).pending = [b] := by
  rw [RingBuf.pending_store hw (RingBuf.not_full_of_empty he), RingBuf.pending_of_empty he]
  rfl

/-- With one byte pending, that byte is at the tail and the ring is empty once it is gone. -/
theorem RingBuf.front_of_pending_singleton {r : RingBuf} {b : Byte} (h : r.pending = [b]) :
    r.isEmpty = false ∧ r.front = b ∧ r.advance.isEmpty = true := by
  have he : r.isEmpty = false := by
    rw [← Bool.not_eq_true, ← RingBuf.pending_eq_nil_iff, h]
    exact List.cons_ne_nil _ _
  have hcons := RingBuf.pending_advance he
  rw [h] at hcons
  obtain ⟨hfront, hrest⟩ := List.cons.inj hcons
  exact ⟨he, hfront.symm, (RingBuf.pending_eq_nil_iff _).1 hrest.symm⟩

theorem lt_two_pow_indexWidth {n i : Nat} (h : i < n) : i < 2 ^ indexWidth n :=
  calc i < n := h
    _ ≤ 2 ^ (Nat.log2 (n - 1) + 1) := by have := Nat.lt_log2_self (n := n - 1); omega
    _ ≤ 2 ^ indexWidth n := Nat.pow_le_pow_right (by decide) (Nat.le_max_right _ _)

theorem indexWidth_le {n w : Nat} (hn : 2 ≤ n) (hw : 1 ≤ w) (h : n ≤ 2 ^ w) : indexWidth n ≤ w := by
  have hlog : Nat.log2 (n - 1) < w := (Nat.log2_lt (by omega)).2 (by omega)
  exact Nat.max_le.2 ⟨hw, hlog⟩

end Sys2Proof.Machine
end

section
/-! SUPPORT. A rejected byte leaves everything but its direction's drop counter, in either direction (10_state.md R30). -/

namespace Sys2Proof.Machine

theorem satInc_toNat (c : Half) : (satInc c).toNat = min (c.toNat + 1) 65535 := by
  unfold satInc
  split
  · next hmax => simp [hmax]
  · next hless =>
    have hc := c.isLt
    have hne : c.toNat ≠ 65535 := fun h => hless (BitVec.eq_of_toNat_eq h)
    rw [BitVec.toNat_add]
    simp only [BitVec.reduceToNat]
    omega

/-- Events that each count once in a register and do nothing else count as often as they happen, up to 65535; `put` gives
the state with the register's value and the record of outputs. -/
theorem runEvents_counts {ev : Byte → Event} {put : Half → List Output → State}
    (hcount : ∀ b c os, execEvent (ev b) (put c os) = .next (put (satInc c) [.quiet]))
    (hquiet : ∀ c, (put c [.quiet]).outs = [.quiet]) (bs : List Byte) (c : Half) (os : List Output) :
    runEvents (bs.map ev) (put c os) =
      some (put (BitVec.ofNat 16 (min (c.toNat + bs.length) 65535)) (if bs = [] then os else [.quiet]),
        List.replicate bs.length .quiet) := by
  induction bs generalizing c os with
  | nil =>
    have hc : min c.toNat 65535 = c.toNat := by have := c.isLt; omega
    simp [runEvents, hc]
  | cons b bs ih =>
    have hsum : min (min (c.toNat + 1) 65535 + bs.length) 65535 = min (c.toNat + (bs.length + 1)) 65535 := by omega
    simp [runEvents, hcount, hquiet, ih, satInc_toNat, hsum, List.replicate_succ]

theorem runEvents_rxi_of_full {s : State} (hdrop : s.cfg.ovfRx = .dropNewest) (hfull : s.rx.isFull = true)
    (bs : List Byte) :
    runEvents (bs.map fun b => .op (.rxi b)) s =
      some ({ s with rxDropCnt := BitVec.ofNat 16 (min (s.rxDropCnt.toNat + bs.length) 65535)
                     outs := if bs = [] then s.outs else [.quiet] }, List.replicate bs.length .quiet) :=
  runEvents_counts (ev := fun b => .op (.rxi b)) (put := fun c os => { s with rxDropCnt := c, outs := os })
    (fun b c os => exec_rxi_of_rejected (s := { s with rxDropCnt := c, outs := os }) ⟨hdrop, hfull⟩ b)
    (fun _ => rfl) bs s.rxDropCnt s.outs

theorem runEvents_send_of_full {s : State} (ha : s.cfg.atomicFg = true) (hdrop : s.cfg.ovfTx = .dropNewest)
    (hfull : s.tx.isFull = true) (bs : List Byte) :
    runEvents (bs.map fun b => .op (.send b)) s =
      some ({ s with txDropCnt := BitVec.ofNat 16 (min (s.txDropCnt.toNat + bs.length) 65535)
                     outs := if bs = [] then s.outs else [.quiet] }, List.replicate bs.length .quiet) :=
  runEvents_counts (ev := fun b => .op (.send b)) (put := fun c os => { s with txDropCnt := c, outs := os })
    (fun b c os => exec_send_of_drop (s := { s with txDropCnt := c, outs := os }) ha
      (State.sendPath_drop.2 ⟨hdrop, (RingBuf.isFull_iff _).1 hfull⟩) b)
    (fun _ => rfl) bs s.txDropCnt s.outs

end Sys2Proof.Machine
end

section
/-! SUPPORT. Which registers `RXI`, `TAKE`, `SEND` and `TXC` leave of their own part (10_state.md R31). -/

namespace Sys2Proof.Machine

theorem exec_rxi_frame {b : Byte} {s t : State} (h : exec (.rxi b) s = .next t) :
    t.rx.tail = s.rx.tail ∧ t.fg = s.fg := by
  rcases execRxi_next h with ⟨_, rfl⟩ | ⟨_, rfl⟩ <;> exact ⟨rfl, rfl⟩

theorem exec_take_frame {s t : State} (h : exec .take s = .next t) :
    t.rx.head = s.rx.head ∧ t.rx.buf = s.rx.buf ∧ t.rxDropCnt = s.rxDropCnt := by
  rcases execTake_next h with ⟨_, h⟩ | ⟨_, _, h⟩
  · rcases takeAtomic_next h with ⟨_, rfl⟩ | ⟨_, rfl⟩ <;> exact ⟨rfl, rfl, rfl⟩
  · rcases takeA_next h with ⟨_, rfl⟩ | ⟨_, rfl⟩ <;> exact ⟨rfl, rfl, rfl⟩

theorem exec_send_frame {b : Byte} {s t : State} (h : exec (.send b) s = .next t) : t.tx.tail = s.tx.tail := by
  rcases execSend_next h with ⟨_, h⟩ | ⟨_, _, h⟩
  · rcases sendAtomic_next h with ⟨_, rfl⟩ | ⟨_, rfl⟩ | ⟨_, rfl⟩ <;> rfl
  · cases h; rfl

theorem exec_txc_frame {s t : State} (h : exec .txc s = .next t) :
    t.tx.head = s.tx.head ∧ t.tx.buf = s.tx.buf ∧ t.txDropCnt = s.txDropCnt ∧ t.fg = s.fg := by
  rcases execTxc_next h with ⟨_, rfl⟩ | ⟨_, rfl⟩ <;> exact ⟨rfl, rfl, rfl, rfl⟩

/-- Only `TAKE` and `SEND` write the foreground's temporaries. -/
theorem exec_keeps_fg_of_other {i : Instr} {s t : State} (htake : i ≠ .take) (hsend : ∀ b, i ≠ .send b)
    (h : exec i s = .next t) : t.fg = s.fg := by
  cases i with
  | idle => cases h; rfl
  | rxi b => exact (exec_rxi_frame h).2
  | take => exact absurd rfl htake
  | send b => exact absurd rfl (hsend b)
  | txc => exact (exec_txc_frame h).2.2.2
  | tick => obtain ⟨_, rfl⟩ := execTick_next h; rfl
  | elapsed => obtain ⟨_, rfl⟩ := execElapsed_next h; rfl
  | loadcd v => obtain ⟨_, rfl⟩ := execLoadcd_next h; rfl

theorem eq_rxi_or_take_of_rx {i : Instr} (h : partOf i = .rx) : (∃ b, i = .rxi b) ∨ i = .take := by
  cases i with
  | rxi b => exact .inl ⟨b, rfl⟩
  | take => exact .inr rfl
  | _ => cases h

theorem eq_send_or_txc_of_tx {i : Instr} (h : partOf i = .tx) : (∃ b, i = .send b) ∨ i = .txc := by
  cases i with
  | send b => exact .inl ⟨b, rfl⟩
  | txc => exact .inr rfl
  | _ => cases h

theorem exec_writes_rx {i : Instr} {s t : State} (h : exec i s = .next t) :
    (t.rx.head ≠ s.rx.head ∨ t.rx.buf ≠ s.rx.buf ∨ t.rxDropCnt ≠ s.rxDropCnt → ∃ b, i = .rxi b) ∧
    (t.rx.tail ≠ s.rx.tail → i = .take) := by
  by_cases hp : partOf i = .rx
  · rcases eq_rxi_or_take_of_rx hp with ⟨b, rfl⟩ | rfl
    · exact ⟨fun _ => ⟨b, rfl⟩, fun hne => absurd (exec_rxi_frame h).1 hne⟩
    · refine ⟨fun hne => ?_, fun _ => rfl⟩
      simp [exec_take_frame h] at hne
  · have hrx := (exec_keeps_rx hp h).1
    have hdrop := exec_keeps_rxDropCnt hp h
    simp [hrx, hdrop]

theorem exec_writes_tx {i : Instr} {s t : State} (h : exec i s = .next t) :
    (t.tx.head ≠ s.tx.head ∨ t.tx.buf ≠ s.tx.buf ∨ t.txDropCnt ≠ s.txDropCnt → ∃ b, i = .send b) ∧
    (t.tx.tail ≠ s.tx.tail → i = .txc) ∧ (t.txBusy ≠ s.txBusy → i = .txc ∨ ∃ b, i = .send b) := by
  by_cases hp : partOf i = .tx
  · rcases eq_send_or_txc_of_tx hp with ⟨b, rfl⟩ | rfl
    · exact ⟨fun _ => ⟨b, rfl⟩, fun hne => absurd (exec_send_frame h) hne, fun _ => .inr ⟨b, rfl⟩⟩
    · refine ⟨fun hne => ?_, fun _ => rfl, fun _ => .inl rfl⟩
      simp [exec_txc_frame h] at hne
  · obtain ⟨htx, hbusy, hdrop⟩ := exec_keeps_tx hp h
    simp [htx, hbusy, hdrop]

end Sys2Proof.Machine
end

section
/-! SUPPORT. FIFO order on the output register (41_transmit_path.md R126), the transmitter's contract (60_exceptions.md
R186), and the drain of the ring (41_transmit_path.md R128). -/

namespace Sys2Proof.Machine

theorem exec_keeps_tx_wf {i : Instr} {s t : State} (ha : s.cfg.atomicFg = true)
    (hw : Memory.wf s.tx.cap s.tx.buf = true) (h : exec i s = .next t) : Memory.wf t.tx.cap t.tx.buf = true := by
  cases exec_txEffect ha h with
  | leave _ _ htx _ _ => rwa [htx]
  | fast b _ _ htx _ _ => rwa [htx]
  | buffered b _ _ htx _ _ => rw [htx]; exact RingBuf.store_wf hw b
  | goIdle _ _ htx _ _ => rwa [htx]
  | handOver _ _ htx _ _ => rwa [htx]

/-- Where no `SEND` overflows, a byte is buffered only in a ring that is not full. -/
theorem not_full_of_buffered {b : Byte} {s : State} (hov : s.cfg.ovfTx = .dropNewest ∨ overflowsTx (.op (.send b)) s = false)
    (hpath : s.sendPath = .buffered) : s.tx.isFull = false := by
  rw [← Bool.not_eq_true]
  intro hfull
  cases hpol : s.cfg.ovfTx with
  | wrap => simp [overflowsTx, hpol, hfull, hpath] at hov
  | dropNewest => cases hpath.symm.trans (State.sendPath_drop.2 ⟨hpol, (RingBuf.isFull_iff _).1 hfull⟩)

/-- One operation, no overflow: what it writes and what is then pending is what was pending and what it accepts. -/
theorem written_append_pending_of_exec {i : Instr} {s t : State} (ha : s.cfg.atomicFg = true)
    (hw : Memory.wf s.tx.cap s.tx.buf = true) (hov : s.cfg.ovfTx = .dropNewest ∨ overflowsTx (.op i) s = false)
    (h : exec i s = .next t) :
    writtenBytes t.outs ++ t.tx.pending = s.tx.pending ++ (acceptsTx (.op i) s).toList := by
  cases exec_txEffect ha h with
  | leave _ hacc htx _ hwrites => simp [hacc, htx, hwrites]
  | fast b hi hpath htx _ houts =>
    have hnone := RingBuf.pending_of_empty (State.sendPath_fast.1 hpath).1
    simp [hi, acceptsTx, hpath, htx, houts, writtenBytes_singleton, Output.write, hnone]
  | buffered b hi hpath htx _ houts =>
    have hstore := RingBuf.pending_store hw (not_full_of_buffered (hi ▸ hov) hpath) b
    simp [hi, acceptsTx, hpath, htx, houts, writtenBytes_singleton, Output.quiet, hstore]
  | goIdle hi _ htx _ houts => simp [hi, acceptsTx, htx, houts, writtenBytes_singleton, Output.quiet]
  | handOver hi hempty htx _ houts =>
    simp [hi, acceptsTx, htx, houts, writtenBytes_singleton, Output.write, RingBuf.pending_advance hempty]

/-- A run without overflow and without `RESET`: the same, from any state. -/
theorem written_append_pending_of_run {es : List Event} {s u : State} {os : List Output} (ha : s.cfg.atomicFg = true)
    (hw : Memory.wf s.tx.cap s.tx.buf = true) (hreset : Event.reset ∉ es)
    (hov : s.cfg.ovfTx = .dropNewest ∨ runAvoids overflowsTx es s = true) (h : runEvents es s = some (u, os)) :
    writtenBytes os ++ u.tx.pending = s.tx.pending ++ alongRun acceptsTx es s := by
  induction es generalizing s os with
  | nil => cases h; exact (List.append_nil _).symm
  | cons e es ih =>
    obtain ⟨t, os', ht, hr, rfl⟩ := runEvents_cons h
    have hcfg := execEvent_keeps_cfg ht
    rw [List.mem_cons, not_or] at hreset
    cases e with
    | reset => exact absurd rfl hreset.1
    | op i =>
      rw [runAvoids_cons ht] at hov
      have hhead := written_append_pending_of_exec ha hw (hov.imp_right And.left) ht
      have htail := ih (hcfg ▸ ha) (exec_keeps_tx_wf ha hw ht) hreset.2 (hcfg ▸ hov.imp_right And.right) hr
      rw [writtenBytes_append, List.append_assoc, htail, ← List.append_assoc, hhead, alongRun_cons ht,
        List.append_assoc]

/-- Under `WRAP` every byte given to `SEND` is accepted. -/
theorem accepted_eq_sendBytes_of_wrap {s : State} (hwrap : s.cfg.ovfTx = .wrap) (es : List Event) :
    alongRun acceptsTx es s = sendBytes es := by
  induction es generalizing s with
  | nil => rfl
  | cons e es ih =>
    have hnodrop : s.sendPath ≠ .drop := fun hp => by cases hwrap.symm.trans (State.sendPath_drop.1 hp).1
    rw [alongRun, ih (by rw [afterEvent_cfg]; exact hwrap)]
    cases e with
    | reset => rfl
    | op i => cases i <;> simp [acceptsTx, hnodrop, sendBytes]

/-- One event that keeps the contract, while `tx_busy` says whether the transmitter holds a byte: it overwrites none, and
`tx_busy` says so still. -/
theorem busy_tracks_transmitter {e : Event} {s : State} (ha : s.cfg.atomicFg = true)
    (htxc : s.txBusy = true ∨ e ≠ .op .txc) (hreset : s.txBusy = false ∨ e ≠ .reset) :
    shiftingAfter e s s.txBusy = (afterEvent e s).txBusy ∧ (writesOut e s && s.txBusy && e != .op .txc) = false := by
  cases he : execEvent e s with
  | fault r => cases r
  | refused r =>
    have hop : e ≠ .op .txc := by
      rintro rfl
      obtain ⟨t, ht⟩ := exec_completes (i := .txc) (s := s) (by simp [Instr.wellFormed, Instr.ofCountdown])
      cases he.symm.trans ht
    simp [shiftingAfter, writesOut, afterEvent, he, hop]
  | next t =>
    rw [afterEvent_eq he]
    cases e with
    | reset =>
      have hidle : s.txBusy = false := hreset.resolve_right (by simp)
      cases he
      simp [shiftingAfter, writesOut, execEvent, execReset, hidle, writtenOf, Output.quiet]
    | op i =>
      have hwrites : writesOut (.op i) s = (writtenOf t.outs).isSome := by simp [writesOut, he]
      rw [shiftingAfter, hwrites]
      cases exec_txEffect ha he with
      | leave hi _ _ hbusy hnone =>
        have hnone : writtenOf t.outs = none := by
          obtain ⟨o, ho⟩ := execEvent_one_output he
          rw [ho, writtenBytes_singleton] at hnone
          rw [ho, writtenOf_singleton]
          exact Option.toList_eq_nil_iff.1 hnone
        simp [hnone, hbusy, hi]
      | fast b hi hpath _ hbusy houts =>
        simp [houts, hbusy, writtenOf_singleton, Output.write, (State.sendPath_fast.1 hpath).2]
      | buffered b hi _ _ hbusy houts => simp [houts, hbusy, hi, writtenOf_singleton, Output.quiet]
      | goIdle hi _ _ hbusy houts => simp [houts, hbusy, hi, writtenOf_singleton, Output.quiet]
      | handOver hi _ _ hbusy houts => simp [houts, hbusy, hi, writtenOf_singleton, Output.write]

/-- A run on which the transmitter keeps its contract, from any state in which `tx_busy` tells the truth. -/
theorem contract_run {es : List Event} {s : State} (ha : s.cfg.atomicFg = true)
    (h : keepsContract es s s.txBusy = true) :
    neverOverwrites es s s.txBusy = true ∧
      ∀ (u : State) (os : List Output), runEvents es s = some (u, os) → shiftingAtEnd es s s.txBusy = u.txBusy := by
  induction es generalizing s with
  | nil => exact ⟨rfl, fun u os hu => by cases hu; rfl⟩
  | cons e es ih =>
    simp only [keepsContract, Bool.and_eq_true, Bool.or_eq_true, Bool.not_eq_true', bne_iff_ne] at h
    obtain ⟨⟨htxc, hreset⟩, hrest⟩ := h
    obtain ⟨htrue, hsafe⟩ := busy_tracks_transmitter ha htxc hreset
    rw [htrue] at hrest
    obtain ⟨hnever, hend⟩ := ih (by rw [afterEvent_cfg]; exact ha) hrest
    refine ⟨by rw [neverOverwrites, hsafe, htrue, hnever]; rfl, fun u os hu => ?_⟩
    obtain ⟨t, os', ht, hu, _⟩ := runEvents_cons hu
    rw [shiftingAtEnd, htrue]
    exact hend u os' (by rwa [afterEvent_eq ht])

/-- From a busy path, as many `TXC`s as bytes are pending write them in order. -/
theorem drain_run {n : Nat} {s : State} (hn : s.tx.count = n) (hbusy : s.txBusy = true) :
    ∃ t os, runEvents (List.replicate n (.op .txc)) s = some (t, os) ∧ writtenBytes os = s.tx.pending ∧
      os.length = n ∧ t.tx.isEmpty = true ∧ t.txBusy = true := by
  induction n generalizing s with
  | zero =>
    have he : s.tx.isEmpty = true := (RingBuf.count_eq_zero_iff _).1 hn
    exact ⟨s, [], rfl, (RingBuf.pending_of_empty he).symm, rfl, he, hbusy⟩
  | succ n ih =>
    have he : s.tx.isEmpty = false := by
      rw [← Bool.not_eq_true, ← RingBuf.count_eq_zero_iff, hn]
      exact Nat.succ_ne_zero n
    have hfirst := exec_txc_of_not_empty he
    obtain ⟨t, os, hrun, hwrites, hlen, hempty, hbusy'⟩ :=
      ih (s := { s with tx := s.tx.advance, txBusy := true, outs := [.write s.tx.front] })
        (Nat.succ.inj ((RingBuf.count_advance he).symm.trans hn)) rfl
    refine ⟨t, .write s.tx.front :: os, ?_, ?_, by rw [List.length_cons, hlen], hempty, hbusy'⟩
    · simp [List.replicate_succ, runEvents, execEvent, hfirst, hrun]
    · rw [RingBuf.pending_advance he, ← hwrites]
      rfl

end Sys2Proof.Machine
end

section
/-! SUPPORT. The countdown along a run without a reload (42_tick_countdown.md R141). -/

namespace Sys2Proof.Machine

theorem satDec_toNat (c : Half) : (satDec c).toNat = c.toNat - 1 := by
  unfold satDec
  split
  · next hzero => simp [hzero]
  · next hne =>
    have hc := c.isLt
    have hpos : c.toNat ≠ 0 := fun h => hne (BitVec.eq_of_toNat_eq h)
    rw [BitVec.toNat_sub]
    simp only [BitVec.reduceToNat]
    omega

theorem ticksOf_cons (e : Event) (es : List Event) : ticksOf (e :: es) = ticksOf es + if e = .op .tick then 1 else 0 := by
  simp [ticksOf, List.count_cons]

theorem countdown_of_run {es : List Event} {s t : State} {os : List Output} (hn : noReload es = true)
    (h : runEvents es s = some (t, os)) : t.countdown.toNat = s.countdown.toNat - ticksOf es := by
  induction es generalizing s os with
  | nil => cases h; rfl
  | cons e es ih =>
    obtain ⟨u, os', hu, hrun, _⟩ := runEvents_cons h
    obtain ⟨hne, hnes⟩ := noReload_cons.1 hn
    rw [ih hnes hrun, execEvent_countdown_of_noReload hne hu, ticksOf_cons]
    split
    · rw [satDec_toNat]; omega
    · omega

end Sys2Proof.Machine
end

section
/-! SUPPORT. The record of outputs is read by no operation (log entry 5), so that an `IDLE` in a run changes nothing but
its own output (43_idle.md R160). -/

namespace Sys2Proof.Machine

theorem exec_with_outs (i : Instr) (s : State) (os : List Output) : exec i { s with outs := os } = exec i s := by
  cases i <;> rfl

theorem execEvent_with_outs (e : Event) (s : State) (os : List Output) :
    execEvent e { s with outs := os } = execEvent e s := by
  cases e with
  | op i => exact exec_with_outs i s os
  | reset => rfl

/-- A run from a state with another record of outputs ends in the same state, but for that record if the run is empty. -/
theorem runEvents_with_outs {es : List Event} {s t : State} {os : List Output} (os' : List Output)
    (h : runEvents es s = some (t, os)) :
    ∃ t', runEvents es { s with outs := os' } = some (t', os) ∧ { t' with outs := [] } = { t with outs := [] } := by
  cases es with
  | nil => cases h; exact ⟨_, rfl, rfl⟩
  | cons e es => exact ⟨t, by rw [← h, runEvents, runEvents, execEvent_with_outs], rfl⟩

theorem runEvents_cons_of_next {e : Event} {es : List Event} {s t u : State} {os : List Output}
    (ht : execEvent e s = .next t) (h : runEvents es t = some (u, os)) :
    runEvents (e :: es) s = some (u, t.outs ++ os) := by
  simp [runEvents, ht, h]

theorem runEvents_insert_idle {es es' : List Event} {s t : State} {os : List Output}
    (h : runEvents (es ++ es') s = some (t, os)) :
    ∃ t', runEvents (es ++ .op .idle :: es') s = some (t', os.take es.length ++ .quiet :: os.drop es.length) ∧
      { t' with outs := [] } = { t with outs := [] } := by
  induction es generalizing s os with
  | nil =>
    obtain ⟨t', hrun, hsame⟩ := runEvents_with_outs [.quiet] h
    exact ⟨t', runEvents_cons_of_next (e := .op .idle) (exec_idle s) hrun, hsame⟩
  | cons e es ih =>
    obtain ⟨u, os', hu, hrun, rfl⟩ := runEvents_cons h
    obtain ⟨o, ho⟩ := execEvent_one_output hu
    obtain ⟨t', hrun', hsame⟩ := ih hrun
    refine ⟨t', ?_, hsame⟩
    rw [List.cons_append, runEvents_cons_of_next hu hrun', ho]
    rfl

end Sys2Proof.Machine
end

section
/-! The obligations on the rings, on single operations and on runs of the receive path, the transmit path and the
countdown (10_state.md, 40_receive_path.md, 41_transmit_path.md, 42_tick_countdown.md, 43_idle.md). -/

namespace Sys2Proof.Machine

/-- Settles O19: an operation of another part leaves the register, and of the two of its part only the writer changes it. -/
theorem eachRegisterChangesOnlyByItsWriters : Obligations.EachRegisterChangesOnlyByItsWriters := by
  intro i s t h
  obtain ⟨hrx, htail⟩ := exec_writes_rx h
  obtain ⟨htx, htxTail, hbusy⟩ := exec_writes_tx h
  refine ⟨hrx, htail, htx, htxTail, hbusy, fun hne => ?_, fun hne => ?_, exec_keeps_outside h⟩
  · exact loadcdWritesTheCountdown.2 i s t h hne
  · refine Classical.byContradiction fun hother => ?_
    obtain ⟨htake, hsend⟩ := not_or.1 hother
    exact hne (exec_keeps_fg_of_other htake (not_exists.1 hsend) h)

/-- Settles O20. -/
theorem emptyFullAndCount : Obligations.EmptyFullAndCount := by
  intro r
  refine ⟨r.count_eq_zero_iff.symm, r.isFull_iff_count, ?_, r.count_lt, r.length_pending⟩
  rintro ⟨he, hf⟩
  cases hf.symm.trans (RingBuf.not_full_of_empty he)

/-- Settles O21: `N - 1` has `log2 (N - 1) + 1` binary digits. -/
theorem indexRegistersFitTheirWidth : Obligations.IndexRegistersFitTheirWidth := fun r =>
  ⟨lt_two_pow_indexWidth r.head_lt, lt_two_pow_indexWidth r.tail_lt, Nat.le_max_left _ _,
    fun _ hw h => indexWidth_le r.two_le_cap hw h⟩

/-- Settles O23. -/
theorem rxiAppendsToPending : Obligations.RxiAppendsToPending := by
  intro b s hw hf
  refine ⟨_, exec_rxi_of_accepted (fun hrej => by cases hf.symm.trans hrej.2) b, RingBuf.pending_store hw hf b,
    RingBuf.store_not_empty hf b, fun k hk => s.rx.pending_slot_ne_head hk⟩

/-- Settles O24: the store on the full ring makes it read empty, and the next one puts its byte in that empty ring. -/
theorem rxOverflowUnderWrap : Obligations.RxOverflowUnderWrap := by
  intro b c s hwrap ha hw hf
  have haccept : ¬(s.cfg.ovfRx = .dropNewest ∧ s.rx.isFull = true) := fun h => by cases hwrap.symm.trans h.1
  have hfirst : (s.rx.store b).isEmpty = true := RingBuf.store_empty_of_full hf b
  have hhead : (s.rx.store b).head = s.rx.tail := (RingBuf.isFull_iff _).1 hf
  refine ⟨_, exec_rxi_of_accepted haccept b, ?_, fun a hne => ?_, hhead, rfl, (RingBuf.count_eq_zero_iff _).2 hfirst,
    RingBuf.pending_of_empty hfirst, exec_take_of_empty ha hfirst, ?_⟩
  · rw [RingBuf.store_slot hw, if_pos rfl]
  · rw [RingBuf.store_slot hw, if_neg hne]
  · have hw' := RingBuf.store_wf hw b
    have hone := RingBuf.pending_store_of_empty hw' hfirst c
    obtain ⟨hbyte, hfront, hlast⟩ := RingBuf.front_of_pending_singleton hone
    refine ⟨_, _, exec_rxi_of_accepted (fun h => by cases hwrap.symm.trans h.1) c, hone, ?_,
      exec_take_of_not_empty ha hbyte, congrArg (fun d => [Output.answer (.byte d)]) hfront, hlast⟩
    rw [RingBuf.store_slot hw', if_pos hhead.symm]

/-- Settles O27. -/
theorem takeRemovesTheOldestPendingByte : Obligations.TakeRemovesTheOldestPendingByte := fun _ ha he =>
  ⟨_, _, _, RingBuf.pending_advance he, exec_take_of_not_empty ha he, rfl, rfl⟩

/-- Settles O30. -/
theorem dropCountersSaturate : Obligations.DropCountersSaturate := fun _ bs ha =>
  ⟨fun hdrop hf => ⟨_, runEvents_rxi_of_full hdrop hf bs⟩, fun hdrop hf => ⟨_, runEvents_send_of_full ha hdrop hf bs⟩⟩

/-- Settles O34: the store on the full ring makes it read empty and busy, from where either event goes on. -/
theorem txOverflowUnderWrap : Obligations.TxOverflowUnderWrap := by
  intro b c s hwrap ha hw hf hbusy
  have buffered {u : State} (hu : u.cfg = s.cfg) (hub : u.txBusy = true) : u.sendPath = .buffered := by
    rw [State.sendPath_eq, if_neg (fun h => by cases hub.symm.trans h.2),
      if_neg (fun h => by cases hwrap.symm.trans (hu ▸ h.1))]
  have hfirst : (s.tx.store b).isEmpty = true := RingBuf.store_empty_of_full hf b
  have hhead : (s.tx.store b).head = s.tx.tail := (RingBuf.isFull_iff _).1 hf
  refine ⟨_, exec_send_of_buffered ha (buffered rfl hbusy) b, rfl, ?_, fun a hne => ?_, hhead, rfl,
    RingBuf.pending_of_empty hfirst, hbusy, ?_, ?_⟩
  · rw [RingBuf.store_slot hw, if_pos rfl]
  · rw [RingBuf.store_slot hw, if_neg hne]
  · refine ⟨_, _, exec_txc_of_empty hfirst, rfl, rfl, rfl, exec_send_of_fast ?_ ?_ c, rfl, rfl⟩
    · exact ha
    · exact State.sendPath_fast.2 ⟨hfirst, rfl⟩
  · have hw' := RingBuf.store_wf hw b
    have hone := RingBuf.pending_store_of_empty hw' hfirst c
    obtain ⟨hbyte, hfront, _⟩ := RingBuf.front_of_pending_singleton hone
    refine ⟨_, _, exec_send_of_buffered ?_ ?_ c, rfl, hone, ?_, exec_txc_of_not_empty hbyte,
      congrArg (fun d => [Output.write d]) hfront⟩
    · exact ha
    · exact buffered rfl hbusy
    · rw [RingBuf.store_slot hw', if_pos hhead.symm]

/-- Settles O36: from the reset state nothing is pending, so the bytes written and the bytes pending are the accepted
bytes. -/
theorem transmitPathIsFifo : Obligations.TransmitPathIsFifo := by
  intro nRx nTx hRx hTx c es s os ha hreset hov hrun accepted
  have hfifo : writtenBytes os ++ s.tx.pending = accepted := by
    rw [written_append_pending_of_run ha rfl hreset hov hrun]
    exact congrArg (· ++ accepted) (RingBuf.empty_pending nTx hTx)
  exact ⟨hfifo, ⟨_, hfifo⟩, fun hwrap => accepted_eq_sendBytes_of_wrap hwrap es⟩

/-- Settles O37: after reset the path is idle and the transmitter holds nothing. -/
theorem oneByteInTheTransmitter : Obligations.OneByteInTheTransmitter := fun _ _ _ _ _ _ ha h =>
  contract_run ha h

/-- Settles O38: each `TXC` on a non-empty ring takes the first pending byte and stays busy. -/
theorem completionsDrainTheRing : Obligations.CompletionsDrainTheRing := by
  intro s hbusy
  obtain ⟨t, os, hrun, hwrites, hlen, hempty, hbusy'⟩ := drain_run rfl hbusy
  exact ⟨t, os, _, hrun, hwrites, hlen, hempty, hbusy', exec_txc_of_empty hempty, rfl, rfl, rfl⟩

/-- Settles O41. -/
theorem ticksNeverUnderflow : Obligations.TicksNeverUnderflow := fun _ _ _ _ => countdown_of_run

/-- Settles O45: the countdown is 0 exactly when the ticks since the load are at least the value loaded. -/
theorem periodLaw : Obligations.PeriodLaw := by
  intro v es s t os hn hrun
  obtain ⟨u, os', hu, hrun, _⟩ := runEvents_cons hrun
  obtain ⟨hc, rfl⟩ := execLoadcd_next hu
  have hcount := countdown_of_run hn hrun
  have hzero : (t.countdown == 0) = decide (v.toNat ≤ ticksOf es) := by
    rw [Bool.eq_iff_iff, beq_iff_eq, decide_eq_true_iff, BitVec.toNat_eq, hcount]
    exact Nat.sub_eq_zero_iff_le
  rw [← hzero]
  exact exec_elapsed_of_hasTick (by rw [runEvents_keeps_cfg hrun]; exact hc)

/-- Settles O48. -/
theorem idleMayBeInsertedAnywhere : Obligations.IdleMayBeInsertedAnywhere := fun _ _ _ _ _ => runEvents_insert_idle

/-- Settles O51: each of the five leaves the state as it found it, so the second time it finds the same. -/
theorem idempotentOperations : Obligations.IdempotentOperations := by
  intro i s t ha hi h
  have unchanged : { t with outs := s.outs } = s := by
    rcases hi with ⟨rfl, he⟩ | ⟨rfl, he, hidle⟩ | rfl | ⟨rfl, hzero⟩ | rfl
    · cases h.symm.trans (exec_take_of_empty ha he)
      rfl
    · cases h.symm.trans (exec_txc_of_empty he)
      rw [← hidle]
    · obtain ⟨_, rfl⟩ := execElapsed_next h
      rfl
    · obtain ⟨_, rfl⟩ := execTick_next h
      rw [hzero, satDec_zero, ← hzero]
    · cases h
      rfl
  refine ⟨?_, congrArg (fun u : State => { u with outs := [] }) unchanged⟩
  rw [← exec_with_outs i t s.outs, unchanged, h]

end Sys2Proof.Machine
end
section
/-! SUPPORT. The closed form of a ring (40_receive_path.md R102 point 4, 41_transmit_path.md R122 point 5): which bytes
were stored and how many were taken say where the indices stand and what the slots hold, in either direction. -/

namespace Sys2Proof.Machine

/-- Since it was last empty at slot 0, the ring took in the bytes `stored`, oldest first, and gave up `taken` of them:
each slot holds the last byte that was stored there. -/
structure RingBuf.Logs (r : RingBuf) (stored : List Byte) (taken : Nat) : Prop where
  wf : Memory.wf r.cap r.buf = true
  head : r.head = stored.length % r.cap
  tail : r.tail = taken % r.cap
  taken_le : taken ≤ stored.length
  recent : ∀ (k : Nat) (b : Byte), stored[k]? = some b → stored.length ≤ k + r.cap → Memory.read r.buf (k % r.cap) = b

theorem RingBuf.logs_empty (n : Nat) (h : 2 ≤ n) : (RingBuf.empty n h).Logs [] 0 where
  wf := rfl
  head := (Nat.zero_mod n).symm
  tail := (Nat.zero_mod n).symm
  taken_le := Nat.le_refl 0
  recent := fun k b hk => by simp at hk

/-- Congruent numbers less than a period apart are the same. -/
theorem eq_of_mod_eq_of_lt_add {n k l : Nat} (h : k % n = l % n) (hkl : k ≤ l) (hl : l < k + n) : k = l := by
  have hdvd : n ∣ l - k := Nat.dvd_of_mod_eq_zero (Nat.sub_mod_eq_zero_of_mod_eq h.symm)
  have := Nat.eq_zero_of_dvd_of_lt hdvd (by omega)
  omega

theorem RingBuf.Logs.store {r : RingBuf} {stored : List Byte} {taken : Nat} (h : r.Logs stored taken) (b : Byte) :
    (r.store b).Logs (stored ++ [b]) taken where
  wf := RingBuf.store_wf h.wf b
  head := by rw [RingBuf.store_head, inc_eq_mod r.head_lt, h.head, Nat.mod_add_mod, List.length_append]; rfl
  tail := h.tail
  taken_le := Nat.le_trans h.taken_le (by simp)
  recent := by
    intro k x hk hlen
    change (stored ++ [b]).length ≤ k + r.cap at hlen
    rw [List.length_append, List.length_singleton] at hlen
    rw [RingBuf.store_buf, RingBuf.store_cap, Memory.read_write h.wf, h.head]
    rcases Nat.lt_trichotomy k stored.length with hlt | rfl | hgt
    · have hother : k % r.cap ≠ stored.length % r.cap := fun heq =>
        absurd (eq_of_mod_eq_of_lt_add heq (Nat.le_of_lt hlt) hlen) (Nat.ne_of_lt hlt)
      rw [if_neg hother]
      rw [List.getElem?_append_left hlt] at hk
      exact h.recent k x hk (by omega)
    · simpa using hk
    · rw [List.getElem?_eq_none (by rw [List.length_append]; exact hgt)] at hk
      cases hk

/-- A ring that is not empty has more bytes stored than taken. -/
theorem RingBuf.Logs.taken_lt {r : RingBuf} {stored : List Byte} {taken : Nat} (h : r.Logs stored taken)
    (he : r.isEmpty = false) : taken < stored.length := by
  refine Nat.lt_of_le_of_ne h.taken_le fun heq => ?_
  rw [RingBuf.isEmpty_eq_false, h.head, h.tail, heq] at he
  exact he rfl

theorem RingBuf.Logs.advance {r : RingBuf} {stored : List Byte} {taken : Nat} (h : r.Logs stored taken)
    (he : r.isEmpty = false) : r.advance.Logs stored (taken + 1) where
  wf := h.wf
  head := h.head
  tail := by rw [RingBuf.advance_tail, inc_eq_mod r.tail_lt, h.tail, Nat.mod_add_mod]; rfl
  taken_le := h.taken_lt he
  recent := h.recent

/-- The greatest number below `e` that is congruent to `d`. -/
theorem exists_latest_congruent {n d e : Nat} (hn : 0 < n) (hd : d < e) :
    ∃ k, k < e ∧ k % n = d % n ∧ e ≤ k + n ∧ ∀ j, j < e → j % n = d % n → j ≤ k := by
  have hdiv := Nat.div_add_mod (e - 1 - d) n
  have hmod := Nat.mod_lt (e - 1 - d) hn
  have hk : e ≤ d + n * ((e - 1 - d) / n) + n := by omega
  have hcong : (d + n * ((e - 1 - d) / n)) % n = d % n := Nat.add_mul_mod_self_left d n _
  refine ⟨d + n * ((e - 1 - d) / n), by omega, hcong, hk, fun j hj hjd => ?_⟩
  refine Nat.le_of_not_lt fun hlt => ?_
  exact absurd (eq_of_mod_eq_of_lt_add (hcong.trans hjd.symm) (Nat.le_of_lt hlt) (by omega)) (Nat.ne_of_lt hlt)

theorem RingBuf.Logs.isEmpty_iff {r : RingBuf} {stored : List Byte} {taken : Nat} (h : r.Logs stored taken) :
    r.isEmpty = true ↔ stored.length % r.cap = taken % r.cap := by
  rw [RingBuf.isEmpty_iff, h.head, h.tail]

/-- A ring that is not empty gives up next the latest byte whose number is congruent to the number of bytes taken. -/
theorem RingBuf.Logs.front {r : RingBuf} {stored : List Byte} {taken : Nat} (h : r.Logs stored taken)
    (he : r.isEmpty = false) :
    ∃ k, k < stored.length ∧ k % r.cap = taken % r.cap ∧
      (∀ j, j < stored.length → j % r.cap = taken % r.cap → j ≤ k) ∧ stored[k]? = some r.front := by
  have hcap : 0 < r.cap := Nat.lt_of_lt_of_le (by decide) r.two_le_cap
  obtain ⟨k, hk, hmod, hrecent, hmax⟩ := exists_latest_congruent hcap (h.taken_lt he)
  have hbyte := List.getElem?_eq_getElem hk
  refine ⟨k, hk, hmod, hmax, ?_⟩
  rw [RingBuf.front, h.tail, ← hmod, h.recent k _ hbyte hrecent, hbyte]

end Sys2Proof.Machine
end

section
/-! SUPPORT. What a run of events stores in each ring and takes from it. -/

namespace Sys2Proof.Machine

theorem rx_logs_of_run {es : List Event} {s u : State} {os : List Output} {stored : List Byte} {taken : Nat}
    (ha : s.cfg.atomicFg = true) (hreset : Event.reset ∉ es) (h : s.rx.Logs stored taken)
    (hrun : runEvents es s = some (u, os)) :
    u.rx.Logs (stored ++ alongRun storesRx es s) (taken + (takenBytes os).length) := by
  induction es generalizing s os stored taken with
  | nil => cases hrun; simpa [alongRun, takenBytes] using h
  | cons e es ih =>
    obtain ⟨t, os', ht, hr, rfl⟩ := runEvents_cons hrun
    rw [List.mem_cons, not_or] at hreset
    cases e with
    | reset => exact absurd rfl hreset.1
    | op i =>
      have hone : t.rx.Logs (stored ++ (storesRx (.op i) s).toList) (taken + (takenBytes t.outs).length) := by
        rcases exec_rx_cases ha ht with ⟨hs, hrx, htk⟩ | ⟨b, hs, hrx, htk⟩ | ⟨hs, he, hrx, htk⟩ <;> rw [hs, hrx, htk]
        · simpa using h
        · exact h.store b
        · simpa using h.advance he
      have hrest := ih (execEvent_keeps_cfg ht ▸ ha) hreset.2 hone hr
      rwa [alongRun_cons ht, takenBytes_append, List.length_append, ← List.append_assoc, ← Nat.add_assoc]

/-- The number of `TXC`s of a run that handed a byte over. -/
def handOvers (es : List Event) (os : List Output) : Nat :=
  ((es.zip os).filter fun x => x.1 == .op .txc && x.2.txw.isSome).length

theorem handOvers_cons (e : Event) (es : List Event) (o : Output) (os : List Output) :
    handOvers (e :: es) (o :: os) = (if e == .op .txc && o.txw.isSome then 1 else 0) + handOvers es os := by
  rw [handOvers, List.zip_cons_cons, List.filter_cons, Nat.add_comm]
  split <;> rfl

/-- A byte stored in the TX ring is an accepted one. -/
theorem storesTx_of_acceptsTx_none {i : Instr} {s : State} (h : acceptsTx (.op i) s = none) :
    storesTx (.op i) s = none := by
  cases i with
  | send b =>
    simp only [acceptsTx, storesTx] at h ⊢
    split at h
    · next hdrop => simp [hdrop]
    · cases h
  | _ => rfl

/-- One operation on the TX ring. -/
theorem tx_logs_of_exec {i : Instr} {s t : State} {o : Output} {stored : List Byte} {taken : Nat}
    (ha : s.cfg.atomicFg = true) (h : s.tx.Logs stored taken) (ht : exec i s = .next t) (ho : t.outs = [o]) :
    t.tx.Logs (stored ++ (storesTx (.op i) s).toList)
      (taken + if Event.op i == .op .txc && o.txw.isSome then 1 else 0) := by
  cases exec_txEffect ha ht with
  | leave hi hacc htx _ _ => simpa [storesTx_of_acceptsTx_none hacc, htx, hi] using h
  | fast b hi hpath htx _ _ => simpa [storesTx, hi, hpath, htx] using h
  | buffered b hi hpath htx _ _ => simpa [storesTx, hi, hpath, htx] using h.store b
  | goIdle hi _ htx _ houts =>
    cases ho.symm.trans houts
    simpa [storesTx, hi, htx, Output.quiet] using h
  | handOver hi he htx _ houts =>
    cases ho.symm.trans houts
    simpa [storesTx, hi, htx, Output.write] using h.advance he

theorem tx_logs_of_run {es : List Event} {s u : State} {os : List Output} {stored : List Byte} {taken : Nat}
    (ha : s.cfg.atomicFg = true) (hreset : Event.reset ∉ es) (h : s.tx.Logs stored taken)
    (hrun : runEvents es s = some (u, os)) :
    u.tx.Logs (stored ++ alongRun storesTx es s) (taken + handOvers es os) := by
  induction es generalizing s os stored taken with
  | nil => cases hrun; simpa [alongRun, handOvers] using h
  | cons e es ih =>
    obtain ⟨t, os', ht, hr, rfl⟩ := runEvents_cons hrun
    rw [List.mem_cons, not_or] at hreset
    obtain ⟨o, ho⟩ := execEvent_one_output ht
    cases e with
    | reset => exact absurd rfl hreset.1
    | op i =>
      have hrest := ih (execEvent_keeps_cfg ht ▸ ha) hreset.2 (tx_logs_of_exec ha h ht ho) hr
      rwa [alongRun_cons ht, ho, List.singleton_append, handOvers_cons, ← List.append_assoc, ← Nat.add_assoc]

end Sys2Proof.Machine
end

section
/-! SUPPORT. Filling the receive ring and draining it, as runs (40_receive_path.md R107). -/

namespace Sys2Proof.Machine

theorem runEvents_append {es es' : List Event} {s t u : State} {os os' : List Output}
    (h : runEvents es s = some (t, os)) (h' : runEvents es' t = some (u, os')) :
    runEvents (es ++ es') s = some (u, os ++ os') := by
  induction es generalizing s os with
  | nil => cases h; exact h'
  | cons e es ih =>
    obtain ⟨v, os₁, hv, hrun, rfl⟩ := runEvents_cons h
    rw [List.cons_append, runEvents_cons_of_next hv (ih hrun), List.append_assoc]

theorem takeAnswers_append (os os' : List Output) : takeAnswers (os ++ os') = takeAnswers os ++ takeAnswers os' :=
  List.filterMap_append

@[simp] theorem takeAnswers_replicate_quiet (n : Nat) : takeAnswers (List.replicate n .quiet) = [] := by
  simp [takeAnswers, Output.quiet]

/-- As many `RXI`s as there is room for are all stored. -/
theorem runEvents_rxi_of_room {bs : List Byte} {s : State} (hw : Memory.wf s.rx.cap s.rx.buf = true)
    (hroom : s.rx.count + bs.length ≤ s.rx.cap - 1) :
    ∃ (r : RingBuf) (os : List Output), runEvents (bs.map fun b => .op (.rxi b)) s =
        some ({ s with rx := r, outs := os }, List.replicate bs.length .quiet) ∧
      r.cap = s.rx.cap ∧ Memory.wf r.cap r.buf = true ∧ r.pending = s.rx.pending ++ bs := by
  induction bs generalizing s with
  | nil => exact ⟨s.rx, s.outs, rfl, rfl, hw, (List.append_nil _).symm⟩
  | cons b bs ih =>
    rw [List.length_cons] at hroom
    have hf : s.rx.isFull = false := by
      rw [← Bool.not_eq_true, RingBuf.isFull_iff_count]
      omega
    have hfirst := exec_rxi_of_accepted (fun h => by cases hf.symm.trans h.2) b
    obtain ⟨r, os, hrun, hcap, hwf, hpend⟩ :=
      ih (s := { s with rx := s.rx.store b, outs := [.quiet] }) (RingBuf.store_wf hw b)
        (by rw [RingBuf.count_store hf, RingBuf.store_cap]; omega)
    refine ⟨r, os, runEvents_cons_of_next (e := .op (.rxi b)) hfirst hrun, hcap, hwf, ?_⟩
    rw [hpend, RingBuf.pending_store hw hf, List.append_assoc]
    rfl

/-- `TAKE`s answer the pending bytes in order, and `empty` from then on. -/
theorem runEvents_takes {n : Nat} {s : State} (ha : s.cfg.atomicFg = true) (hn : s.rx.count ≤ n) :
    ∃ t os, runEvents (List.replicate n (.op .take)) s = some (t, os) ∧
      takeAnswers os = s.rx.pending.map some ++ List.replicate (n - s.rx.count) none ∧ t.rxDropCnt = s.rxDropCnt := by
  induction n generalizing s with
  | zero =>
    have hnone := RingBuf.pending_of_empty ((RingBuf.count_eq_zero_iff _).1 (Nat.le_zero.1 hn))
    exact ⟨s, [], rfl, by simp [hnone, takeAnswers], rfl⟩
  | succ n ih =>
    cases he : s.rx.isEmpty with
    | true =>
      have hzero : s.rx.count = 0 := (RingBuf.count_eq_zero_iff _).2 he
      obtain ⟨t, os, hrun, hans, hdrop⟩ :=
        ih (s := { s with outs := [.answer .empty] }) ha (by simp only [hzero, Nat.zero_le])
      refine ⟨t, _, runEvents_cons_of_next (e := .op .take) (exec_take_of_empty ha he) hrun, ?_, hdrop⟩
      rw [takeAnswers_append, hans]
      simp [RingBuf.pending_of_empty he, hzero, takeAnswers, Output.answer, List.replicate_succ]
    | false =>
      have hcount := RingBuf.count_advance he
      obtain ⟨t, os, hrun, hans, hdrop⟩ :=
        ih (s := { s with rx := s.rx.advance, outs := [.answer (.byte s.rx.front)] }) ha (by simp only; omega)
      refine ⟨t, _, runEvents_cons_of_next (e := .op .take) (exec_take_of_not_empty ha he) hrun, ?_, hdrop⟩
      rw [takeAnswers_append, hans, RingBuf.pending_advance he, hcount, Nat.add_sub_add_right]
      rfl

/-- One byte less than there are slots fills an empty ring. -/
theorem runEvents_rxi_fills {bs : List Byte} {s : State} (hw : Memory.wf s.rx.cap s.rx.buf = true)
    (he : s.rx.isEmpty = true) (hlen : bs.length = s.rx.cap - 1) :
    ∃ (r : RingBuf) (os : List Output), runEvents (bs.map fun b => .op (.rxi b)) s =
        some ({ s with rx := r, outs := os }, List.replicate bs.length .quiet) ∧
      Memory.wf r.cap r.buf = true ∧ r.isFull = true ∧ r.pending = bs := by
  have hzero := (RingBuf.count_eq_zero_iff _).2 he
  obtain ⟨r, os, hrun, hcap, hwf, hpend⟩ := runEvents_rxi_of_room (bs := bs) hw (by omega)
  rw [RingBuf.pending_of_empty he, List.nil_append] at hpend
  refine ⟨r, os, hrun, hwf, ?_, hpend⟩
  rw [RingBuf.isFull_iff_count, ← RingBuf.length_pending, hpend, hlen, hcap]

/-- Two bytes more than fill the ring, under `WRAP`: the first empties it, the second is then alone in it. -/
theorem survivors_of_wrap {s : State} {bs : List Byte} {y z : Byte} (ha : s.cfg.atomicFg = true)
    (hwrap : s.cfg.ovfRx = .wrap) (hw : Memory.wf s.rx.cap s.rx.buf = true) (he : s.rx.isEmpty = true)
    (hlen : bs.length = s.rx.cap - 1) :
    ∃ t os, runEvents ((bs ++ [y, z]).map (fun b => Event.op (.rxi b)) ++ [Event.op .take, Event.op .take]) s = some (t, os) ∧
      takeAnswers os = [some z, none] := by
  obtain ⟨r, os, hfill, hrw, hfull, -⟩ := runEvents_rxi_fills hw he hlen
  have accepted (q : RingBuf) (o : List Output) (b : Byte) : execEvent (.op (.rxi b)) { s with rx := q, outs := o } =
      .next { s with rx := q.store b, outs := [Output.quiet] } :=
    exec_rxi_of_accepted (s := { s with rx := q, outs := o }) (fun h => by cases hwrap.symm.trans h.1) b
  have hlast := RingBuf.pending_store_of_empty (RingBuf.store_wf hrw y) (RingBuf.store_empty_of_full hfull y) z
  have hone : ((r.store y).store z).count = 1 := by rw [← RingBuf.length_pending, hlast]; rfl
  obtain ⟨t, os', htakes, hans, -⟩ := runEvents_takes (n := 2)
    (s := { s with rx := (r.store y).store z, outs := [Output.quiet] }) ha (by simp only [hone, Nat.le_succ])
  have hrun : runEvents ([y, z].map (fun b => Event.op (.rxi b)) ++ [Event.op .take, Event.op .take]) { s with rx := r, outs := os } =
      some (t, [Output.quiet] ++ ([Output.quiet] ++ os')) :=
    runEvents_cons_of_next (accepted r os y) (runEvents_cons_of_next (accepted (r.store y) [Output.quiet] z) htakes)
  refine ⟨t, List.replicate bs.length Output.quiet ++ ([Output.quiet] ++ ([Output.quiet] ++ os')), ?_, ?_⟩
  · rw [List.map_append, List.append_assoc]
    exact runEvents_append hfill hrun
  · rw [takeAnswers_append, takeAnswers_replicate_quiet, takeAnswers_append, takeAnswers_append, hans]
    simp [hlast, hone, takeAnswers, Output.quiet]

/-- Two bytes more than fill the ring, under `DROP_NEWEST`: both are counted. -/
theorem survivors_of_dropNewest {s : State} {bs : List Byte} {y z : Byte} (ha : s.cfg.atomicFg = true)
    (hdrop : s.cfg.ovfRx = .dropNewest) (hw : Memory.wf s.rx.cap s.rx.buf = true) (he : s.rx.isEmpty = true)
    (hzero : s.rxDropCnt = 0) (hlen : bs.length = s.rx.cap - 1) :
    ∃ t os, runEvents ((bs ++ [y, z]).map (fun b => Event.op (.rxi b)) ++ List.replicate s.rx.cap (Event.op .take)) s =
        some (t, os) ∧ takeAnswers os = bs.map some ++ [none] ∧ t.rxDropCnt = 2 := by
  have hcap := s.rx.two_le_cap
  obtain ⟨r, os, hfill, -, hfull, hpend⟩ := runEvents_rxi_fills hw he hlen
  have hcount : r.count = s.rx.cap - 1 := by rw [← RingBuf.length_pending, hpend, hlen]
  have hreject : runEvents ([y, z].map fun b => Event.op (.rxi b)) { s with rx := r, outs := os } =
      some ({ s with rx := r, rxDropCnt := 2, outs := [Output.quiet] }, List.replicate 2 Output.quiet) := by
    rw [runEvents_rxi_of_full (s := { s with rx := r, outs := os }) hdrop hfull]
    simp [hzero]
  obtain ⟨t, os', htakes, hans, hcnt⟩ := runEvents_takes (n := s.rx.cap)
    (s := { s with rx := r, rxDropCnt := 2, outs := [Output.quiet] }) ha (by simp only [hcount]; omega)
  refine ⟨t, List.replicate bs.length Output.quiet ++ List.replicate 2 Output.quiet ++ os', ?_, ?_, hcnt⟩
  · rw [List.map_append]
    exact runEvents_append (runEvents_append hfill hreject) htakes
  · have hleft : s.rx.cap - r.count = 1 := by omega
    rw [takeAnswers_append, takeAnswers_append, takeAnswers_replicate_quiet, takeAnswers_replicate_quiet, hans]
    simp [hpend, hleft]

end Sys2Proof.Machine
end

section
/-! The obligations on overflowing runs (40_receive_path.md R102, R107, 41_transmit_path.md R122). -/

namespace Sys2Proof.Machine

/-- Settles O25: the log of the receive ring starts empty, and under `WRAP` it is all the bytes given to `RXI`. -/
theorem rxClosedFormUnderWrap : Obligations.RxClosedFormUnderWrap := by
  intro nRx nTx hRx hTx c es s os hwrap ha hreset hrun e d
  have hlogs := rx_logs_of_run ha hreset (RingBuf.logs_empty nRx hRx) hrun
  rw [accepted_eq_rxiBytes_of_wrap hwrap, List.nil_append, Nat.zero_add] at hlogs
  have hcap : s.rx.cap = nRx := ((State.hasParameters_kept c nRx nTx).runEvents ⟨rfl, rfl, rfl⟩ hrun).2.1
  have hs : s.cfg.atomicFg = true := by rw [runEvents_keeps_cfg hrun]; exact ha
  have hempty := hlogs.isEmpty_iff
  have hfront := hlogs.front
  rw [hcap] at hempty hfront
  refine ⟨hcap ▸ hlogs.head, hcap ▸ hlogs.tail, hlogs.taken_le, hempty, fun he => ?_⟩
  obtain ⟨k, hk, hmod, hmax, hbyte⟩ := hfront he
  exact ⟨k, s.rx.front, _, hk, hmod, hmax, hbyte, exec_take_of_not_empty hs he, rfl⟩

/-- Settles O35: the log of the transmit ring starts empty. -/
theorem txClosedFormUnderWrap : Obligations.TxClosedFormUnderWrap := by
  intro nRx nTx hRx hTx c es s os _ ha hreset hrun stored e d
  have hlogs := tx_logs_of_run ha hreset (RingBuf.logs_empty nTx hTx) hrun
  rw [List.nil_append, Nat.zero_add] at hlogs
  have hcap : s.tx.cap = nTx := ((State.hasParameters_kept c nRx nTx).runEvents ⟨rfl, rfl, rfl⟩ hrun).2.2
  have hempty := hlogs.isEmpty_iff
  have hfront := hlogs.front
  rw [hcap] at hempty hfront
  refine ⟨hcap ▸ hlogs.head, hcap ▸ hlogs.tail, hlogs.taken_le, hempty, fun he => ?_⟩
  obtain ⟨k, hk, hmod, hmax, hbyte⟩ := hfront he
  exact ⟨k, s.tx.front, _, hk, hmod, hmax, hbyte, exec_txc_of_not_empty he, rfl⟩

theorem eq_pair_of_length {α : Type} {xs : List α} (h : xs.length = 2) : ∃ y z, xs = [y, z] :=
  match xs, h with
  | [y, z], _ => ⟨y, z, rfl⟩

/-- Settles O29: all bytes but two fill the ring, and what becomes of those two is the policy's. -/
theorem survivorsOfCapacityPlusOne : Obligations.SurvivorsOfCapacityPlusOne := by
  intro s bs ha hw he hzero hlen
  have hcap := s.rx.two_le_cap
  obtain ⟨y, z, hyz⟩ : ∃ y z, bs.drop (s.rx.cap - 1) = [y, z] :=
    eq_pair_of_length (by rw [List.length_drop]; omega)
  have hxs : (bs.take (s.rx.cap - 1)).length = s.rx.cap - 1 := by rw [List.length_take]; omega
  have hbs : bs.take (s.rx.cap - 1) ++ [y, z] = bs := by rw [← hyz, List.take_append_drop]
  have hz : bs.getLast? = some z := by rw [← hbs, List.getLast?_append]; rfl
  refine ⟨fun hwrap => ?_, fun hdrop => ?_⟩
  · have := survivors_of_wrap (y := y) (z := z) ha hwrap hw he hxs
    rwa [hbs, ← hz] at this
  · have := survivors_of_dropNewest (y := y) (z := z) ha hdrop hw he hzero hxs
    rwa [hbs] at this

end Sys2Proof.Machine
end
section
/-! SUPPORT. Operations of different parts commute (60_exceptions.md R188): each makes the same change to its own part
before and after the other, and the two changes are to different fields. -/

namespace Sys2Proof.Machine

/-- `s` with the part `p`, the foreground's temporaries apart, as `t` has it. -/
def State.withPart (s : State) (p : Part) (t : State) : State :=
  match p with
  | .none => s
  | .rx => { s with rx := t.rx, rxDropCnt := t.rxDropCnt }
  | .tx => { s with tx := t.tx, txBusy := t.txBusy, txDropCnt := t.txDropCnt }
  | .countdown => { s with countdown := t.countdown }

/-- `s'` agrees with `s` on the part `p`. -/
def State.agreesOn (p : Part) (s s' : State) : Prop :=
  match p with
  | .none => True
  | .rx => s'.rx = s.rx ∧ s'.rxDropCnt = s.rxDropCnt
  | .tx => s'.tx = s.tx ∧ s'.txBusy = s.txBusy ∧ s'.txDropCnt = s.txDropCnt
  | .countdown => s'.countdown = s.countdown

/-- A whole operation from any state with the same parameters, foreground and own part: the same change to that part and
the same output. -/
theorem exec_of_agreesOn {i : Instr} {s s' t : State} (hw : s.runsWhole = true) (h : exec i s = .next t)
    (hcfg : s'.cfg = s.cfg) (hfg : s'.fg = s.fg) (hpart : State.agreesOn (partOf i) s s') :
    exec i s' = .next { s'.withPart (partOf i) t with outs := t.outs } := by
  have hkeep : t.fg = s'.fg := (exec_keeps_fg hw h).trans hfg.symm
  cases hp : partOf i with
  | none =>
    cases i with
    | idle => cases h; rfl
    | _ => cases hp
  | rx =>
    rw [hp] at hpart
    rw [exec_of_rx_part hp h hcfg hfg hpart.1 hpart.2, hkeep]
    rfl
  | tx =>
    rw [hp] at hpart
    rw [exec_of_tx_part hp h hcfg hfg hpart.1 hpart.2.1 hpart.2.2, hkeep]
    rfl
  | countdown =>
    rw [hp] at hpart
    exact exec_of_countdown_part hp h hcfg hpart

theorem State.agreesOn_refl (p : Part) (s : State) : State.agreesOn p s s := by
  cases p with
  | none => exact trivial
  | rx => exact ⟨rfl, rfl⟩
  | tx => exact ⟨rfl, rfl, rfl⟩
  | countdown => rfl

theorem State.withPart_keeps_rx {p : Part} (hp : p ≠ .rx) (s t : State) :
    (s.withPart p t).rx = s.rx ∧ (s.withPart p t).rxDropCnt = s.rxDropCnt := by
  cases p with
  | rx => exact absurd rfl hp
  | _ => exact ⟨rfl, rfl⟩

theorem State.withPart_keeps_tx {p : Part} (hp : p ≠ .tx) (s t : State) :
    (s.withPart p t).tx = s.tx ∧ (s.withPart p t).txBusy = s.txBusy ∧ (s.withPart p t).txDropCnt = s.txDropCnt := by
  cases p with
  | tx => exact absurd rfl hp
  | _ => exact ⟨rfl, rfl, rfl⟩

theorem State.withPart_keeps_countdown {p : Part} (hp : p ≠ .countdown) (s t : State) :
    (s.withPart p t).countdown = s.countdown := by
  cases p with
  | countdown => exact absurd rfl hp
  | _ => rfl

/-- A change to one part is none to another. -/
theorem State.agreesOn_withPart {p q : Part} (hpq : p ≠ q) (s t : State) (os : List Output) :
    State.agreesOn q s { s.withPart p t with outs := os } := by
  cases q with
  | none => exact trivial
  | rx => exact s.withPart_keeps_rx hpq t
  | tx => exact s.withPart_keeps_tx hpq t
  | countdown => exact s.withPart_keeps_countdown hpq t

theorem State.withPart_comm {p q : Part} (hpq : p ≠ q) (s t u : State) :
    (s.withPart p t).withPart q u = (s.withPart q u).withPart p t := by
  cases p with
  | none => cases q <;> rfl
  | rx => cases q with
    | rx => exact absurd rfl hpq
    | _ => rfl
  | tx => cases q with
    | tx => exact absurd rfl hpq
    | _ => rfl
  | countdown => cases q with
    | countdown => exact absurd rfl hpq
    | _ => rfl

@[simp] theorem State.withPart_cfg (s : State) (p : Part) (t : State) : (s.withPart p t).cfg = s.cfg := by
  cases p <;> rfl

@[simp] theorem State.withPart_fg (s : State) (p : Part) (t : State) : (s.withPart p t).fg = s.fg := by
  cases p <;> rfl

theorem State.withPart_outs (s : State) (p : Part) (t : State) (os : List Output) :
    State.withPart { s with outs := os } p t = { s.withPart p t with outs := os } := by
  cases p <;> rfl

/-- After an operation of another part, the operation does what it did before it. -/
theorem exec_after_other_part {i j : Instr} {s a b : State} (hij : partOf i ≠ partOf j) (hw : s.runsWhole = true)
    (hi : exec i s = .next a) (hj : exec j s = .next b) :
    exec j a = .next { (s.withPart (partOf i) a).withPart (partOf j) b with outs := b.outs } := by
  have ha : a = { s.withPart (partOf i) a with outs := a.outs } :=
    Host.Outcome.next.inj (hi.symm.trans (exec_of_agreesOn hw hi rfl rfl (State.agreesOn_refl _ s)))
  have hja := exec_of_agreesOn (s' := { s.withPart (partOf i) a with outs := a.outs }) hw hj
    (s.withPart_cfg _ a) (s.withPart_fg _ a) (State.agreesOn_withPart hij s a a.outs)
  rw [State.withPart_outs (s.withPart (partOf i) a)] at hja
  exact (congrArg (exec j) ha).trans hja

/-- Only `TAKE`, of the receive part, answers a byte or `empty`. -/
theorem takeAnswers_of_partOf_ne_rx {i : Instr} {s t : State} {o : Output} (hp : partOf i ≠ .rx)
    (h : exec i s = .next t) (ho : t.outs = [o]) : takeAnswers [o] = [] := by
  by_cases he : i = .elapsed
  · subst he
    obtain ⟨f, hf⟩ := execElapsed_resp h ho
    simp [takeAnswers, hf]
  · have hnone := exec_resp_none (by rintro rfl; exact hp rfl) he h ho
    simp [takeAnswers, hnone]

/-- Only `ELAPSED`, of the countdown, answers a flag. -/
theorem elapsedAnswers_of_partOf_ne_countdown {i : Instr} {s t : State} {o : Output} (hp : partOf i ≠ .countdown)
    (h : exec i s = .next t) (ho : t.outs = [o]) : elapsedAnswers [o] = [] := by
  by_cases ht : i = .take
  · subst ht
    rcases execTake_resp h ho with hr | ⟨b, hr⟩ | hr <;> simp [elapsedAnswers, hr]
  · have hnone := exec_resp_none ht (by rintro rfl; exact hp rfl) h ho
    simp [elapsedAnswers, hnone]

theorem runEvents_of_one {e : Event} {s t : State} (h : execEvent e s = .next t) :
    runEvents [e] s = some (t, t.outs) := by
  simp [runEvents, h]

theorem append_comm_of_nil {α : Type} {xs ys : List α} (h : xs = [] ∨ ys = []) : xs ++ ys = ys ++ xs := by
  rcases h with rfl | rfl <;> simp

/-- An observer sees the same of two operations of different parts in either order. -/
theorem observed_comm {i j : Instr} {s a b t t' : State} {o o' : Output} (hij : partOf i ≠ partOf j)
    (hi : exec i s = .next a) (hj : exec j s = .next b) (ho : a.outs = [o]) (ho' : b.outs = [o'])
    (hcfg : t.cfg = t'.cfg) (hrxDrops : t.rxDropCnt = t'.rxDropCnt) (htxDrops : t.txDropCnt = t'.txDropCnt) :
    observed t [o, o'] = observed t' [o', o] := by
  have either (p : Part) : partOf i ≠ p ∨ partOf j ≠ p := by
    by_cases h : partOf i = p
    · exact .inr fun h' => hij (h.trans h'.symm)
    · exact .inl h
  have hwrites : writtenBytes [o, o'] = writtenBytes [o', o] := by
    have hnil : writtenBytes [o] = [] ∨ writtenBytes [o'] = [] := by
      rw [← ho, ← ho']
      exact (either .tx).imp (fun hp => writtenBytes_of_partOf_ne_tx hp hi) (fun hp => writtenBytes_of_partOf_ne_tx hp hj)
    rw [← List.singleton_append, writtenBytes_append, append_comm_of_nil hnil, ← writtenBytes_append]
    rfl
  have htakes : takeAnswers [o, o'] = takeAnswers [o', o] := by
    have hnil : takeAnswers [o] = [] ∨ takeAnswers [o'] = [] := (either .rx).imp
      (fun hp => takeAnswers_of_partOf_ne_rx hp hi ho) (fun hp => takeAnswers_of_partOf_ne_rx hp hj ho')
    rw [← List.singleton_append, takeAnswers_append, append_comm_of_nil hnil, ← takeAnswers_append]
    rfl
  have helapsed : elapsedAnswers [o, o'] = elapsedAnswers [o', o] := by
    have hnil : elapsedAnswers [o] = [] ∨ elapsedAnswers [o'] = [] := (either .countdown).imp
      (fun hp => elapsedAnswers_of_partOf_ne_countdown hp hi ho)
      (fun hp => elapsedAnswers_of_partOf_ne_countdown hp hj ho')
    rw [← List.singleton_append, elapsedAnswers_append, append_comm_of_nil hnil, ← elapsedAnswers_append]
    rfl
  simp only [observed, State.ports, hwrites, htakes, helapsed, hcfg, hrxDrops, htxDrops]

end Sys2Proof.Machine
end

section
/-! The obligation on the independence of the parts (60_exceptions.md section 3). -/

namespace Sys2Proof.Machine

/-- Settles O49: in either order each operation makes its own part's change, and those are to different fields. -/
theorem differentPartsCommute : Obligations.DifferentPartsCommute := by
  intro i j s hij ha hc
  have hw : s.runsWhole = true := State.runsWhole_of_atomic ha
  obtain ⟨a, hi⟩ := exec_completes (i := i) (s := s) (by simp [Instr.wellFormed, hc])
  obtain ⟨b, hj⟩ := exec_completes (i := j) (s := s) (by simp [Instr.wellFormed, hc])
  obtain ⟨o, ho⟩ := execEvent_one_output (e := .op i) hi
  obtain ⟨o', ho'⟩ := execEvent_one_output (e := .op j) hj
  have hij' := exec_after_other_part hij hw hi hj
  have hji' := exec_after_other_part hij.symm hw hj hi
  rw [State.withPart_comm hij.symm] at hji'
  have hrun := runEvents_cons_of_next (e := .op i) hi (runEvents_of_one (e := .op j) hij')
  have hrun' := runEvents_cons_of_next (e := .op j) hj (runEvents_of_one (e := .op i) hji')
  simp only [ho, ho'] at hrun hrun'
  exact ⟨_, _, o, o', hrun, hrun', rfl, observed_comm hij hi hj ho ho' rfl rfl rfl⟩

end Sys2Proof.Machine
end
section
/-! SUPPORT. The micro-steps of a split `SEND` (70_reset_and_hazards.md R234), one equation each, and the rings they pass
through. -/

namespace Sys2Proof.Machine

/-- The ring with the byte `b` in slot `i` and its indices as they were: what `SEND.b` leaves. -/
def RingBuf.withSlot (r : RingBuf) (i : Nat) (b : Byte) : RingBuf := { r with buf := Memory.write r.buf i b }

@[simp] theorem RingBuf.withSlot_head (r : RingBuf) (i : Nat) (b : Byte) : (r.withSlot i b).head = r.head := rfl
@[simp] theorem RingBuf.withSlot_cap (r : RingBuf) (i : Nat) (b : Byte) : (r.withSlot i b).cap = r.cap := rfl
@[simp] theorem RingBuf.withSlot_isEmpty (r : RingBuf) (i : Nat) (b : Byte) : (r.withSlot i b).isEmpty = r.isEmpty := rfl

theorem RingBuf.writeAt_of_lt {r : RingBuf} {i : Nat} (hi : i < r.cap) (b : Byte) :
    r.writeAt i b = some (r.withSlot i b) :=
  if_pos hi

theorem RingBuf.withSlot_slot {r : RingBuf} (hw : Memory.wf r.cap r.buf = true) {i : Nat} (hi : i < r.cap) (b : Byte)
    (a : Nat) : (r.withSlot i b).slot a = if a = i then some b else r.slot a := by
  by_cases ha : a = i
  · simp [RingBuf.withSlot, RingBuf.slot, Memory.read_write hw, ha, hi]
  · simp [RingBuf.withSlot, RingBuf.slot, Memory.read_write hw, ha]

/-- A byte in another slot than the tail's leaves the byte at the tail. -/
theorem RingBuf.withSlot_front {r : RingBuf} {i : Nat} (hi : r.tail ≠ i) (b : Byte) : (r.withSlot i b).front = r.front :=
  Memory.read_write_ne hi b r.buf

theorem RingBuf.headPast_of_lt {r : RingBuf} {h : Nat} (hh : h < r.cap) :
    r.headPast h = some { r with head := inc r.cap h, head_lt := inc_lt hh } :=
  dif_pos hh

/-- `SEND.b` and `SEND.c` at the head are the head-indexed store. -/
theorem RingBuf.headPast_withSlot_head (r : RingBuf) (b : Byte) :
    (r.withSlot r.head b).headPast r.head = some (r.store b) :=
  dif_pos r.head_lt

/-- `TAKE.c` at the tail is the tail's advance. -/
theorem RingBuf.tailPast_tail (r : RingBuf) : r.tailPast r.tail = some r.advance :=
  dif_pos r.tail_lt

theorem sendAtomic_of_fast {b : Byte} {s : State} (hp : s.sendPath = .fast) :
    sendAtomic b s = .next { s with txBusy := true, outs := [.write b] } := by
  rw [sendAtomic, hp]; rfl

theorem sendAtomic_of_drop {b : Byte} {s : State} (hp : s.sendPath = .drop) :
    sendAtomic b s = .next { s with txDropCnt := satInc s.txDropCnt, outs := [.quiet] } := by
  rw [sendAtomic, hp]; rfl

theorem sendAtomic_of_buffered {b : Byte} {s : State} (hp : s.sendPath = .buffered) :
    sendAtomic b s = .next { s with tx := s.tx.store b, outs := [.quiet] } := by
  rw [sendAtomic, hp]; rfl

/-- `SEND.a`. -/
theorem exec_send_of_split {s : State} (ha : s.cfg.atomicFg = false) (hi : s.fg = .idle) (b : Byte) :
    exec (.send b) s =
      .next { s with fg := .sendPath b s.tx.head s.tx.tail s.txBusy s.sendPath, outs := [.quiet] } :=
  if_neg (State.not_runsWhole_of_split ha hi)

/-- `SEND.f`. -/
theorem microOf_of_fast {s : State} {b : Byte} {h t : Nat} {q : Bool} (hf : s.fg = .sendPath b h t q .fast) :
    microOf s = .next { s with txBusy := true, fg := .idle, outs := [.write b] } := by
  rw [microOf, hf]; rfl

/-- `SEND.d`. -/
theorem microOf_of_drop {s : State} {b : Byte} {h t : Nat} {q : Bool} (hf : s.fg = .sendPath b h t q .drop) :
    microOf s = .next { s with txDropCnt := satInc s.txDropCnt, fg := .idle, outs := [.quiet] } := by
  rw [microOf, hf]; rfl

/-- `SEND.b`. -/
theorem microOf_of_buffered {s : State} {b : Byte} {h t : Nat} {q : Bool} (hf : s.fg = .sendPath b h t q .buffered)
    (hh : h < s.tx.cap) : microOf s = .next { s with tx := s.tx.withSlot h b, fg := .sendC b h t q, outs := [.quiet] } := by
  simp only [microOf, hf, sendB, RingBuf.writeAt_of_lt hh]
  rfl

/-- `SEND.c`. -/
theorem microOf_of_sendC {s : State} {b : Byte} {h t : Nat} {q : Bool} {r : RingBuf} (hf : s.fg = .sendC b h t q)
    (hr : s.tx.headPast h = some r) : microOf s = .next { s with tx := r, fg := .idle, outs := [.quiet] } := by
  simp only [microOf, hf, sendC, hr]
  rfl

/-- A busy path does not take the fast path. -/
theorem State.sendPath_ne_fast_of_busy {s : State} (hb : s.txBusy = true) : s.sendPath ≠ .fast := fun hp => by
  cases hb.symm.trans (State.sendPath_fast.1 hp).2

/-- A busy path with room in the ring buffers. -/
theorem State.sendPath_buffered_of_busy {s : State} (hb : s.txBusy = true) (hf : s.tx.isFull = false) :
    s.sendPath = .buffered := by
  have hslow := State.sendPath_ne_fast_of_busy hb
  cases hp : s.sendPath with
  | fast => exact absurd hp hslow
  | drop => cases hf.symm.trans ((RingBuf.isFull_iff _).2 (State.sendPath_drop.1 hp).2)
  | buffered => rfl

/-- Once a pending byte is gone, the ring is not full. -/
theorem RingBuf.advance_not_full {r : RingBuf} (he : r.isEmpty = false) : r.advance.isFull = false := by
  rw [← Bool.not_eq_true, RingBuf.isFull_iff]
  exact fun h => (RingBuf.isEmpty_eq_false _).1 he (inc_inj h)

end Sys2Proof.Machine
end

section
/-! SUPPORT. Whole and split operations do the same (70_reset_and_hazards.md R232): what an operation does does not depend on
`ATOMIC_FG` where it is performed whole, and uninterrupted micro-steps end where the atomic operation does. -/

namespace Sys2Proof.Machine

/-- The state with `ATOMIC_FG` as given. -/
def State.withAtomicFg (s : State) (x : Bool) : State := { s with cfg := { s.cfg with atomicFg := x } }

@[simp] theorem State.withAtomicFg_atomicFg (s : State) (x : Bool) : (s.withAtomicFg x).cfg.atomicFg = x := rfl
@[simp] theorem State.withAtomicFg_hasTick (s : State) (x : Bool) :
    (s.withAtomicFg x).cfg.hasTick = s.cfg.hasTick := rfl
@[simp] theorem State.withAtomicFg_sendPath (s : State) (x : Bool) : (s.withAtomicFg x).sendPath = s.sendPath := rfl

theorem State.withAtomicFg_withAtomicFg (s : State) (x y : Bool) :
    (s.withAtomicFg x).withAtomicFg y = s.withAtomicFg y := rfl

theorem State.withAtomicFg_self {s : State} {x : Bool} (h : s.cfg.atomicFg = x) : s.withAtomicFg x = s := by
  subst h; rfl

/-- The operations that are never split do not look at `ATOMIC_FG`. -/
theorem exec_withAtomicFg_of_unsplit {i : Instr} {s t : State} (htake : i ≠ .take) (hsend : ∀ b, i ≠ .send b)
    (h : exec i s = .next t) (x : Bool) : exec i (s.withAtomicFg x) = .next (t.withAtomicFg x) := by
  cases i with
  | idle => cases h; rfl
  | rxi b =>
    rcases execRxi_next h with ⟨hrej, rfl⟩ | ⟨hacc, rfl⟩
    · exact exec_rxi_of_rejected (s := s.withAtomicFg x) hrej b
    · exact exec_rxi_of_accepted (s := s.withAtomicFg x) hacc b
  | take => exact absurd rfl htake
  | send b => exact absurd rfl (hsend b)
  | txc =>
    rcases execTxc_next h with ⟨he, rfl⟩ | ⟨he, rfl⟩
    · exact exec_txc_of_empty (s := s.withAtomicFg x) he
    · exact exec_txc_of_not_empty (s := s.withAtomicFg x) he
  | tick => obtain ⟨hc, rfl⟩ := execTick_next h; exact exec_tick_of_hasTick (s := s.withAtomicFg x) hc
  | elapsed => obtain ⟨hc, rfl⟩ := execElapsed_next h; exact exec_elapsed_of_hasTick (s := s.withAtomicFg x) hc
  | loadcd v => obtain ⟨hc, rfl⟩ := execLoadcd_next h; exact exec_loadcd_of_hasTick (s := s.withAtomicFg x) hc v

theorem exec_take_of_runsWhole {s : State} (hw : s.runsWhole = true) : exec .take s = takeAtomic s :=
  if_pos hw

theorem exec_send_of_runsWhole {s : State} (hw : s.runsWhole = true) (b : Byte) : exec (.send b) s = sendAtomic b s :=
  if_pos hw

/-- An operation performed whole does what it does with `ATOMIC_FG = true`. -/
theorem exec_withAtomicFg_of_runsWhole {i : Instr} {s t : State} (hw : s.runsWhole = true) (h : exec i s = .next t) :
    exec i (s.withAtomicFg true) = .next (t.withAtomicFg true) := by
  cases i with
  | take =>
    rw [exec_take_of_runsWhole hw] at h
    rcases takeAtomic_next h with ⟨he, rfl⟩ | ⟨he, rfl⟩
    · exact exec_take_of_empty (s := s.withAtomicFg true) rfl he
    · exact exec_take_of_not_empty (s := s.withAtomicFg true) rfl he
  | send b =>
    rw [exec_send_of_runsWhole hw] at h
    rcases sendAtomic_next h with ⟨hp, rfl⟩ | ⟨hp, rfl⟩ | ⟨hp, rfl⟩
    · exact exec_send_of_fast (s := s.withAtomicFg true) rfl hp b
    · exact exec_send_of_drop (s := s.withAtomicFg true) rfl hp b
    · exact exec_send_of_buffered (s := s.withAtomicFg true) rfl hp b
  | _ => exact exec_withAtomicFg_of_unsplit (by simp) (by simp) h true

theorem finish_of_not_mid {s : State} (hmid : s.midOperation = false) (k : Nat) : finish k s = .next s := by
  cases k with
  | zero => rfl
  | succ k => exact if_neg (by simp [hmid])

theorem finish_of_micro {k : Nat} {s t : State} (hmid : s.midOperation = true) (h : microOf s = .next t) :
    finish (k + 1) s = finish k t := by
  simp [finish, hmid, h]

theorem State.midOperation_of_split {s : State} (ha : s.cfg.atomicFg = false) (hfg : s.fg ≠ .idle) :
    s.midOperation = true := by
  simp [State.midOperation, ha, hfg]

/-- An operation that the foreground starts, and its micro-steps with nothing in between. -/
theorem execWhole_of_split {i : Instr} {s t : State} (hi : s.fg = .idle) (h : exec i s = .next t) :
    execWhole i s = finish 2 t := by
  simp [execWhole, h, State.not_midOperation_of_idle hi]

/-- `TAKE.b` and `TAKE.c`. -/
theorem finish_of_takeB {s : State} {h : Nat} (ha : s.cfg.atomicFg = false) (hf : s.fg = .takeB h s.rx.tail) :
    finish 2 s = .next { s with rx := s.rx.advance, fg := .idle, outs := [.answer (.byte s.rx.front)] } := by
  have hlast := microOf_of_takeC (s := { s with fg := .takeC h s.rx.tail s.rx.front, outs := [Output.quiet] }) rfl
    s.rx.tailPast_tail
  calc finish 2 s = finish 1 { s with fg := .takeC h s.rx.tail s.rx.front, outs := [.quiet] } :=
        finish_of_micro (State.midOperation_of_split ha (by simp [hf])) (microOf_of_takeB hf s.rx.tail_lt)
    _ = _ := finish_of_micro (State.midOperation_of_split ha (by simp)) hlast

/-- `SEND.f`. -/
theorem finish_of_fast {s : State} {b : Byte} {h t : Nat} {q : Bool} (ha : s.cfg.atomicFg = false)
    (hf : s.fg = .sendPath b h t q .fast) :
    finish 2 s = .next { s with txBusy := true, fg := .idle, outs := [.write b] } :=
  (finish_of_micro (State.midOperation_of_split ha (by simp [hf])) (microOf_of_fast hf)).trans
    (finish_of_not_mid (State.not_midOperation_of_idle rfl) 1)

/-- `SEND.d`. -/
theorem finish_of_drop {s : State} {b : Byte} {h t : Nat} {q : Bool} (ha : s.cfg.atomicFg = false)
    (hf : s.fg = .sendPath b h t q .drop) :
    finish 2 s = .next { s with txDropCnt := satInc s.txDropCnt, fg := .idle, outs := [.quiet] } :=
  (finish_of_micro (State.midOperation_of_split ha (by simp [hf])) (microOf_of_drop hf)).trans
    (finish_of_not_mid (State.not_midOperation_of_idle rfl) 1)

/-- `SEND.b` and `SEND.c`. -/
theorem finish_of_buffered {s : State} {b : Byte} {t : Nat} {q : Bool} (ha : s.cfg.atomicFg = false)
    (hf : s.fg = .sendPath b s.tx.head t q .buffered) :
    finish 2 s = .next { s with tx := s.tx.store b, fg := .idle, outs := [.quiet] } := by
  have hlast := microOf_of_sendC
    (s := { s with tx := s.tx.withSlot s.tx.head b, fg := .sendC b s.tx.head t q, outs := [Output.quiet] }) rfl
    (s.tx.headPast_withSlot_head b)
  calc finish 2 s =
      finish 1 { s with tx := s.tx.withSlot s.tx.head b, fg := .sendC b s.tx.head t q, outs := [.quiet] } :=
        finish_of_micro (State.midOperation_of_split ha (by simp [hf])) (microOf_of_buffered hf s.tx.head_lt)
    _ = _ := finish_of_micro (State.midOperation_of_split ha (by simp)) hlast

/-- A `TAKE` with its micro-steps. -/
theorem execWhole_take_eq_atomic {s t : State} (ha : s.cfg.atomicFg = false) (hi : s.fg = .idle)
    (h : takeAtomic s = .next t) : execWhole .take s = .next t := by
  rcases takeAtomic_next h with ⟨he, rfl⟩ | ⟨he, rfl⟩
  · exact (execWhole_of_split hi (exec_take_of_split_of_empty ha hi he)).trans
      (finish_of_not_mid (State.not_midOperation_of_idle (by exact hi)) 2)
  · rw [execWhole_of_split hi (exec_take_of_split_of_not_empty ha hi he), finish_of_takeB (by exact ha) rfl, ← hi]

/-- A `SEND` with its micro-steps. -/
theorem execWhole_send_eq_atomic {b : Byte} {s t : State} (ha : s.cfg.atomicFg = false) (hi : s.fg = .idle)
    (h : sendAtomic b s = .next t) : execWhole (.send b) s = .next t := by
  rw [execWhole_of_split hi (exec_send_of_split ha hi b)]
  rcases sendAtomic_next h with ⟨hp, rfl⟩ | ⟨hp, rfl⟩ | ⟨hp, rfl⟩ <;> rw [hp]
  · rw [finish_of_fast (by exact ha) rfl, ← hi]
  · rw [finish_of_drop (by exact ha) rfl, ← hi]
  · rw [finish_of_buffered (by exact ha) rfl, ← hi]

/-- Uninterrupted, the micro-steps of an operation end in the state of the atomic operation. -/
theorem execWhole_eq_atomic {i : Instr} {s t : State} (ha : s.cfg.atomicFg = false) (hi : s.fg = .idle)
    (h : exec i (s.withAtomicFg true) = .next t) : execWhole i s = .next (t.withAtomicFg false) := by
  have hself := State.withAtomicFg_self ha
  by_cases htake : i = .take
  · subst htake
    refine execWhole_take_eq_atomic ha hi ?_
    rw [exec_take_of_atomic (s := s.withAtomicFg true) rfl] at h
    rw [← hself]
    rcases takeAtomic_next h with ⟨he, rfl⟩ | ⟨he, rfl⟩
    · exact if_pos he
    · exact if_neg (Bool.eq_false_iff.1 he)
  · by_cases hsend : ∃ b, i = .send b
    · obtain ⟨b, rfl⟩ := hsend
      refine execWhole_send_eq_atomic ha hi ?_
      rw [exec_send_of_atomic (s := s.withAtomicFg true) rfl] at h
      rw [← hself]
      rcases sendAtomic_next h with ⟨hp, rfl⟩ | ⟨hp, rfl⟩ | ⟨hp, rfl⟩
      · exact sendAtomic_of_fast hp
      · exact sendAtomic_of_drop hp
      · exact sendAtomic_of_buffered hp
    · have hu := exec_withAtomicFg_of_unsplit htake (not_exists.1 hsend) h false
      rw [State.withAtomicFg_withAtomicFg, hself] at hu
      have hfg : t.fg = .idle := (exec_keeps_fg (State.runsWhole_of_atomic rfl) h).trans hi
      exact (execWhole_of_split hi hu).trans (finish_of_not_mid (State.not_midOperation_of_idle (by exact hfg)) 2)

/-- With `ATOMIC_FG = true` a whole operation is the operation. -/
theorem exec_of_execWhole_of_atomic {i : Instr} {s t : State} (ha : s.cfg.atomicFg = true) (h : execWhole i s = .next t) :
    exec i s = .next t := by
  rcases execWhole_next h with ⟨_, h⟩ | ⟨_, u, hu, h⟩
  · exact h
  · rw [finish_of_not_mid (State.not_midOperation_of_atomic (by rw [(exec_keeps_outside hu).1]; exact ha))] at h
    exact hu.trans h

/-- The events of a port step, the same. -/
theorem runInStep_eq_atomic {is : List Instr} {os : List Output} {s t : State} (ha : s.cfg.atomicFg = false)
    (hi : s.fg = .idle) (h : runInStep is os (s.withAtomicFg true) = .next t) :
    runInStep is os s = .next (t.withAtomicFg false) := by
  induction is generalizing s os with
  | nil =>
    cases h
    rw [runInStep, ← State.withAtomicFg_self ha]
    rfl
  | cons i is ih =>
    obtain ⟨u, hu, h⟩ := runInStep_cons_next h
    have hexec := exec_of_execWhole_of_atomic rfl hu
    have hfg : u.fg = .idle := (exec_keeps_fg (State.runsWhole_of_atomic rfl) hexec).trans hi
    have hcfg : u.cfg.atomicFg = true := by rw [(exec_keeps_outside hexec).1]; rfl
    have hrest := ih (s := u.withAtomicFg false) rfl hfg (by
      rwa [State.withAtomicFg_withAtomicFg, State.withAtomicFg_self hcfg])
    rw [runInStep, execWhole_eq_atomic ha hi hexec]
    exact hrest

theorem portStep_eq_atomic {p : PortIn} {s t : State} (ha : s.cfg.atomicFg = false) (hi : s.fg = .idle)
    (h : portStep p (s.withAtomicFg true) = .next t) : portStep p s = .next (t.withAtomicFg false) := by
  rcases portStep_next h with ⟨hrst, h⟩ | ⟨hrst, h⟩
  · cases h
    rw [portStep, if_pos hrst, execReset, ← State.withAtomicFg_self ha]
    rfl
  · rw [portStep, if_neg (by simp [hrst])]
    exact runInStep_eq_atomic ha hi h

/-- The configuration that `t` comes back to. -/
theorem State.withAtomicFg_false_eq {s t : State} (ha : s.cfg.atomicFg = false)
    (hcfg : t.cfg = (s.withAtomicFg true).cfg) : t.withAtomicFg false = { t with cfg := s.cfg } := by
  rw [State.withAtomicFg, hcfg, ← State.withAtomicFg_self ha]
  rfl

end Sys2Proof.Machine
end
section
/-! SUPPORT. A micro-step always goes through where the invariant holds, and a handler's `SEND` in the middle of a buffered
one (60_exceptions.md R193). -/

namespace Sys2Proof.Machine

/-- The temporaries that the invariant allows are slot numbers, so the micro-step answers a next state. -/
theorem microOf_completes {s : State} (h : s.temporariesOk = true) : ∃ t, microOf s = .next t := by
  cases hf : s.fg with
  | idle => exact ⟨_, by rw [microOf, hf]; rfl⟩
  | takeB i t =>
    simp only [State.temporariesOk, hf, Bool.and_eq_true, decide_eq_true_iff] at h
    exact ⟨_, microOf_of_takeB hf h.2⟩
  | takeC i t d =>
    simp only [State.temporariesOk, hf, Bool.and_eq_true, decide_eq_true_iff] at h
    obtain ⟨r, hr⟩ := RingBuf.tailPast_of_lt h.2
    exact ⟨_, microOf_of_takeC hf hr⟩
  | sendPath b i t q p =>
    simp only [State.temporariesOk, hf, Bool.and_eq_true, decide_eq_true_iff] at h
    cases p with
    | fast => exact ⟨_, microOf_of_fast hf⟩
    | drop => exact ⟨_, microOf_of_drop hf⟩
    | buffered => exact ⟨_, microOf_of_buffered hf h.1.1⟩
  | sendC b i t q =>
    simp only [State.temporariesOk, hf, Bool.and_eq_true, decide_eq_true_iff] at h
    exact ⟨_, microOf_of_sendC hf (RingBuf.headPast_of_lt h.1)⟩

theorem execHost_of_midOperation {s t : State} (hmid : s.midOperation = true) (h : microOf s = .next t) :
    execHost s = .next t.hostHears := by
  simp [execHost, execMicro, hmid, h]

/-- A handler's `SEND` before `SEND.b`: its byte goes to the slot that `SEND.b` then overwrites, and `tx_head` advances
once. -/
theorem handler_send_is_overwritten {s : State} {b c : Byte} {t : Nat} {q : Bool} (hmid : s.midOperation = true)
    (hf : s.fg = .sendPath b s.tx.head t q .buffered) (hp : s.sendPath = .buffered)
    (hw : Memory.wf s.tx.cap s.tx.buf = true) :
    ∃ u v w, exec (.send c) s = .next u ∧ u.tx.slot s.tx.head = some c ∧ u.tx.head = inc s.tx.cap s.tx.head ∧
      microOf u = .next v ∧ v.tx.slot s.tx.head = some b ∧ microOf v = .next w ∧ w.tx.slot s.tx.head = some b ∧
      w.tx.head = u.tx.head ∧ w.fg = .idle := by
  have hlt := s.tx.head_lt
  have hu : exec (.send c) s = .next { s with tx := s.tx.store c, outs := [.quiet] } :=
    (exec_send_of_runsWhole (State.runsWhole_of_midOperation hmid) c).trans (sendAtomic_of_buffered hp)
  have hslot : ((s.tx.store c).withSlot s.tx.head b).slot s.tx.head = some b := by
    rw [RingBuf.withSlot_slot (RingBuf.store_wf hw c) (by exact hlt), if_pos rfl]
  refine ⟨_, _, _, hu, ?_, rfl, microOf_of_buffered hf hlt, hslot,
    microOf_of_sendC rfl (RingBuf.headPast_of_lt (by exact hlt)), hslot, rfl, rfl⟩
  rw [RingBuf.store_slot hw, if_pos rfl]

end Sys2Proof.Machine
end

section
/-! SUPPORT. What interrupt operations do to the receive ring between the micro-steps of a `TAKE`
(70_reset_and_hazards.md R233). -/

namespace Sys2Proof.Machine

/-- An interrupt operation stores the byte it gives to `RXI`, rejects it on a full ring under `DROP_NEWEST`, or leaves the
receive ring. -/
theorem exec_irq_rx_cases {i : Instr} {s t : State} (hi : i.context = .irq) (h : exec i s = .next t) :
    (t.rx = s.rx ∧ (rxiBytes [.op i] = [] ∨ (s.cfg.ovfRx = .dropNewest ∧ s.rx.isFull = true))) ∨
    ∃ b, rxiBytes [.op i] = [b] ∧ t.rx = s.rx.store b ∧ ¬(s.cfg.ovfRx = .dropNewest ∧ s.rx.isFull = true) := by
  by_cases hp : partOf i = .rx
  · rcases eq_rxi_or_take_of_rx hp with ⟨b, rfl⟩ | rfl
    · rcases execRxi_next h with ⟨hrej, rfl⟩ | ⟨hacc, rfl⟩
      · exact .inl ⟨rfl, .inr hrej⟩
      · exact .inr ⟨b, rfl, rfl, hacc⟩
    · cases hi
  · refine .inl ⟨(exec_keeps_rx hp h).1, .inl ?_⟩
    cases i with
    | rxi b => exact absurd rfl hp
    | _ => rfl

theorem rxiBytes_cons (e : Event) (es : List Event) : rxiBytes (e :: es) = rxiBytes [e] ++ rxiBytes es := by
  rw [← List.singleton_append, rxiBytes, List.filterMap_append]
  rfl

theorem rxiBytes_append (es es' : List Event) : rxiBytes (es ++ es') = rxiBytes es ++ rxiBytes es' :=
  List.filterMap_append

/-- Interrupt operations that do not overflow the ring leave the byte that is the oldest one. -/
theorem irq_run_keeps_oldest {is : List Instr} {s u : State} {os : List Output} {x : Byte}
    (hirq : ∀ i ∈ is, i.context = .irq) (hw : Memory.wf s.rx.cap s.rx.buf = true)
    (hroom : s.cfg.ovfRx = .dropNewest ∨ s.rx.count + (rxiBytes (is.map .op)).length ≤ s.rx.cap - 1)
    (hx : s.rx.pending.head? = some x) (h : runEvents (is.map .op) s = some (u, os)) : u.rx.pending.head? = some x := by
  induction is generalizing s os with
  | nil => cases h; exact hx
  | cons i is ih =>
    obtain ⟨t, os', ht, hrun, -⟩ := runEvents_cons h
    obtain ⟨hi, his⟩ := List.forall_mem_cons.1 hirq
    rw [List.map_cons, rxiBytes_cons, List.length_append] at hroom
    have hcfg := execEvent_keeps_cfg ht
    rcases exec_irq_rx_cases hi ht with ⟨hrx, _⟩ | ⟨b, hb, hrx, hacc⟩
    · refine ih his (by rwa [hrx]) ?_ (by rwa [hrx]) hrun
      rw [hcfg, hrx]
      exact hroom.imp_right (by omega)
    · rw [hb, List.length_singleton] at hroom
      have hnotFull : s.rx.isFull = false := by
        rw [← Bool.not_eq_true]
        intro hfull
        rcases hroom with hdrop | hroom
        · exact hacc ⟨hdrop, hfull⟩
        · have := s.rx.two_le_cap
          have := s.rx.isFull_iff_count.1 hfull
          omega
      refine ih his ?_ ?_ ?_ hrun
      · rw [hrx]; exact RingBuf.store_wf hw b
      · rw [hcfg, hrx, RingBuf.count_store hnotFull, RingBuf.store_cap]
        exact hroom.imp_right (by omega)
      · rw [hrx, RingBuf.pending_store hw hnotFull, List.head?_append, hx]
        rfl

/-- Under `WRAP` interrupt operations store all the bytes given to `RXI`, whatever else the state holds. -/
theorem irq_run_rx_of_wrap {is : List Instr} {s u : State} {os : List Output} (hirq : ∀ i ∈ is, i.context = .irq)
    (hwrap : s.cfg.ovfRx = .wrap) (h : runEvents (is.map .op) s = some (u, os)) :
    u.rx = (rxiBytes (is.map .op)).foldl RingBuf.store s.rx := by
  induction is generalizing s os with
  | nil => cases h; rfl
  | cons i is ih =>
    obtain ⟨t, os', ht, hrun, -⟩ := runEvents_cons h
    obtain ⟨hi, his⟩ := List.forall_mem_cons.1 hirq
    rw [List.map_cons, rxiBytes_cons, List.foldl_append, ih his (by rw [execEvent_keeps_cfg ht]; exact hwrap) hrun]
    congr 1
    rcases exec_irq_rx_cases hi ht with ⟨hrx, hnone | hrej⟩ | ⟨b, hb, hrx, _⟩
    · rw [hrx, hnone]; rfl
    · cases hwrap.symm.trans hrej.1
    · rw [hrx, hb]; rfl

/-- Stores and the tail's advance are to different registers. -/
theorem RingBuf.foldl_store_advance (bs : List Byte) (r : RingBuf) :
    (bs.foldl RingBuf.store r).advance = bs.foldl RingBuf.store r.advance := by
  induction bs generalizing r with
  | nil => rfl
  | cons b bs ih => exact ih (r.store b)

/-- An operation that answers a next state exists. -/
theorem wellFormed_of_exec {i : Instr} {s t : State} (h : exec i s = .next t) : i.wellFormed s.cfg.hasTick = true := by
  cases i with
  | tick => simp [Instr.wellFormed, (execTick_next h).1]
  | elapsed => simp [Instr.wellFormed, (execElapsed_next h).1]
  | loadcd v => simp [Instr.wellFormed, (execLoadcd_next h).1]
  | _ => simp [Instr.wellFormed, Instr.ofCountdown]

theorem wellFormed_of_run {is : List Instr} {s u : State} {os : List Output}
    (h : runEvents (is.map .op) s = some (u, os)) : ∀ i ∈ is, i.wellFormed s.cfg.hasTick = true := by
  induction is generalizing s os with
  | nil => exact List.forall_mem_nil _
  | cons i is ih =>
    obtain ⟨t, os', ht, hrun, -⟩ := runEvents_cons h
    refine List.forall_mem_cons.2 ⟨wellFormed_of_exec ht, ?_⟩
    rw [← execEvent_keeps_cfg ht]
    exact ih hrun

/-- Operations that exist run through from every state. -/
theorem runEvents_completes {is : List Instr} {s : State} (hwf : ∀ i ∈ is, i.wellFormed s.cfg.hasTick = true) :
    ∃ u os, runEvents (is.map .op) s = some (u, os) := by
  induction is generalizing s with
  | nil => exact ⟨s, [], rfl⟩
  | cons i is ih =>
    obtain ⟨hi, his⟩ := List.forall_mem_cons.1 hwf
    obtain ⟨t, ht⟩ := exec_completes hi
    obtain ⟨u, os, hrun⟩ := ih (s := t) (by rwa [(exec_keeps_outside ht).1])
    exact ⟨u, _, runEvents_cons_of_next (e := .op i) ht hrun⟩

/-- A ring whose oldest pending byte is `x` has it at the tail. -/
theorem RingBuf.front_of_head? {r : RingBuf} {x : Byte} (h : r.pending.head? = some x) : r.front = x := by
  cases he : r.isEmpty with
  | true => rw [RingBuf.pending_of_empty he] at h; cases h
  | false => rw [RingBuf.pending_advance he] at h; exact Option.some.inj h

/-- The split `TAKE` from `TAKE.a` to before `TAKE.c`: it holds the byte that was the oldest one, and the ring is what the
interrupt operations made of it. -/
theorem split_take_holds_oldest {s a b c d : State} {is js : List Instr} {os os' : List Output} {x : Byte}
    (ha : s.cfg.atomicFg = false) (hi : s.fg = .idle) (hw : Memory.wf s.rx.cap s.rx.buf = true)
    (he : s.rx.isEmpty = false) (his : ∀ i ∈ is, i.context = .irq) (hjs : ∀ i ∈ js, i.context = .irq)
    (hroom : s.cfg.ovfRx = .dropNewest ∨ s.rx.count + (rxiBytes (is.map .op)).length ≤ s.rx.cap - 1)
    (hx : s.rx.pending.head? = some x) (htakeA : exec .take s = .next a)
    (hgap : runEvents (is.map .op) a = some (b, os)) (htakeB : microOf b = .next c)
    (hgap' : runEvents (js.map .op) c = some (d, os')) :
    d.fg = .takeC s.rx.head d.rx.tail x ∧ c.rx = b.rx ∧ a.rx = s.rx ∧ a.cfg = s.cfg ∧ c.cfg = s.cfg := by
  cases htakeA.symm.trans (exec_take_of_split_of_not_empty ha hi he)
  obtain ⟨hfgB, htailB⟩ := runEvents_irq_keeps his hgap
  have hlt : s.rx.tail < b.rx.cap := htailB ▸ b.rx.tail_lt
  have hbcfg : b.cfg = s.cfg := (runEvents_keeps_cfg hgap :)
  have hfront := RingBuf.front_of_head? (irq_run_keeps_oldest his (by exact hw) (by exact hroom) (by exact hx) hgap)
  rw [RingBuf.front, htailB] at hfront
  cases htakeB.symm.trans (microOf_of_takeB hfgB hlt)
  obtain ⟨hfgD, htailD⟩ := runEvents_irq_keeps hjs hgap'
  refine ⟨?_, rfl, rfl, rfl, hbcfg⟩
  rw [hfgD, htailD, htailB, ← hfront]

end Sys2Proof.Machine
end

section
/-! The obligations on the split-phase variant (70_reset_and_hazards.md section 4, 60_exceptions.md R193). -/

namespace Sys2Proof.Machine

/-- Settles O53: one equation per micro-step. -/
theorem microStepsOfSend : Obligations.MicroStepsOfSend := by
  refine ⟨fun b s ha hi => ?_, fun s b h t q => ⟨microOf_of_fast, microOf_of_drop, fun hf hh hw => ?_, fun hf hh => ?_⟩⟩
  · have hfast : s.sendPath = .fast ↔ s.tx.head = s.tx.tail ∧ s.txBusy = false := by
      rw [State.sendPath_fast, RingBuf.isEmpty_iff]
    refine ⟨s.sendPath, exec_send_of_split ha hi b, hfast, fun hp => ⟨?_, State.sendPath_drop.1 hp⟩,
      fun hp => State.sendPath_drop.2 hp.2⟩
    rw [← hfast, hp]
    decide
  · refine ⟨_, microOf_of_buffered hf hh, rfl, rfl, rfl, ?_, fun a hne => ?_⟩
    · rw [RingBuf.withSlot_slot hw hh, if_pos rfl]
    · rw [RingBuf.withSlot_slot hw hh, if_neg hne]
  · exact ⟨_, microOf_of_sendC hf (RingBuf.headPast_of_lt hh), rfl, rfl, rfl, rfl⟩

/-- Settles O54: in the middle of a split operation every other one is performed whole, as with `ATOMIC_FG = true`. -/
theorem operationsOfAnotherContextDoTheirRules : Obligations.OperationsOfAnotherContextDoTheirRules := by
  intro s hmid
  have hw : s.runsWhole = true := State.runsWhole_of_midOperation hmid
  refine ⟨fun i hi => ?_, fun p hrst => portStep_of_runsWhole hrst hw, fun b c h t q hf hh hp hwf => ?_, fun hinv => ?_⟩
  · obtain ⟨t, ht⟩ := exec_completes hi
    have hatomic := exec_withAtomicFg_of_runsWhole hw ht
    rw [State.withAtomicFg, State.withAtomicFg, (exec_keeps_outside ht).1] at hatomic
    exact ⟨t, ht, exec_keeps_fg hw ht, hatomic⟩
  · subst hh
    exact handler_send_is_overwritten hmid hf hp hwf
  · obtain ⟨t, ht⟩ := microOf_completes hinv.temporaries
    exact ⟨t, ht, execHost_of_midOperation hmid ht⟩

/-- Settles O55: operation by operation, and so event by event of a port step. -/
theorem uninterruptedMicroStepsAreTheAtomicOperation : Obligations.UninterruptedMicroStepsAreTheAtomicOperation := by
  refine ⟨fun i s t ha hi h => ?_, fun p s t ha hi h => ?_⟩
  · rw [execWhole_eq_atomic ha hi h, State.withAtomicFg_false_eq ha (exec_keeps_outside h).1]
  · have hcfg : t.cfg = (s.withAtomicFg true).cfg := by
      rcases portStep_next h with ⟨_, h⟩ | ⟨_, h⟩
      · cases h; rfl
      · exact ((State.hasParameters_kept _ _ _).runInStep ⟨rfl, rfl, rfl⟩ h).1
    rw [portStep_eq_atomic ha hi h, State.withAtomicFg_false_eq ha hcfg]

/-- Settles O56: the oldest byte is safe from the interrupts' stores, and those do not see whether the tail has advanced. -/
theorem splitTakeIsLinearisable : Obligations.SplitTakeIsLinearisable := by
  intro s a b is js c d os os' ha hi hw he hirq hroom htakeA hgap htakeB hgap'
  obtain ⟨his, hjs⟩ := List.forall_mem_append.1 hirq
  have hroom' : s.cfg.ovfRx = .dropNewest ∨ s.rx.count + (rxiBytes (is.map .op)).length ≤ s.rx.cap - 1 := by
    rw [List.map_append, rxiBytes_append, List.length_append] at hroom
    exact hroom.imp_right (by omega)
  have hpend := RingBuf.pending_advance he
  obtain ⟨hfg, hcb, has, hacfg, hccfg⟩ :=
    split_take_holds_oldest ha hi hw he his hjs hroom' (by rw [hpend]; rfl) htakeA hgap htakeB hgap'
  refine ⟨_, _, _, hpend, microOf_of_takeC hfg d.rx.tailPast_tail, rfl, rfl, fun hwrap => ?_⟩
  have hwf : ∀ i ∈ is ++ js, i.wellFormed s.cfg.hasTick = true :=
    List.forall_mem_append.2 ⟨hacfg ▸ wellFormed_of_run hgap, hccfg ▸ wellFormed_of_run hgap'⟩
  obtain ⟨v, us, hrun⟩ := runEvents_completes
    (s := { s with rx := s.rx.advance, outs := [.answer (.byte s.rx.front)] }) hwf
  refine ⟨_, v, us, if_neg (Bool.eq_false_iff.1 he), hrun, ?_⟩
  calc d.rx.advance
      = ((rxiBytes (js.map .op)).foldl RingBuf.store ((rxiBytes (is.map .op)).foldl RingBuf.store s.rx)).advance := by
        rw [irq_run_rx_of_wrap hjs (hccfg ▸ hwrap) hgap', hcb, irq_run_rx_of_wrap his (hacfg ▸ hwrap) hgap, has]
    _ = (rxiBytes ((is ++ js).map .op)).foldl RingBuf.store s.rx.advance := by
        rw [← List.foldl_append, ← rxiBytes_append, ← List.map_append, RingBuf.foldl_store_advance]
    _ = v.rx := (irq_run_rx_of_wrap hirq (by exact hwrap) hrun).symm

/-- Settles O57: the `TXC` advances the tail, which no micro-step of `SEND` reads or writes, and leaves the path busy. -/
theorem splitSendAroundAHandOver : Obligations.SplitSendAroundAHandOver := by
  intro b s ha hi hbusy he hp
  have hu := exec_txc_of_not_empty he
  have hpath : State.sendPath { s with tx := s.tx.advance, txBusy := true, outs := [.write s.tx.front] } = .buffered :=
    State.sendPath_buffered_of_busy rfl (RingBuf.advance_not_full he)
  have hstart := exec_send_of_split ha hi b
  rw [hp] at hstart
  refine ⟨_, _, hu, sendAtomic_of_buffered hpath, ⟨_, _, _, _, hstart, exec_txc_of_not_empty (by exact he),
    microOf_of_buffered rfl s.tx.head_lt, microOf_of_sendC rfl (s.tx.advance.headPast_withSlot_head b), rfl, ?_⟩,
    ⟨_, _, _, _, hstart, microOf_of_buffered rfl s.tx.head_lt, exec_txc_of_not_empty (by exact he),
      microOf_of_sendC rfl (s.tx.advance.headPast_withSlot_head b), ?_, ?_⟩⟩
  · rw [← hi]
  · have hne : s.tx.tail ≠ s.tx.head := ((RingBuf.isEmpty_eq_false _).1 he).symm
    exact congrArg (fun x => [Output.write x]) (RingBuf.withSlot_front hne b)
  · rw [← hi]

/-- Settles O58: the `TXC` finds the ring empty and goes idle, and the saved path buffers the byte all the same. -/
theorem strandingRace : Obligations.StrandingRace := by
  intro b s ha hi hbusy he hw
  have hp : s.sendPath = .buffered := State.sendPath_buffered_of_busy hbusy (RingBuf.not_full_of_empty he)
  have hstart := exec_send_of_split ha hi b
  rw [hp] at hstart
  have hstranded : (s.tx.store b).isEmpty = false := RingBuf.store_not_empty (RingBuf.not_full_of_empty he) b
  obtain ⟨-, hfront, -⟩ := RingBuf.front_of_pending_singleton (RingBuf.pending_store_of_empty hw he b)
  refine ⟨⟨_, _, _, _, hstart, exec_txc_of_empty (by exact he), microOf_of_buffered rfl s.tx.head_lt,
    microOf_of_sendC rfl (s.tx.headPast_withSlot_head b), rfl, hstranded, rfl, by simp [writtenOf, Output.quiet], ?_⟩,
    ⟨_, _, sendAtomic_of_buffered hp, exec_txc_of_not_empty hstranded, ?_⟩,
    ⟨_, _, exec_txc_of_empty he, sendAtomic_of_fast (State.sendPath_fast.2 ⟨he, rfl⟩), rfl⟩⟩
  · intro hfast
    cases hstranded.symm.trans (State.sendPath_fast.1 hfast).1
  · exact congrArg (fun x => [Output.write x]) hfront

end Sys2Proof.Machine
end

section
/-! SUPPORT. When the reference host goes on (44_host_loop.md R166): with the end of the event it issued, and not before. -/

namespace Sys2Proof.Machine

/-- The phase changes exactly with the last event of R167 or R168. -/
theorem HostLoop.phase_after (c : Config) (r : Resp) (h : HostLoop) :
    (h.after c r).phase ≠ h.phase ↔
      (h.pos = .take ∧ r = .empty) ∨ ((∃ b, h.pos = .echo b) ∧ c.drain = .onePerPass) ∨
        (h.pos = .elapsed ∧ r ≠ .flag true) ∨ h.pos = .lineEnd := by
  obtain ⟨pos, status, issued⟩ := h
  cases pos with
  | take => cases r <;> simp [HostLoop.after, HostPos.after, HostPos.afterTake, HostLoop.phase, HostPos.phase]
  | echo b =>
    by_cases hd : c.drain = .onePerPass <;> simp [HostLoop.after, HostPos.after, HostLoop.phase, HostPos.phase, hd]
  | elapsed =>
    by_cases hr : r = .flag true <;> simp [HostLoop.after, HostPos.after, HostLoop.phase, HostPos.phase, hr]
  | reload => simp [HostLoop.after, HostPos.after, HostLoop.phase, HostPos.phase]
  | mark => simp [HostLoop.after, HostPos.after, HostLoop.phase, HostPos.phase]
  | lineEnd => simp [HostLoop.after, HostPos.after, HostLoop.phase, HostPos.phase]

@[simp] theorem State.hostHears_lastResp (s : State) : s.hostHears.lastResp = s.lastResp := by
  simp [State.lastResp]

/-- A host whose event is not done yet. -/
theorem State.hostHears_host_of_mid {s : State} (h : s.midOperation = true) : s.hostHears.host = s.host := by
  rw [State.hostHears_of_midOperation h]

/-- A host whose event is done. -/
theorem State.hostHears_host_of_done {s : State} (hissued : s.host.issued = true) (h : s.midOperation = false) :
    s.hostHears.host = s.host.after s.cfg s.lastResp := by
  simp [State.hostHears_eq, hissued, h]

/-- The host after its step: the event that it issued, now or before, is in progress still or done. -/
theorem execHost_host {s t : State} (h : execHost s = .next t) (hown : s.midOperation = false ∨ s.host.issued = true) :
    (t.midOperation = true → t.host = { s.host with issued := true }) ∧
      (t.midOperation = false → t.host = s.host.after s.cfg t.lastResp) := by
  rcases execHost_next h with ⟨hmid, h⟩ | ⟨_, u, hu, rfl⟩
  · have hissued : s.host.issued = true := hown.resolve_left (by simp [hmid])
    rcases execMicro_next h with ⟨_, u, hu, rfl⟩ | ⟨hno, _⟩
    · obtain ⟨hcfg, _, _, hhost, _⟩ := microOf_keeps_outside hu
      rw [State.hostHears_midOperation, State.hostHears_lastResp]
      refine ⟨fun hm => ?_, fun hm => ?_⟩
      · rw [State.hostHears_host_of_mid hm, hhost, ← hissued]
      · rw [State.hostHears_host_of_done (by rw [hhost]; exact hissued) hm, hhost, hcfg]
    · cases hno.symm.trans hmid
  · obtain ⟨hcfg, hhost, _⟩ := exec_keeps_outside hu
    rw [State.hostHears_midOperation, State.hostHears_lastResp]
    refine ⟨fun hm => ?_, fun hm => ?_⟩
    · rw [State.hostHears_host_of_mid hm, State.hostIssues_host, hhost]
    · rw [State.hostHears_host_of_done rfl hm, State.hostIssues_host, State.hostIssues_cfg, hhost, hcfg]
      rfl

/-- Another's operation in progress is none of the host's. -/
theorem execHost_keeps_host_of_other {s t : State} (h : execHost s = .next t) (hmid : s.midOperation = true)
    (hissued : s.host.issued = false) : t.host = s.host := by
  rcases execHost_next h with ⟨_, h⟩ | ⟨hno, _⟩
  · rcases execMicro_next h with ⟨_, u, hu, rfl⟩ | ⟨hno, _⟩
    · obtain ⟨_, _, _, hhost, _⟩ := microOf_keeps_outside hu
      rw [State.hostHears_of_not_issued (by rw [hhost]; exact hissued), hhost]
    · cases hno.symm.trans hmid
  · cases hno.symm.trans hmid

end Sys2Proof.Machine
end

section
/-! SUPPORT. One pass of the reference host (44_host_loop.md R169) beside the pseudo-instruction `PASS` (30_encoding.md R84):
both run the same operations of the block, the host as events of its own and `PASS` as whole operations. -/

namespace Sys2Proof.Machine

/-- The host issues the events `is` from `s` on, with nothing in between, and is then at `t`. -/
def State.Issues (s : State) (is : List Instr) (t : State) : Prop := hostEvents is.length s = some (t, is)

theorem State.Issues.hostEvents_eq {s t : State} {is : List Instr} {k : Nat} (h : s.Issues is t) (hk : is.length = k) :
    hostEvents k s = some (t, is) := by
  rw [← hk]
  exact h

theorem hostEvents_succ {k : Nat} {s t : State} (h : execHost s = .next t) :
    hostEvents (k + 1) s = (hostEvents k t).map fun r =>
      (r.1, if s.midOperation then r.2 else s.host.pos.event s.cfg :: r.2) := by
  simp [hostEvents, h]

theorem hostEvents_add {m n : Nat} {s t u : State} {is js : List Instr} (h : hostEvents m s = some (t, is))
    (h' : hostEvents n t = some (u, js)) : hostEvents (m + n) s = some (u, is ++ js) := by
  induction m generalizing s t is with
  | zero => cases h; rwa [Nat.zero_add]
  | succ m ih =>
    cases hx : execHost s with
    | next v =>
      rw [hostEvents_succ hx] at h
      obtain ⟨⟨t', ks⟩, hv, heq⟩ := Option.map_eq_some_iff.1 h
      cases heq
      rw [Nat.succ_add, hostEvents_succ hx, ih hv h']
      by_cases hmid : s.midOperation = true <;> simp [hmid]
    | fault r => cases r
    | refused r => simp [hostEvents, hx] at h

theorem State.Issues.append {s t u : State} {is js : List Instr} (h : s.Issues is t) (h' : t.Issues js u) :
    s.Issues (is ++ js) u := by
  rw [State.Issues, List.length_append]
  exact hostEvents_add h h'

/-- The host's own fields do not matter to an operation. -/
theorem exec_with_host {i : Instr} {s t : State} (hw : s.runsWhole = true) (h : exec i s = .next t) (hl : HostLoop)
    (os : List Output) : exec i { s with host := hl, outs := os } = .next { t with host := hl } := by
  have hs := exec_of_agreesOn (s' := s) hw h rfl rfl (State.agreesOn_refl _ s)
  have hs' := exec_of_agreesOn (s' := { s with host := hl, outs := os }) hw h rfl rfl
    (by cases partOf i with
      | none => exact trivial
      | rx => exact ⟨rfl, rfl⟩
      | tx => exact ⟨rfl, rfl, rfl⟩
      | countdown => rfl)
  have ht := Host.Outcome.next.inj (h.symm.trans hs)
  refine hs'.trans (congrArg Host.Outcome.next ?_)
  conv => rhs; rw [ht]
  cases partOf i <;> rfl

/-- One event of the host at the place `pos` of its loop, with `ATOMIC_FG = true`. -/
theorem State.issues_one {s t : State} {pos : HostPos} {status : Bool} (ha : s.cfg.atomicFg = true)
    (h : exec (pos.event s.cfg) s = .next t) :
    State.Issues { s with host := ⟨pos, status, false⟩ } [pos.event s.cfg]
      { t with host := HostLoop.after s.cfg t.lastResp ⟨pos, status, false⟩ } := by
  have hx := exec_with_host (State.runsWhole_of_atomic ha) h ⟨pos, status, false⟩ s.outs
  have hh := execHost_of_atomic (s := { s with host := ⟨pos, status, false⟩ }) ha hx
  have hmid : State.midOperation { s with host := ⟨pos, status, false⟩ } = false :=
    State.not_midOperation_of_atomic ha
  simp only [State.Issues, List.length_singleton, hostEvents, hh, hmid]
  rfl

theorem thenWhole_of_atomic {i : Instr} {k : Output → State → Result State} {s t : State} (ha : s.cfg.atomicFg = true)
    (h : exec i s = .next t) : thenWhole i k s = k (t.outs.headD .quiet) t := by
  simp [thenWhole, execWhole_of_atomic ha h]

theorem wellFormed_send (hasTick : Bool) (b : Byte) : (Instr.send b).wellFormed hasTick = true := by
  simp [Instr.wellFormed, Instr.ofCountdown]

/-- `ECHO` and the host's first phase under `ONE_PER_PASS`. -/
theorem echo_phase {s : State} {status : Bool} (ha : s.cfg.atomicFg = true) (hd : s.cfg.drain = .onePerPass) :
    ∃ (echo : List Instr) (a : State) (os : List Output), (echo = [] ∨ ∃ b, echo = [.send b]) ∧
      State.Issues { s with host := ⟨.take, status, false⟩ } (.take :: echo)
        { a with host := ⟨.elapsed, status, false⟩ } ∧
      execEcho s = .next { a with outs := os } ∧ a.host = s.host ∧ a.cfg = s.cfg := by
  cases he : s.rx.isEmpty with
  | true =>
    have htake := exec_take_of_empty ha he
    refine ⟨[], _, [.answer .empty], .inl rfl, State.issues_one (pos := .take) ha htake, ?_, rfl, rfl⟩
    rw [execEcho, thenWhole_of_atomic ha htake]
    rfl
  | false =>
    have htake := exec_take_of_not_empty ha he
    obtain ⟨a, hsend⟩ := exec_completes (i := .send s.rx.front)
      (s := { s with rx := s.rx.advance, outs := [.answer (.byte s.rx.front)] }) (wellFormed_send _ _)
    obtain ⟨hcfg, hhost, _⟩ := exec_keeps_outside hsend
    have hfirst := State.issues_one (pos := .take) (status := status) ha htake
    have hsecond := State.issues_one (pos := .echo s.rx.front) (status := status) (by exact ha) hsend
    rw [HostLoop.after, HostPos.after_echo_of_onePerPass (by exact hd)] at hsecond
    refine ⟨[.send s.rx.front], a, [.answer (.byte s.rx.front), a.outs.headD .quiet], .inr ⟨_, rfl⟩,
      hfirst.append hsecond, ?_, hhost, hcfg⟩
    rw [execEcho, thenWhole_of_atomic ha htake]
    exact thenWhole_of_atomic (by exact ha) hsend

/-- `HEARTBEAT` and the host's two `SEND`s, from any record of outputs and with the host's own fields whatever they are. -/
theorem heartbeat_events {a : State} {status : Bool} (ha : a.cfg.atomicFg = true) :
    ∃ (c : State) (os : List Output),
      State.Issues { a with host := ⟨.mark, status, false⟩ } [.send heartbeatMark, .send heartbeatEnd]
        { c with host := ⟨.take, status, false⟩ } ∧
      ∀ hl, execHeartbeat { a with host := hl } = .next { c with host := hl, outs := os } := by
  obtain ⟨m, hmark⟩ := exec_completes (i := .send heartbeatMark) (s := a) (wellFormed_send _ _)
  have hm : m.cfg.atomicFg = true := by rw [(exec_keeps_outside hmark).1]; exact ha
  obtain ⟨c, hend⟩ := exec_completes (i := .send heartbeatEnd) (s := m) (wellFormed_send _ _)
  have hfirst := State.issues_one (pos := .mark) (status := status) ha hmark
  have hsecond := State.issues_one (pos := .lineEnd) (status := status) hm hend
  refine ⟨c, [m.outs.headD .quiet, c.outs.headD .quiet], hfirst.append hsecond, fun hl => ?_⟩
  have hmark' := exec_with_host (State.runsWhole_of_atomic ha) hmark hl a.outs
  have hend' := exec_with_host (State.runsWhole_of_atomic hm) hend hl m.outs
  rw [execHeartbeat, thenWhole_of_atomic (by exact ha) hmark', thenWhole_of_atomic (by exact hm) hend']

/-- `BEAT` and the host's second phase. -/
theorem beat_phase {a : State} {status : Bool} (ha : a.cfg.atomicFg = true) (hc : a.cfg.hasTick = true) :
    ∃ (beat : List Instr) (c : State) (os : List Output),
      (beat = [] ∨ beat = [.loadcd a.cfg.period, .send heartbeatMark, .send heartbeatEnd]) ∧
      State.Issues { a with host := ⟨.elapsed, status, false⟩ } (.elapsed :: beat)
        { c with host := ⟨.take, if beat = [] then status else !status, false⟩ } ∧
      ∀ os', execBeat { a with outs := os' } = .next { c with
        host := { a.host with status := if beat = [] then a.host.status else !a.host.status }, outs := os } := by
  have helapsed := exec_elapsed_of_hasTick hc
  have hfirst := State.issues_one (pos := .elapsed) (status := status) ha helapsed
  rw [HostLoop.after, HostPos.after_elapsed helapsed] at hfirst
  by_cases hz : a.countdown = 0
  · rw [if_pos hz] at hfirst
    have hload := exec_loadcd_of_hasTick
      (s := { a with outs := [.answer (.flag (a.countdown == 0))] }) (by exact hc) a.cfg.period
    have hsecond := State.issues_one (pos := .reload) (status := status) (by exact ha) hload
    obtain ⟨c, os, hbeat, hpseudo⟩ := heartbeat_events (status := !status)
      (a := { a with countdown := a.cfg.period, outs := [.quiet] }) ha
    have hreload : execReload { a with outs := [.answer (.flag (a.countdown == 0))] } =
        .next { a with countdown := a.cfg.period, outs := [.quiet] } :=
      execWhole_of_atomic (by exact ha) hload
    refine ⟨_, c, .answer (.flag (a.countdown == 0)) :: .quiet :: os, .inr rfl, hfirst.append (hsecond.append hbeat),
      fun os' => ?_⟩
    rw [execBeat, thenWhole_of_atomic (by exact ha) ((exec_with_outs _ a os').trans helapsed)]
    have hflag : Resp.flag (a.countdown == 0) = .flag true := by simp [hz]
    refine (if_pos hflag).trans ?_
    simp only [hreload, hpseudo]
    rfl
  · rw [if_neg hz] at hfirst
    refine ⟨[], _, [.answer (.flag (a.countdown == 0))], .inl rfl, hfirst, fun os' => ?_⟩
    rw [execBeat, thenWhole_of_atomic (by exact ha) ((exec_with_outs _ a os').trans helapsed)]
    have hflag : Resp.flag (a.countdown == 0) ≠ .flag true := fun h => hz (beq_iff_eq.1 (Resp.flag.inj h))
    exact if_neg hflag

end Sys2Proof.Machine
end

section
/-! The obligation on the passes of the reference host (44_host_loop.md R166, R169). -/

namespace Sys2Proof.Machine

/-- Settles O60: a pass is the echo phase and the beat phase, and the host goes on with the end of its own event. -/
theorem passesOfTheReferenceHost : Obligations.PassesOfTheReferenceHost := by
  refine ⟨fun s hinv ha hc hd hpos => ?_, fun s t h => ⟨fun hown => ?_, execHost_keeps_host_of_other h⟩⟩
  · have hissued : s.host.issued = false := by
      rw [← Bool.not_eq_true]
      intro hi
      cases (State.not_midOperation_of_atomic ha).symm.trans (hinv.hostIssued hi)
    have hhost : s.host = ⟨.take, s.host.status, false⟩ := by rw [← hpos, ← hissued]
    obtain ⟨echo, a, os, hecho, hfirst, hpseudo, hahost, hacfg⟩ := echo_phase (status := s.host.status) ha hd
    obtain ⟨beat, c, os', hbeat, hsecond, hpseudo'⟩ :=
      beat_phase (a := a) (status := s.host.status) (by rw [hacfg]; exact ha) (by rw [hacfg]; exact hc)
    have hpass := hfirst.append hsecond
    have hstart : { s with host := ⟨.take, s.host.status, false⟩ } = s := by rw [← hhost]
    rw [hstart] at hpass
    refine ⟨echo, beat, _, { c with
      host := { a.host with status := if beat = [] then a.host.status else !a.host.status }, outs := os ++ os' },
      hecho, hacfg ▸ hbeat, hpass.hostEvents_eq ?_, rfl, rfl, ?_, ?_⟩
    · simp only [List.length_append, List.length_cons]
      omega
    · rw [execPass, hpseudo]
      simp only [hpseudo']
    · simp only [hahost, hpos, hissued]
  · obtain ⟨hbusy, hdone⟩ := execHost_host h hown
    refine ⟨fun hm => ⟨hbusy hm, by rw [hbusy hm]; rfl⟩, fun hm => ⟨hdone hm, ?_⟩⟩
    rw [hdone hm]
    exact s.host.phase_after s.cfg t.lastResp

end Sys2Proof.Machine
end
